-- ==== Sys2Proof/Word.lean ====
section
/-! DEFINITION. The word types of the qvm core: bytes, 32-bit words, register addresses, and the four bytes of an instruction. -/

namespace Sys2Proof

/-- A memory cell or an instruction byte (R12). -/
abbrev Byte := BitVec 8

/-- A register slot, a memory address, an immediate after extension (R12, R83). -/
abbrev Word := BitVec 32

/-- An 8-bit register address (R12, R20). -/
abbrev RegAddr := BitVec 8

/-- The four bytes of an instruction, `a` (the opcode) at the lowest address (R54, R80). -/
structure Quad where
  a : Byte
  b : Byte
  c : Byte
  d : Byte
  deriving DecidableEq, Repr

end Sys2Proof
end

