-- ==== Sys2Proof/Config.lean ====
section
/-! DEFINITION. What the spec leaves to the environment: the implementation parameters of R13, the values a construction request carries, and the free values (opaque constants without a body). -/

namespace Sys2Proof

/-- The end-of-code bound is read from the live registers or from a latch set at start (R13, R227, D7). -/
inductive EocMode where
  | live
  | latched
  deriving DecidableEq, Repr

/-- A half-open interval `[lo, hi)` of addresses. -/
abbrev Interval := Nat × Nat

/-- The parameters of R13 that a running core reads, fixed at construction.
They stand in State so that the step is one function and a statement over every state quantifies over them (log 1). -/
structure Params where
  /-- MEM_SIZE, the number of memory cells (R13, R14). -/
  memSize : Nat
  /-- MAX_BASE, the exclusive upper bound of the code base (R13, R253). -/
  maxBase : Nat
  /-- SSX_RANGE, the set the re-roll draws from, as a list of intervals (R13, R104). -/
  ssxRange : List Interval
  /-- EOC_MODE (R13, R227). -/
  eocMode : EocMode
  deriving DecidableEq, Repr

namespace Config

/-- The default length of the memory, 128 MiB (R14). -/
def defaultMemSize : Nat := 134217728

/-- Every 32-bit value, the default of SSX_RANGE (R13). -/
def fullRange : List Interval := [(0, 2 ^ 32)]

/-- FREE VALUE. The k-th draw (R7, R38, D8).
A rule's set of values is indexed by it, so every member of the set is possible and none is preferred (log 4). -/
opaque draw : Nat → Nat

/-- FREE VALUE. PARSE_U32 (R13, R127): the host's reading of a line as an unsigned number, or `none` for `fail`. -/
opaque parseU32 : List Byte → Option Word

/-- FREE VALUE. PARSE_I32 (R13, R127): the bits of the host's reading of a line as a signed number. -/
opaque parseI32 : List Byte → Option Word

/-- FREE VALUE. PARSE_F32 (R13, R127): the bits of the host's reading of a line as a float. -/
opaque parseF32 : List Byte → Option Word

/-- FREE VALUE. Whether a last hex character without a partner makes the program text invalid (N34). -/
opaque oddHexInvalid : Bool

end Config

end Sys2Proof
end

