-- ==== Sys2Proof/Syntax.lean ====
section
/-! DEFINITION. The instructions of the qvm core, one constructor per row of the opcode map (R85), and the image a host starts. -/

namespace Sys2Proof

/-- The 37 instructions of R85.
A constructor holds exactly the fields its row reads: `b`, `c`, `d` are register addresses (R84) or, for `setV`, the data byte, `imm` is imm16 or imm24 and `off` is off16 (R82).
Bytes that a row ignores are no part of the instruction. -/
inductive Instr where
  | nop
  | ldxXV (b : RegAddr) (imm : BitVec 16)
  | ldxXX (b c : RegAddr)
  | setV (b : Byte)
  | setX (b : RegAddr)
  | getX (b : RegAddr)
  | excV (imm : BitVec 24)
  | excX (b : RegAddr)
  | jitVV (off : BitVec 16) (d : Byte)
  | jitVX (off : BitVec 16) (d : RegAddr)
  | jitXV (b : RegAddr) (imm : BitVec 16)
  | jitXX (b c : RegAddr)
  | jifVV (off : BitVec 16) (d : Byte)
  | jifVX (off : BitVec 16) (d : RegAddr)
  | jifXV (b c : RegAddr)
  | jifXX (b c : RegAddr)
  | addXV (b : RegAddr) (imm : BitVec 16)
  | addXX (b c : RegAddr)
  | subXV (b : RegAddr) (imm : BitVec 16)
  | subXX (b c : RegAddr)
  | mulXV (b : RegAddr) (imm : BitVec 16)
  | mulXX (b c : RegAddr)
  | divXV (b : RegAddr) (imm : BitVec 16)
  | divXX (b c : RegAddr)
  | andXV (b : RegAddr) (imm : BitVec 16)
  | andXX (b c : RegAddr)
  | orXV (b : RegAddr) (imm : BitVec 16)
  | orXX (b c : RegAddr)
  | xorXV (b : RegAddr) (imm : BitVec 16)
  | xorXX (b c : RegAddr)
  | shlXV (b : RegAddr) (imm : BitVec 16)
  | shlXX (b c : RegAddr)
  | shrXV (b : RegAddr) (imm : BitVec 16)
  | shrXX (b c : RegAddr)
  | notX (b : RegAddr)
  | cmpXV (b : RegAddr) (imm : BitVec 16)
  | cmpXX (b c : RegAddr)
  deriving DecidableEq, Repr

/-- A program image: the bytes the host hands to `start` (R252, R256). -/
abbrev Image := List Byte

end Sys2Proof
end

