-- ==== Sys2Proof/WellFormed.lean ====
section
/-! DEFINITION. The checks on what the core is given: opcodes, instructions, program images and implementation parameters. -/

namespace Sys2Proof

/-- The opcodes 0x00 to 0x24 are defined, every other opcode is the invalid instruction (R85, R86). -/
def opcodeDefined (a : Byte) : Bool := a.toNat ≤ 0x24

/-- Every value of every operand field is a legal encoding (R84), and the field widths are in the types of Instr.
So no instruction is ill-formed: R86 reserves no operand value. -/
def Instr.wellFormed (_ : Instr) : Bool := true

/-- An image that `start` accepts is not empty and has a length that is a multiple of 4 (R252). -/
def Image.wellFormed (img : Image) : Bool := !img.isEmpty && img.length % 4 == 0

/-- An interval of 32-bit values. -/
def Interval.wellFormed (iv : Interval) : Bool := iv.1 ≤ iv.2 && iv.2 ≤ 2 ^ 32

/-- The bounds R13 puts on the parameters: 0 ≤ MEM_SIZE ≤ 2^32, MAX_BASE ≥ 1 and the base a 32-bit value, SSX_RANGE a set of 32-bit values. -/
def Params.wellFormed (p : Params) : Bool :=
  p.memSize ≤ 2 ^ 32 && 1 ≤ p.maxBase && p.maxBase ≤ 2 ^ 32 && p.ssxRange.all Interval.wellFormed

end Sys2Proof
end

