-- ==== Sys2Proof/Decode.lean ====
section
/-! DEFINITION. Instruction encoding (30_encoding.md): fields, the decoder, and after it the encoder written from the same map. -/

namespace Sys2Proof

/-- Why bytes are no instruction. -/
inductive DecodeError where
  /-- The opcode is 0x25 or above (R86); the four bytes are what the report carries (R218). -/
  | invalidInstruction (q : Quad)
  /-- Fewer than four bytes: every instruction is exactly four (R80). -/
  | truncated (bytes : List Byte)
  deriving DecidableEq, Repr

/-- `imm16 = (c << 8) | d` (R82). -/
def Quad.imm16 (q : Quad) : BitVec 16 := q.c ++ q.d

/-- `imm24 = (b << 16) | (c << 8) | d` (R82). -/
def Quad.imm24 (q : Quad) : BitVec 24 := q.b ++ q.c ++ q.d

/-- `off16 = (b << 8) | c` (R82). -/
def Quad.off16 (q : Quad) : BitVec 16 := q.b ++ q.c

/-- The word view `W = {a, b, c, d}`, `a` most significant (R81). -/
def Quad.toWord (q : Quad) : Word := q.a ++ q.b ++ q.c ++ q.d

/-- The bytes of the word view, `a` from bits 31 to 24 (R81). -/
def Quad.ofWord (w : Word) : Quad :=
  { a := w.extractLsb' 24 8, b := w.extractLsb' 16 8, c := w.extractLsb' 8 8, d := w.extractLsb' 0 8 }

/-- The bytes in address order (R54). -/
def Quad.bytes (q : Quad) : List Byte := [q.a, q.b, q.c, q.d]

/-- The byte at bits 15 to 8 of a 16-bit field. -/
def hiByte (v : BitVec 16) : Byte := v.extractLsb' 8 8

/-- The byte at bits 7 to 0 of a 16-bit field. -/
def loByte (v : BitVec 16) : Byte := v.extractLsb' 0 8

/-- The opcode map of R85: the opcode byte alone selects the instruction (R88). -/
def decode (q : Quad) : Except DecodeError Instr :=
  match q.a.toNat with
  | 0x00 => .ok .nop
  | 0x01 => .ok (.ldxXV q.b q.imm16)
  | 0x02 => .ok (.ldxXX q.b q.c)
  | 0x03 => .ok (.setV q.b)
  | 0x04 => .ok (.setX q.b)
  | 0x05 => .ok (.getX q.b)
  | 0x06 => .ok (.excV q.imm24)
  | 0x07 => .ok (.excX q.b)
  | 0x08 => .ok (.jitVV q.off16 q.d)
  | 0x09 => .ok (.jitVX q.off16 q.d)
  | 0x0A => .ok (.jitXV q.b q.imm16)
  | 0x0B => .ok (.jitXX q.b q.c)
  | 0x0C => .ok (.jifVV q.off16 q.d)
  | 0x0D => .ok (.jifVX q.off16 q.d)
  | 0x0E => .ok (.jifXV q.b q.c)
  | 0x0F => .ok (.jifXX q.b q.c)
  | 0x10 => .ok (.addXV q.b q.imm16)
  | 0x11 => .ok (.addXX q.b q.c)
  | 0x12 => .ok (.subXV q.b q.imm16)
  | 0x13 => .ok (.subXX q.b q.c)
  | 0x14 => .ok (.mulXV q.b q.imm16)
  | 0x15 => .ok (.mulXX q.b q.c)
  | 0x16 => .ok (.divXV q.b q.imm16)
  | 0x17 => .ok (.divXX q.b q.c)
  | 0x18 => .ok (.andXV q.b q.imm16)
  | 0x19 => .ok (.andXX q.b q.c)
  | 0x1A => .ok (.orXV q.b q.imm16)
  | 0x1B => .ok (.orXX q.b q.c)
  | 0x1C => .ok (.xorXV q.b q.imm16)
  | 0x1D => .ok (.xorXX q.b q.c)
  | 0x1E => .ok (.shlXV q.b q.imm16)
  | 0x1F => .ok (.shlXX q.b q.c)
  | 0x20 => .ok (.shrXV q.b q.imm16)
  | 0x21 => .ok (.shrXX q.b q.c)
  | 0x22 => .ok (.notX q.b)
  | 0x23 => .ok (.cmpXV q.b q.imm16)
  | 0x24 => .ok (.cmpXX q.b q.c)
  | _ => .error (.invalidInstruction q)

/-- Decoding from a byte sequence in address order: the instruction and the bytes after it. -/
def decodeBytes : List Byte → Except DecodeError (Instr × List Byte)
  | a :: b :: c :: d :: rest => (decode ⟨a, b, c, d⟩).map (fun i => (i, rest))
  | short => .error (.truncated short)

/-- The bytes of an instruction that the opcode table numbers as `nbits` bits `w`: bit 0 is the least significant bit of the word W of R81, bits from `nbits` up are 0. -/
def tableQuad (nbits w : Nat) : Quad := Quad.ofWord (BitVec.ofNat 32 (w % 2 ^ nbits))

/-- What the decoder reads from a word numbered as the opcode table numbers it (R81, R88). -/
def decodeTableWord (nbits w : Nat) : Option Instr :=
  match decodeBytes (tableQuad nbits w).bytes with
  | .ok (i, _) => some i
  | .error _ => none

/-- The opcode byte of an instruction (R85). -/
def Instr.opcode : Instr → Byte
  | .nop => 0x00
  | .ldxXV _ _ => 0x01
  | .ldxXX _ _ => 0x02
  | .setV _ => 0x03
  | .setX _ => 0x04
  | .getX _ => 0x05
  | .excV _ => 0x06
  | .excX _ => 0x07
  | .jitVV _ _ => 0x08
  | .jitVX _ _ => 0x09
  | .jitXV _ _ => 0x0A
  | .jitXX _ _ => 0x0B
  | .jifVV _ _ => 0x0C
  | .jifVX _ _ => 0x0D
  | .jifXV _ _ => 0x0E
  | .jifXX _ _ => 0x0F
  | .addXV _ _ => 0x10
  | .addXX _ _ => 0x11
  | .subXV _ _ => 0x12
  | .subXX _ _ => 0x13
  | .mulXV _ _ => 0x14
  | .mulXX _ _ => 0x15
  | .divXV _ _ => 0x16
  | .divXX _ _ => 0x17
  | .andXV _ _ => 0x18
  | .andXX _ _ => 0x19
  | .orXV _ _ => 0x1A
  | .orXX _ _ => 0x1B
  | .xorXV _ _ => 0x1C
  | .xorXX _ _ => 0x1D
  | .shlXV _ _ => 0x1E
  | .shlXX _ _ => 0x1F
  | .shrXV _ _ => 0x20
  | .shrXX _ _ => 0x21
  | .notX _ => 0x22
  | .cmpXV _ _ => 0x23
  | .cmpXX _ _ => 0x24

/-- Format N: no operand (R87). -/
def formatN (op : Byte) : Quad := ⟨op, 0, 0, 0⟩

/-- Formats RI and RIC: a register and imm16 (R87). -/
def formatRI (op : Byte) (b : RegAddr) (imm : BitVec 16) : Quad := ⟨op, b, hiByte imm, loByte imm⟩

/-- Format RR: two registers (R87). -/
def formatRR (op : Byte) (b c : RegAddr) : Quad := ⟨op, b, c, 0⟩

/-- Formats R and I8: one register or one data byte (R87). -/
def formatR (op : Byte) (b : Byte) : Quad := ⟨op, b, 0, 0⟩

/-- Format I24: imm24 (R87). -/
def formatI24 (op : Byte) (imm : BitVec 24) : Quad :=
  ⟨op, imm.extractLsb' 16 8, imm.extractLsb' 8 8, imm.extractLsb' 0 8⟩

/-- Formats JVV and JVX: off16, then a flag literal or a register (R87). -/
def formatJ (op : Byte) (off : BitVec 16) (d : Byte) : Quad := ⟨op, hiByte off, loByte off, d⟩

/-- The encoder, written from the formats of R87; bytes that a format ignores are 0. -/
def encode (i : Instr) : Quad :=
  match i with
  | .nop => formatN i.opcode
  | .ldxXV b imm => formatRI i.opcode b imm
  | .ldxXX b c => formatRR i.opcode b c
  | .setV b => formatR i.opcode b
  | .setX b => formatR i.opcode b
  | .getX b => formatR i.opcode b
  | .excV imm => formatI24 i.opcode imm
  | .excX b => formatR i.opcode b
  | .jitVV off d => formatJ i.opcode off d
  | .jitVX off d => formatJ i.opcode off d
  | .jitXV b imm => formatRI i.opcode b imm
  | .jitXX b c => formatRR i.opcode b c
  | .jifVV off d => formatJ i.opcode off d
  | .jifVX off d => formatJ i.opcode off d
  | .jifXV b c => formatRR i.opcode b c
  | .jifXX b c => formatRR i.opcode b c
  | .addXV b imm => formatRI i.opcode b imm
  | .addXX b c => formatRR i.opcode b c
  | .subXV b imm => formatRI i.opcode b imm
  | .subXX b c => formatRR i.opcode b c
  | .mulXV b imm => formatRI i.opcode b imm
  | .mulXX b c => formatRR i.opcode b c
  | .divXV b imm => formatRI i.opcode b imm
  | .divXX b c => formatRR i.opcode b c
  | .andXV b imm => formatRI i.opcode b imm
  | .andXX b c => formatRR i.opcode b c
  | .orXV b imm => formatRI i.opcode b imm
  | .orXX b c => formatRR i.opcode b c
  | .xorXV b imm => formatRI i.opcode b imm
  | .xorXX b c => formatRR i.opcode b c
  | .shlXV b imm => formatRI i.opcode b imm
  | .shlXX b c => formatRR i.opcode b c
  | .shrXV b imm => formatRI i.opcode b imm
  | .shrXX b c => formatRR i.opcode b c
  | .notX b => formatR i.opcode b
  | .cmpXV b imm => formatRI i.opcode b imm
  | .cmpXX b c => formatRR i.opcode b c

/-- The bytes `b`, `c`, `d` with those that the opcode's row of R85 ignores set to 0: `nop` ignores all three, the formats R and I8 ignore `c` and `d`, the format RR ignores `d`, the other formats ignore none (R86, R87). -/
def Quad.dropIgnored (q : Quad) : Quad :=
  match q.a.toNat with
  | 0x00 => ⟨q.a, 0, 0, 0⟩
  | 0x03 | 0x04 | 0x05 | 0x07 | 0x22 => ⟨q.a, q.b, 0, 0⟩
  | 0x02 | 0x0B | 0x0E | 0x0F | 0x11 | 0x13 | 0x15 | 0x17 | 0x19 | 0x1B | 0x1D | 0x1F | 0x21 | 0x24 =>
    ⟨q.a, q.b, q.c, 0⟩
  | _ => q

end Sys2Proof
end

