-- ==== Sys2Proof/Machine/State.lean ====
section
/-! DEFINITION. The state of the qvm core as plain data (10_state.md), what it sends to the host, the reasons a step stops, and construction reset (R250). -/

namespace Sys2Proof.Machine

/-- The register file: 25 slots of 32 bits (R20). -/
abbrev RegFile := Vector Word 25

/-- The linear memory: (address, byte) pairs, addresses strictly rising, no entry equal to `Memory.background` (R39, R50). -/
abbrev Memory := List Host.Cell

/-- What an address that the list does not hold reads as.
DESIGN CHOICE (log 2), unsafe for a claim about State.reset alone: INIT_MEM is OPEN (R13, D10). -/
def Memory.background : Byte := 0

/-- The canonical form from an address upwards. -/
def Memory.wfFrom : Nat → Memory → Bool
  | _, [] => true
  | lo, (a, v) :: rest => lo ≤ a && v != Memory.background && Memory.wfFrom (a + 1) rest

/-- The one canonical form: addresses strictly rising, no entry that reads as an unlisted address does. -/
def Memory.wf (m : Memory) : Bool := Memory.wfFrom 0 m

/-- Every listed address is below a bound: only the cells below MEM_SIZE exist (R50). -/
def Memory.below (n : Nat) (m : Memory) : Bool := m.all (fun cell => cell.1 < n)

/-- Why a process ended (R229). -/
inductive HaltReason where
  | exit
  | abort
  | divZero
  | invalidInstruction
  | endOfCode
  | debugStop
  deriving DecidableEq, Repr

/-- The continuation code an executor returns: CONTINUE, or TERMINATE with its halt reason (R18, R100, R213). -/
inductive Code where
  | cont
  | terminate (reason : HaltReason)
  deriving DecidableEq, Repr

/-- Idle: the core waits for the host; Running: a process exists (R34). -/
inductive Mode where
  | idle
  | running
  deriving DecidableEq, Repr

/-- The bits of the live process's `info` bitset, STARTED = 0x1 and ABORTED = 0x2 (R35). -/
structure ProcInfo where
  started : Bool
  aborted : Bool
  deriving DecidableEq, Repr

/-- The debug modes (R36, R236). -/
inductive DebugMode where
  | none
  | regs
  | stack
  | both
  | step
  deriving DecidableEq, Repr

/-- The console services that read a line: `sx` = 6, 7, 8, 9 and 0xA (R133 to R137). -/
inductive ReadService where
  | char
  | unsigned
  | signed
  | float
  | stackLine
  deriving DecidableEq, Repr

/-- What a Running core is waiting for (R238), or that it hangs (R240).
In every one of these a step completes no instruction. -/
inductive Wait where
  /-- Nothing: the next step runs an instruction. -/
  | none
  /-- Suspended in a console read for this service (R127). -/
  | line (svc : ReadService)
  /-- Waiting for the host's answer to a step-mode view (R237); the executor's code is kept. -/
  | debugAnswer
  /-- Hung in a re-roll with no solution (R104): no later step happens. -/
  | hung
  deriving DecidableEq, Repr

/-- The host's answer to a step-mode debug view (R237). -/
inductive DebugAnswer where
  | continue
  | stop
  deriving DecidableEq, Repr

/-- The requests of the host (R8).
`start none` is a `start` with no loaded process (R252; log 21). -/
inductive HostCmd where
  | start (image : Option Image)
  | setDebug (mode : DebugMode)
  | quit
  deriving DecidableEq, Repr

/-- A diagnostic report and its data (R10, R216). -/
inductive Report where
  | badIndex (addr : Word)
  | badRegister (a : RegAddr)
  | divZero
  | invalidInstruction (q : Quad)
  | abort
  /-- The memory could not be allocated (R251): it has no kind code. -/
  | allocationFailed
  deriving DecidableEq, Repr

/-- What the trap dispatcher exchanges with the console (R9). -/
inductive ConsoleEvent where
  | writeChar (c : Byte)
  | writeU32 (w : Word)
  | writeI32 (w : Word)
  | writeF32 (w : Word)
  | writeBytes (bytes : List Byte)
  | clearScreen
  | readLine
  deriving DecidableEq, Repr

/-- Everything the core sends out: reports (R10), console events (R9), debug views (R11), `halted` (R228) and the last exit code at `quit` (R8). -/
inductive Event where
  | report (r : Report)
  | console (c : ConsoleEvent)
  | debugView (rf : RegFile) (mem : Memory)
  | halted (reason : HaltReason) (ec : Int)
  | ended (ec : Int)
  deriving DecidableEq, Repr

/-- The state of the core. -/
structure State where
  /-- The parameters of R13; no step changes them. -/
  cfg : Params
  /-- The register file (R20, R21). -/
  rf : RegFile
  /-- The linear memory (R39). -/
  mem : Memory
  /-- The exit code, read as a signed number (R33). -/
  ec : Word
  /-- Idle or Running (R34). -/
  mode : Mode
  /-- The process status bits; `none` when there is no process (R35). -/
  proc : Option ProcInfo
  /-- The debug mode (R36). -/
  dbg : DebugMode
  /-- The end-of-code latch, used when EOC_MODE is latched (R37). -/
  eoc : Word
  /-- The continuation code the executor returned, for the sequencer of the same step (R100, R213). -/
  code : Code
  /-- What a Running core waits for (R238, R240). -/
  wait : Wait
  /-- `quit` has ended the block's life (R8). -/
  ended : Bool
  /-- MODEL: the host's requests still to come, first first (R8; log 6). -/
  hostCmds : List HostCmd
  /-- MODEL: the lines the host answers `read_line` with, first first (R127; log 6). -/
  lines : List (List Byte)
  /-- MODEL: the host's step-mode answers, first first (R237; log 6). -/
  answers : List DebugAnswer
  /-- MODEL: how many draws were taken; the next one is `Config.draw draws` (R7; log 4). -/
  draws : Nat
  /-- What was sent out, newest first (R9, R10, R11, R228; log 10). -/
  out : List Event
  deriving DecidableEq, Repr

/-- The reasons a step ends in a fault. -/
inductive Fault where
  /-- Raised by the console read services 6 to 9 on input the source gives no value for: an empty line for a character, a line the host's conversion fails on (R133 to R136, R220).
  The spec names it and calls it a model outcome, never final and never cleared.
  Safe: the source gives no effect, so no claim is proved about what follows. -/
  | consoleInputUnspecified
  deriving DecidableEq, Repr

/-- The reasons a step is refused. -/
inductive Refusal where
  /-- Raised by an arm of `exec` whose instruction has no meaning yet.
  Safe: nothing is claimed about such an instruction.
  No arm of this model answers it. -/
  | notModelled (mnemonic : String)
  deriving DecidableEq, Repr

/-- The outcomes of an executor and of a step. -/
abbrev Result := Host.Outcome State Fault Refusal

/-- A construction request (R13, R14, R250): everything that is chosen when the block comes into being. -/
structure Construction where
  /-- The requested memory length; 0 selects the default (R14). -/
  request : Nat
  /-- Whether the memory could be allocated (R251). -/
  allocated : Bool
  /-- INIT_MEM (R39): the contents, of which the cells below MEM_SIZE exist. -/
  initMem : Memory
  maxBase : Nat
  ssxRange : List Interval
  eocMode : EocMode
  deriving DecidableEq, Repr

/-- MEM_SIZE by the request and the allocation (R14, R250, R251). -/
def Construction.memSize (c : Construction) : Nat :=
  if c.allocated then (if c.request = 0 then Config.defaultMemSize else c.request) else 0

/-- Construction reset (R250, R41): the memory holds INIT_MEM, every register slot is 0, `ec` is 1, the core is Idle with no process, `dbg` is none, and a failed allocation is reported (R251). -/
def State.construct (c : Construction) : State where
  cfg := { memSize := c.memSize, maxBase := c.maxBase, ssxRange := c.ssxRange, eocMode := c.eocMode }
  rf := Vector.replicate 25 0
  mem := c.initMem.filter (fun cell => cell.1 < c.memSize)
  ec := 1
  mode := .idle
  proc := none
  dbg := .none
  eoc := 0
  code := .cont
  wait := .none
  ended := false
  hostCmds := []
  lines := []
  answers := []
  draws := 0
  out := if c.allocated then [] else [.report .allocationFailed]

/-- The construction request behind State.reset: the default memory length, SSX_RANGE and EOC_MODE of R13.
DESIGN CHOICE (log 2, log 3): INIT_MEM all zero and MAX_BASE 2^32, which the spec leaves OPEN. -/
def Construction.default : Construction where
  request := 0
  allocated := true
  initMem := []
  maxBase := 2 ^ 32
  ssxRange := Config.fullRange
  eocMode := .live

/-- The machine right after reset (R250): constructed with the default parameters. -/
def State.reset : State := State.construct Construction.default

end Sys2Proof.Machine
end

