-- ==== Sys2Proof/Machine/Ops.lean ====
section
/-! DEFINITION. The named operations over registers, memory and the output stream, and how a process ends.
There is no vectored exception to take and none to return from (R222): terminating (R228) is what stands in their place. -/

namespace Sys2Proof.Machine

/-! ### Register addresses (R21) -/

/-- `csx`, code-segment base (R24). -/
def Reg.csx : RegAddr := 0x10
/-- `ipx`, instruction pointer (R25). -/
def Reg.ipx : RegAddr := 0x11
/-- `clx`, code-segment length (R26). -/
def Reg.clx : RegAddr := 0x12
/-- `ssx`, stack-segment base (R27). -/
def Reg.ssx : RegAddr := 0x13
/-- `spx`, stack pointer (R28). -/
def Reg.spx : RegAddr := 0x14
/-- `slx`, stack-segment length (R29). -/
def Reg.slx : RegAddr := 0x15
/-- `ax`, memory address register (R30). -/
def Reg.ax : RegAddr := 0x16
/-- `sx`, trap subfunction selector (R31). -/
def Reg.sx : RegAddr := 0x17
/-- `fx`, comparison flags (R32). -/
def Reg.fx : RegAddr := 0x18
/-- `x0`, which trap services read and write (R22). -/
def Reg.x0 : RegAddr := 0x00
/-- `x1`, the length that service 5 reads (R22). -/
def Reg.x1 : RegAddr := 0x01

/-- Addresses 0 to 24 select a register (R20). -/
def validReg (a : RegAddr) : Bool := a.toNat < 25

/-! ### The memory list -/

/-- The byte at an address. -/
def Memory.read : Memory → Nat → Byte
  | [], _ => Memory.background
  | (a, v) :: rest, n => if a = n then v else Memory.read rest n

/-- No entry for an address. -/
def Memory.erase (m : Memory) (n : Nat) : Memory := m.filter (fun cell => cell.1 != n)

/-- An entry put in its place by address. -/
def Memory.insert : Memory → Nat → Byte → Memory
  | [], n, v => [(n, v)]
  | (a, x) :: rest, n, v => if n < a then (n, v) :: (a, x) :: rest else (a, x) :: Memory.insert rest n v

/-- One byte written; writing what an unlisted address reads as removes the entry. -/
def Memory.write (m : Memory) (n : Nat) (v : Byte) : Memory :=
  if v = Memory.background then m.erase n else (m.erase n).insert n v

/-! ### Output -/

/-- Send an event out. -/
def State.emit (e : Event) (s : State) : State := { s with out := e :: s.out }

/-- Emit a diagnostic report (R10): no other state changes. -/
def State.report (r : Report) (s : State) : State := s.emit (.report r)

/-- Send an event to the console (R9). -/
def State.console (c : ConsoleEvent) (s : State) : State := s.emit (.console c)

/-- The kind codes of R216. -/
def reportCode : Report → Option Nat
  | .badIndex _ => some 1
  | .badRegister _ => some 2
  | .divZero => some 3
  | .invalidInstruction _ => some 4
  | .abort => some 5
  | .allocationFailed => none

/-- The halt-reason codes of R229. -/
def haltCode : HaltReason → Nat
  | .exit => 1
  | .abort => 2
  | .divZero => 3
  | .invalidInstruction => 4
  | .endOfCode => 5
  | .debugStop => 6

/-! ### Register access (R16) -/

/-- A slot of the file; an address without a slot reads 0. -/
def RegFile.read (rf : RegFile) (a : RegAddr) : Word := rf[a.toNat]?.getD 0

/-- A slot of the file written; an address without a slot writes nothing. -/
def RegFile.write (rf : RegFile) (a : RegAddr) (v : Word) : RegFile := rf.setIfInBounds a.toNat v

/-- The value of the read `x[a]`: the slot, or 0 from the sink (R16). -/
def State.regVal (s : State) (a : RegAddr) : Word := s.rf.read a

/-- The report of the read `x[a]`: BAD_REGISTER at the sink, nothing else (R16, R216). -/
def State.noteReg (a : RegAddr) (s : State) : State :=
  if validReg a then s else s.report (.badRegister a)

/-- The write `x[a] <- v`: all 32 bits, or discarded with BAD_REGISTER at the sink (R16, R23). -/
def State.putReg (a : RegAddr) (v : Word) (s : State) : State :=
  if validReg a then { s with rf := s.rf.write a v } else s.report (.badRegister a)

/-- The control registers by name (R16, R21). -/
def State.csx (s : State) : Word := s.regVal Reg.csx
def State.ipx (s : State) : Word := s.regVal Reg.ipx
def State.clx (s : State) : Word := s.regVal Reg.clx
def State.ssx (s : State) : Word := s.regVal Reg.ssx
def State.spx (s : State) : Word := s.regVal Reg.spx
def State.slx (s : State) : Word := s.regVal Reg.slx
def State.ax (s : State) : Word := s.regVal Reg.ax
def State.sx (s : State) : Word := s.regVal Reg.sx
def State.fx (s : State) : Word := s.regVal Reg.fx

/-- The exit code as the signed number it stands for (R33). -/
def State.exitCode (s : State) : Int := s.ec.toInt

/-! ### Memory access (R17, R52) -/

/-- An address whose cell exists (R50). -/
def State.inMemory (s : State) (addr : Word) : Bool := addr.toNat < s.cfg.memSize

/-- The value of `MemRead(addr, 1)`: the cell, or 0 outside memory (R17, R52). -/
def State.memVal (s : State) (addr : Word) : Byte :=
  if s.inMemory addr then s.mem.read addr.toNat else 0

/-- The report of `MemRead(addr, 1)`: BAD_INDEX outside memory, nothing else (R52, R53). -/
def State.noteMem (addr : Word) (s : State) : State :=
  if s.inMemory addr then s else s.report (.badIndex addr)

/-- `MemWrite(addr, 1, v)`: the cell, or discarded with BAD_INDEX outside memory (R17, R52). -/
def State.putMem (addr : Word) (v : Byte) (s : State) : State :=
  if s.inMemory addr then { s with mem := s.mem.write addr.toNat v } else s.report (.badIndex addr)

/-! ### Control (R18, R228) -/

/-- `return code`: the executor ends with a continuation code (R18, R100). -/
def State.ret (c : Code) (s : State) : State := { s with code := c }

/-- `raise Terminate(reason)` after its report (R18). -/
def State.terminate (reason : HaltReason) (s : State) : State := s.ret (.terminate reason)

/-- `Halt(reason)` (R228): Idle, the process destroyed, `halted(reason, ec)` sent; registers, memory, `ec` and `dbg` stay (R42). -/
def State.halt (reason : HaltReason) (s : State) : State :=
  { s with mode := .idle, proc := none, code := .cont, wait := .none,
           out := .halted reason s.exitCode :: s.out }

/-- One draw taken: its value and the state after it (R7). -/
def State.drawn (s : State) : Nat := Config.draw s.draws

/-- The draw is used up: the next one is another free value. -/
def State.countDraw (s : State) : State := { s with draws := s.draws + 1 }

end Sys2Proof.Machine
end

