-- ==== Sys2Proof/Machine/Operands.lean ====
section
/-! DEFINITION. Operand forms: immediates, the memory operand, the jump target, and the re-roll's set of values (R83, R104, R105, R150). -/

namespace Sys2Proof.Machine

/-- Every immediate is zero-extended to 32 bits (R83). -/
def zext {n : Nat} (v : BitVec n) : Word := v.setWidth 32

/-- A byte sign-extended to 32 bits: one of the two readings of a character at or above 0x80 (R133). -/
def sext8 (v : Byte) : Word := v.signExtend 32

/-- The register address that byte `c` of a format RIC instruction names, the high byte of imm16 (R87, R174). -/
def flagRegOf (imm : BitVec 16) : RegAddr := hiByte imm

/-- The target of a taken jump, `csx + T` modulo 2^32 (R150). -/
def State.target (s : State) (t : Word) : Word := s.csx + t

/-! ### Sets of 32-bit values as lists of intervals -/

/-- How many values an interval holds. -/
def intervalSize (iv : Interval) : Nat := iv.2 - iv.1

/-- How many values a list of intervals holds. -/
def rangeSize : List Interval → Nat
  | [] => 0
  | iv :: rest => intervalSize iv + rangeSize rest

/-- Membership in one of the intervals. -/
def inRange (ivs : List Interval) (v : Nat) : Bool := ivs.any (fun iv => iv.1 ≤ v && v < iv.2)

/-- The k-th value of a list of intervals; 0 past its end. -/
def nthOf : List Interval → Nat → Nat
  | [], _ => 0
  | iv :: rest, k => if k < intervalSize iv then iv.1 + k else nthOf rest (k - intervalSize iv)

/-- `draw(S)`: the value of S that the free index selects, none exactly when S is empty (R18, R104). -/
def drawFrom (ivs : List Interval) (k : Nat) : Option Nat :=
  if rangeSize ivs = 0 then none else some (nthOf ivs (k % rangeSize ivs))

/-- `Disjoint(s, l, c, n)`: `[s, s+l)` and `[c, c+n)` have no common integer (R105). -/
def disjoint (s l c n : Nat) : Bool := l == 0 || n == 0 || s + l ≤ c || c + n ≤ s

/-- The 32-bit values of an interval. -/
def clip32 (iv : Interval) : Interval := (iv.1, min iv.2 (2 ^ 32))

/-- The parts of an interval whose values `s` meet `Disjoint(s, l, c, n)`: all of it, or those with `s + l ≤ c` and those with `c + n ≤ s`. -/
def disjointParts (l c n : Nat) (iv : Interval) : List Interval :=
  if l == 0 || n == 0 then [iv] else [(iv.1, min iv.2 (c + 1 - l)), (max iv.1 (c + n), iv.2)]

/-- The set S of the re-roll: the members of SSX_RANGE that are disjoint from the code interval (R104). -/
def rerollSet (range : List Interval) (l c n : Nat) : List Interval :=
  range.flatMap (fun iv => disjointParts l c n (clip32 iv))

/-- The set S for the current `slx`, `csx` and `clx` (R104). -/
def State.rerollSet (s : State) : List Interval :=
  Machine.rerollSet s.cfg.ssxRange s.slx.toNat s.csx.toNat s.clx.toNat

end Sys2Proof.Machine
end

