-- ==== Sys2Proof/Machine/Flags.lean ====
section
/-! DEFINITION. The flag computation: the comparison rule and its write to `fx` (R170, R32), and the shift count (R186 to R189). -/

namespace Sys2Proof.Machine

/-- `cmpflag(l, r)`: 1 less, 2 equal, 4 greater, as unsigned numbers (R18, R170). -/
def cmpflag (l r : Word) : Word :=
  if l.toNat < r.toNat then 1 else if l.toNat = r.toNat then 2 else 4

/-- `fx <- cmpflag(l, r)`: all 32 bits of `fx` are written (R170). -/
def State.compare (l r : Word) (s : State) : State := s.putReg Reg.fx (cmpflag l r)

/-- A shift count is taken modulo 32 in every form (R186 to R189, D20). -/
def shiftCount (n : Word) : Nat := n.toNat % 32

end Sys2Proof.Machine
end

