-- ==== Sys2Proof/Machine/Alu.lean ====
section
/-! DEFINITION. Arithmetic, logic, shift, not and compare instructions, opcodes 0x10 to 0x24 (43_alu.md). -/

namespace Sys2Proof.Machine

/-- `x[b] <- f(x[b], imm16)`: one read and one write of `b` (R171). -/
def aluImm (f : Word → Word → Word) (b : RegAddr) (imm : BitVec 16) (s : State) : Result :=
  let l := s.regVal b
  .next (((s.noteReg b).putReg b (f l (zext imm))).ret .cont)

/-- `r <- x[c]`, then `x[b] <- f(x[b], r)` (R171). -/
def aluReg (f : Word → Word → Word) (b c : RegAddr) (s : State) : Result :=
  let r := s.regVal c
  let s1 := s.noteReg c
  let l := s1.regVal b
  .next (((s1.noteReg b).putReg b (f l r)).ret .cont)

/-- Division by zero: the report and TERMINATE, nothing else (R178, R179, R219). -/
def divZero (s : State) : Result := .next ((s.report .divZero).terminate .divZero)

/-- A logical left shift by a count modulo 32 (R186, R187). -/
def shl (l n : Word) : Word := l <<< shiftCount n

/-- A logical right shift by a count modulo 32 (R188, R189). -/
def shr (l n : Word) : Word := l >>> shiftCount n

/-- `add x,v` (R172). -/
def execAddXV (b : RegAddr) (imm : BitVec 16) (s : State) : Result := aluImm (· + ·) b imm s

/-- `add x,x` (R173). -/
def execAddXX (b c : RegAddr) (s : State) : Result := aluReg (· + ·) b c s

/-- `sub x,v` (R174): `x[b]` is compared with the register that byte `c` names, then the immediate is subtracted from `x[b]` as it stands after the flag write. -/
def execSubXV (b : RegAddr) (imm : BitVec 16) (s : State) : Result :=
  let c := flagRegOf imm
  let l := s.regVal b
  let s1 := s.noteReg b
  let r := s1.regVal c
  let s2 := (s1.noteReg c).compare l r
  let v := s2.regVal b
  .next (((s2.noteReg b).putReg b (v - zext imm)).ret .cont)

/-- `sub x,x` (R175): the registers are compared, then subtracted as they stand after the flag write. -/
def execSubXX (b c : RegAddr) (s : State) : Result :=
  let l := s.regVal b
  let s1 := s.noteReg b
  let r := s1.regVal c
  let s2 := (s1.noteReg c).compare l r
  let v := s2.regVal b
  let s3 := s2.noteReg b
  let w := s3.regVal c
  .next (((s3.noteReg c).putReg b (v - w)).ret .cont)

/-- `mul x,v` (R176). -/
def execMulXV (b : RegAddr) (imm : BitVec 16) (s : State) : Result := aluImm (· * ·) b imm s

/-- `mul x,x` (R177). -/
def execMulXX (b c : RegAddr) (s : State) : Result := aluReg (· * ·) b c s

/-- `div x,v` (R178): unsigned, truncating; a zero immediate terminates. -/
def execDivXV (b : RegAddr) (imm : BitVec 16) (s : State) : Result :=
  if imm = 0 then divZero s else aluImm (· / ·) b imm s

/-- `div x,x` (R179): the divisor is read and tested before the dividend is read. -/
def execDivXX (b c : RegAddr) (s : State) : Result :=
  let r := s.regVal c
  let s1 := s.noteReg c
  if r = 0 then divZero s1 else
  let l := s1.regVal b
  .next (((s1.noteReg b).putReg b (l / r)).ret .cont)

/-- `and x,v` (R180). -/
def execAndXV (b : RegAddr) (imm : BitVec 16) (s : State) : Result := aluImm (· &&& ·) b imm s

/-- `and x,x` (R181). -/
def execAndXX (b c : RegAddr) (s : State) : Result := aluReg (· &&& ·) b c s

/-- `or x,v` (R182). -/
def execOrXV (b : RegAddr) (imm : BitVec 16) (s : State) : Result := aluImm (· ||| ·) b imm s

/-- `or x,x` (R183). -/
def execOrXX (b c : RegAddr) (s : State) : Result := aluReg (· ||| ·) b c s

/-- `xor x,v` (R184). -/
def execXorXV (b : RegAddr) (imm : BitVec 16) (s : State) : Result := aluImm (· ^^^ ·) b imm s

/-- `xor x,x` (R185). -/
def execXorXX (b c : RegAddr) (s : State) : Result := aluReg (· ^^^ ·) b c s

/-- `shl x,v` (R186). -/
def execShlXV (b : RegAddr) (imm : BitVec 16) (s : State) : Result := aluImm shl b imm s

/-- `shl x,x` (R187). -/
def execShlXX (b c : RegAddr) (s : State) : Result := aluReg shl b c s

/-- `shr x,v` (R188). -/
def execShrXV (b : RegAddr) (imm : BitVec 16) (s : State) : Result := aluImm shr b imm s

/-- `shr x,x` (R189). -/
def execShrXX (b c : RegAddr) (s : State) : Result := aluReg shr b c s

/-- `not x` (R190). -/
def execNotX (b : RegAddr) (s : State) : Result :=
  let v := s.regVal b
  .next (((s.noteReg b).putReg b (~~~v)).ret .cont)

/-- `cmp x,v` (R191). -/
def execCmpXV (b : RegAddr) (imm : BitVec 16) (s : State) : Result :=
  let l := s.regVal b
  .next (((s.noteReg b).compare l (zext imm)).ret .cont)

/-- `cmp x,x` (R192). -/
def execCmpXX (b c : RegAddr) (s : State) : Result :=
  let l := s.regVal b
  let s1 := s.noteReg b
  let r := s1.regVal c
  .next (((s1.noteReg c).compare l r).ret .cont)

end Sys2Proof.Machine
end

