-- ==== Sys2Proof/Machine/Control.lean ====
section
/-! DEFINITION. Control transfer instructions, opcodes 0x08 to 0x0F (42_control_transfer.md). -/

namespace Sys2Proof.Machine

/-- A jump to an immediate offset (R150): taken, `ipx <- csx + off16`; not taken, `ipx` stays. -/
def jumpImm (taken : Bool) (off : BitVec 16) (s : State) : Result :=
  if taken then .next ((s.putReg Reg.ipx (s.target (zext off))).ret .cont) else .next (s.ret .cont)

/-- A jump to a register offset (R150): the target register is read only when the jump is taken (R159). -/
def jumpReg (taken : Bool) (b : RegAddr) (s : State) : Result :=
  if taken then
    let t := s.regVal b
    let s1 := s.noteReg b
    .next ((s1.putReg Reg.ipx (s1.target t)).ret .cont)
  else .next (s.ret .cont)

/-- `jit v,v` (R151). -/
def execJitVV (off : BitVec 16) (d : Byte) (s : State) : Result :=
  jumpImm (s.fx == zext d) off s

/-- `jit v,x` (R152). -/
def execJitVX (off : BitVec 16) (d : RegAddr) (s : State) : Result :=
  jumpImm (s.fx == s.regVal d) off (s.noteReg d)

/-- `jit x,v` (R153). -/
def execJitXV (b : RegAddr) (imm : BitVec 16) (s : State) : Result :=
  jumpReg (s.fx == zext imm) b s

/-- `jit x,x` (R154). -/
def execJitXX (b c : RegAddr) (s : State) : Result :=
  jumpReg (s.fx == s.regVal c) b (s.noteReg c)

/-- `jif v,v` (R155). -/
def execJifVV (off : BitVec 16) (d : Byte) (s : State) : Result :=
  jumpImm (s.fx != zext d) off s

/-- `jif v,x` (R156). -/
def execJifVX (off : BitVec 16) (d : RegAddr) (s : State) : Result :=
  jumpImm (s.fx != s.regVal d) off (s.noteReg d)

/-- `jif x,v` (R157): its flag operand is the register `c` (C7). -/
def execJifXV (b c : RegAddr) (s : State) : Result :=
  jumpReg (s.fx != s.regVal c) b (s.noteReg c)

/-- `jif x,x` (R158). -/
def execJifXX (b c : RegAddr) (s : State) : Result :=
  jumpReg (s.fx != s.regVal c) b (s.noteReg c)

end Sys2Proof.Machine
end

