-- ==== Sys2Proof/Machine/DataTransfer.lean ====
section
/-! DEFINITION. Data transfer instructions, opcodes 0x00 to 0x05 (40_data_transfer.md). -/

namespace Sys2Proof.Machine

/-- `RerollSsx()` (R104): `ssx` becomes a draw from the disjoint values of SSX_RANGE, or the core hangs when there is none. -/
def State.rerollSsx (s : State) : State :=
  match drawFrom s.rerollSet s.drawn with
  | some v => (s.countDraw).putReg Reg.ssx (BitVec.ofNat 32 v)
  | none => { s with wait := .hung }

/-- The destination of opcodes 01 and 02: the write, then the re-roll when it was `slx` (R102, R103). -/
def State.loadReg (b : RegAddr) (v : Word) (s : State) : State :=
  let w := s.putReg b v
  if b = Reg.slx then w.rerollSsx else w

/-- `nop` (R101). -/
def execNop (s : State) : Result := .next (s.ret .cont)

/-- `ldx x,v` (R102). -/
def execLdxXV (b : RegAddr) (imm : BitVec 16) (s : State) : Result :=
  .next ((s.loadReg b (zext imm)).ret .cont)

/-- `ldx x,x` (R103). -/
def execLdxXX (b c : RegAddr) (s : State) : Result :=
  let v := s.regVal c
  .next (((s.noteReg c).loadReg b v).ret .cont)

/-- `set v` (R106). -/
def execSetV (b : Byte) (s : State) : Result := .next ((s.putMem s.ax b).ret .cont)

/-- `set x` (R107): the low byte of the register. -/
def execSetX (b : RegAddr) (s : State) : Result :=
  let v := s.regVal b
  let s1 := s.noteReg b
  .next ((s1.putMem s1.ax (v.setWidth 8)).ret .cont)

/-- `get x` (R108): the byte zero-extended; a write to `slx` re-rolls nothing. -/
def execGetX (b : RegAddr) (s : State) : Result :=
  let v := s.memVal s.ax
  .next (((s.noteMem s.ax).putReg b (zext v)).ret .cont)

end Sys2Proof.Machine
end

