-- ==== Sys2Proof/Machine/Traps.lean ====
section
/-! DEFINITION. The trap instructions, opcodes 0x06 and 0x07, and the trap dispatcher with its services (41_traps.md). -/

namespace Sys2Proof.Machine

/-! ### Process control, trap 1 -/

/-- Exit (R124): `ec <- as_i32(x0)`, then TERMINATE. -/
def trapExit (s : State) : Result :=
  .next ({ s with ec := s.regVal Reg.x0 }.terminate .exit)

/-- Abort (R125): a report, `ec <- -1`, then TERMINATE. -/
def trapAbort (s : State) : Result :=
  .next ({ s.report .abort with ec := BitVec.allOnes 32 }.terminate .abort)

/-- A service that does nothing and continues (R126, R139, R140, R141). -/
def trapNothing (s : State) : Result := .next (s.ret .cont)

/-- `ProcessControl(sx)` (R122, R124 to R126). -/
def processControl (s : State) : Result :=
  if s.sx = 1 then trapExit s else if s.sx = 2 then trapAbort s else trapNothing s

/-! ### Console output, trap 2 -/

/-- The bytes of a string of length n at an address, in increasing address order (R132, R63). -/
def stringBytes : Nat → Word → State → List Byte
  | 0, _, _ => []
  | n + 1, addr, s => s.memVal addr :: stringBytes n (addr + 1) s

/-- The reports of reading that string, one for each byte outside memory (R132, R52). -/
def noteString : Nat → Word → State → State
  | 0, _, s => s
  | n + 1, addr, s => noteString n (addr + 1) (s.noteMem addr)

/-- An output service: it sends one console event and continues (R128 to R131, R138). -/
def consoleOut (c : ConsoleEvent) (s : State) : Result := .next ((s.console c).ret .cont)

/-- Print string (R132): `x1` bytes from address `x0`. -/
def printString (s : State) : Result :=
  let n := (s.regVal Reg.x1).toNat
  let addr := s.regVal Reg.x0
  let bytes := stringBytes n addr s
  consoleOut (.writeBytes bytes) (noteString n addr s)

/-! ### Console input, trap 2 -/

/-- Whether a draw of two values takes the second one (R133). -/
def drawSecond (k : Nat) : Bool := k % 2 == 1

/-- A character in a register: zero-extended, or, at or above 0x80, either extension by a draw (R133). -/
def charValue (ch : Byte) (k : Nat) : Word :=
  if ch.msb && drawSecond k then sext8 ch else zext ch

/-- `x0 <- w`, then CONTINUE. -/
def giveX0 (w : Word) (s : State) : Result := .next ((s.putReg Reg.x0 w).ret .cont)

/-- Each character pre-increments `spx` and is written at the new `spx`, in input order (R137). -/
def pushLine : List Byte → State → State
  | [], s => s
  | ch :: rest, s =>
    let p := s.spx + 1
    pushLine rest ((s.putReg Reg.spx p).putMem p ch)

/-- A parsed number in `x0`, or the fault of a line the conversion fails on (R134 to R136). -/
def giveParsed (w : Option Word) (s : State) : Result :=
  match w with
  | some v => giveX0 v s
  | none => .fault .consoleInputUnspecified

/-- A read service once the host has answered with the line `L` (R133 to R137). -/
def completeRead (svc : ReadService) (L : List Byte) (s : State) : Result :=
  match svc with
  | .char =>
    match L with
    | [] => .fault .consoleInputUnspecified
    | ch :: _ => giveX0 (charValue ch s.drawn) s.countDraw
  | .unsigned => giveParsed (Config.parseU32 L) s
  | .signed => giveParsed (Config.parseI32 L) s
  | .float => giveParsed (Config.parseF32 L) s
  | .stackLine =>
    .next ((pushLine L (s.putReg Reg.x0 (BitVec.ofNat 32 L.length))).ret .cont)

/-- `ReadLine()` (R127): `read_line` is sent, and the service completes with the host's line or the core is suspended until there is one. -/
def readLine (svc : ReadService) (s : State) : Result :=
  let s1 := s.console .readLine
  match s1.lines with
  | [] => .next ({ s1 with wait := .line svc }.ret .cont)
  | L :: rest => completeRead svc L { s1 with lines := rest }

/-- `Console(sx)`: all 32 bits of `sx` select the service (R122, R128 to R139). -/
def consoleService (s : State) : Result :=
  match s.sx.toNat with
  | 0x1 => consoleOut (.writeChar ((s.regVal Reg.x0).setWidth 8)) s
  | 0x2 => consoleOut (.writeU32 (s.regVal Reg.x0)) s
  | 0x3 => consoleOut (.writeI32 (s.regVal Reg.x0)) s
  | 0x4 => consoleOut (.writeF32 (s.regVal Reg.x0)) s
  | 0x5 => printString s
  | 0x6 => readLine .char s
  | 0x7 => readLine .unsigned s
  | 0x8 => readLine .signed s
  | 0x9 => readLine .float s
  | 0xA => readLine .stackLine s
  | 0xB => consoleOut .clearScreen s
  | _ => trapNothing s

/-! ### The dispatcher -/

/-- `Trap(t)` (R122): all 32 bits of the trap number select; trap 3 and every other number do nothing (R140, R141). -/
def trap (t : Word) (s : State) : Result :=
  match t.toNat with
  | 1 => processControl s
  | 2 => consoleService s
  | 3 => trapNothing s
  | _ => trapNothing s

/-- `exc v` (R120). -/
def execExcV (imm : BitVec 24) (s : State) : Result := trap (zext imm) s

/-- `exc x` (R121). -/
def execExcX (b : RegAddr) (s : State) : Result :=
  let t := s.regVal b
  trap t (s.noteReg b)

end Sys2Proof.Machine
end

