-- ==== Sys2Proof/Machine/Dispatch.lean ====
section
/-! DEFINITION. The executor: one arm per instruction (R213). -/

namespace Sys2Proof.Machine

/-- `Execute` on a decoded instruction (R213): its meaning, up to the continuation code; the sequencer does the rest (R210). -/
def exec (i : Instr) (s : State) : Host.Outcome State Fault Refusal :=
  match i with
  | .nop => Sys2Proof.Machine.execNop s
  | .ldxXV b imm => Sys2Proof.Machine.execLdxXV b imm s
  | .ldxXX b c => Sys2Proof.Machine.execLdxXX b c s
  | .setV b => Sys2Proof.Machine.execSetV b s
  | .setX b => Sys2Proof.Machine.execSetX b s
  | .getX b => Sys2Proof.Machine.execGetX b s
  | .excV imm => Sys2Proof.Machine.execExcV imm s
  | .excX b => Sys2Proof.Machine.execExcX b s
  | .jitVV off d => Sys2Proof.Machine.execJitVV off d s
  | .jitVX off d => Sys2Proof.Machine.execJitVX off d s
  | .jitXV b imm => Sys2Proof.Machine.execJitXV b imm s
  | .jitXX b c => Sys2Proof.Machine.execJitXX b c s
  | .jifVV off d => Sys2Proof.Machine.execJifVV off d s
  | .jifVX off d => Sys2Proof.Machine.execJifVX off d s
  | .jifXV b c => Sys2Proof.Machine.execJifXV b c s
  | .jifXX b c => Sys2Proof.Machine.execJifXX b c s
  | .addXV b imm => Sys2Proof.Machine.execAddXV b imm s
  | .addXX b c => Sys2Proof.Machine.execAddXX b c s
  | .subXV b imm => Sys2Proof.Machine.execSubXV b imm s
  | .subXX b c => Sys2Proof.Machine.execSubXX b c s
  | .mulXV b imm => Sys2Proof.Machine.execMulXV b imm s
  | .mulXX b c => Sys2Proof.Machine.execMulXX b c s
  | .divXV b imm => Sys2Proof.Machine.execDivXV b imm s
  | .divXX b c => Sys2Proof.Machine.execDivXX b c s
  | .andXV b imm => Sys2Proof.Machine.execAndXV b imm s
  | .andXX b c => Sys2Proof.Machine.execAndXX b c s
  | .orXV b imm => Sys2Proof.Machine.execOrXV b imm s
  | .orXX b c => Sys2Proof.Machine.execOrXX b c s
  | .xorXV b imm => Sys2Proof.Machine.execXorXV b imm s
  | .xorXX b c => Sys2Proof.Machine.execXorXX b c s
  | .shlXV b imm => Sys2Proof.Machine.execShlXV b imm s
  | .shlXX b c => Sys2Proof.Machine.execShlXX b c s
  | .shrXV b imm => Sys2Proof.Machine.execShrXV b imm s
  | .shrXX b c => Sys2Proof.Machine.execShrXX b c s
  | .notX b => Sys2Proof.Machine.execNotX b s
  | .cmpXV b imm => Sys2Proof.Machine.execCmpXV b imm s
  | .cmpXX b c => Sys2Proof.Machine.execCmpXX b c s

end Sys2Proof.Machine
end

