-- ==== Sys2Proof/Machine/HostControl.lean ====
section
/-! DEFINITION. What the host can do to the block (R8): start a process (R252 to R255), select a debug mode (R236), quit; and how a program is placed for a test. -/

namespace Sys2Proof.Machine

/-- The code copy (R255): the image bytes in increasing order, through MemWrite. -/
def copyCode : Word → Image → State → State
  | _, [], s => s
  | addr, v :: rest, s => copyCode (addr + 1) rest (s.putMem addr v)

/-- The register snapshot a process starts with: every slot 0 but `csx`, `ipx` and `clx` (R254, R41). -/
def startRegs (base len : Word) : RegFile :=
  (((Vector.replicate 25 (0 : Word)).set 16 base).set 17 base).set 18 len

/-- The code base drawn from `[0, MAX_BASE)` (R253). -/
def State.drawBase (s : State) : Word := BitVec.ofNat 32 (s.drawn % s.cfg.maxBase)

/-- The start sequence (R254) for an image that may start. -/
def State.startAt (base : Word) (img : Image) (s : State) : State :=
  let len := BitVec.ofNat 32 img.length
  let s1 := copyCode base img { s with proc := some { started := true, aborted := false } }
  { s1 with rf := startRegs base len,
            eoc := (match s1.cfg.eocMode with | .live => s1.eoc | .latched => base + len),
            mode := .running, wait := .none, code := .cont }

/-- `start(image)`: refused without any effect unless the core is Idle, a process is loaded and the image is well-formed (R252, D27). -/
def State.start (image : Option Image) (s : State) : State :=
  match image with
  | none => s
  | some img =>
    if s.mode = .idle ∧ Image.wellFormed img then s.countDraw.startAt s.drawBase img else s

/-- `set_debug(mode)`, only while Idle (R8, R236). -/
def State.setDebug (mode : DebugMode) (s : State) : State :=
  if s.mode = .idle then { s with dbg := mode } else s

/-- `quit`: the block's life ends with the last exit code (R8). -/
def State.quit (s : State) : State :=
  if s.mode = .idle then { s with ended := true }.emit (.ended s.exitCode) else s

/-- One request of the host (R8). -/
def State.request (c : HostCmd) (s : State) : State :=
  match c with
  | .start image => s.start image
  | .setDebug mode => s.setDebug mode
  | .quit => s.quit

/-- Idle: the core executes nothing; it serves the host's next request, if there is one (R215). -/
def State.idleStep (s : State) : State :=
  match s.hostCmds with
  | [] => s
  | c :: rest => { s with hostCmds := rest }.request c

/-- An instruction stored where the next step fetches it, as a program of one instruction that is already started (log 7).
A core that is not Running is set Running with the code segment ending right after the instruction. -/
def State.placeInstr (q : Quad) (s : State) : State :=
  let s1 := copyCode s.ipx q.bytes s
  match s.mode with
  | .running => { s1 with wait := .none, ended := false }
  | .idle =>
    { s1 with rf := s1.rf.write Reg.clx (s.ipx + 4 - s.csx), eoc := s.ipx + 4, mode := .running,
              proc := some { started := true, aborted := false }, wait := .none, code := .cont,
              ended := false }

end Sys2Proof.Machine
end

