-- ==== Sys2Proof/Machine/Sequencer.lean ====
section
/-! DEFINITION. The sequencer (60_exceptions.md): fetch, execute, post-increment, debug view, end-of-code test, halt, and the waits. -/

namespace Sys2Proof.Machine

/-- The four bytes at `ipx` to `ipx + 3`, addresses modulo 2^32 (R211). -/
def State.fetched (s : State) : Quad :=
  ⟨s.memVal s.ipx, s.memVal (s.ipx + 1), s.memVal (s.ipx + 2), s.memVal (s.ipx + 3)⟩

/-- The reports of the four fetch reads, in their order (R211, R63). -/
def State.noteFetch (s : State) : State :=
  (((s.noteMem s.ipx).noteMem (s.ipx + 1)).noteMem (s.ipx + 2)).noteMem (s.ipx + 3)

/-- The invalid instruction (R218): the report with the four bytes, then TERMINATE; nothing else changes. -/
def execInvalid (q : Quad) (s : State) : Result :=
  .next ((s.report (.invalidInstruction q)).terminate .invalidInstruction)

/-- `Execute(a, b, c, d)` (R213). -/
def execute (q : Quad) (s : State) : Result :=
  match decode q with
  | .ok i => exec i s
  | .error _ => execInvalid q s

/-- `ipx <- ipx + 4`, modulo 2^32, on `ipx` as the executor left it (R212). -/
def State.postIncrement (s : State) : State := s.putReg Reg.ipx (s.ipx + 4)

/-- `Bound()` (R227). -/
def State.bound (s : State) : Word :=
  match s.cfg.eocMode with
  | .live => s.csx + s.clx
  | .latched => s.eoc

/-- The end of a step after the debug view: the executor's reason, else the debug stop, else the end-of-code test (R210, R225, R226). -/
def State.conclude (stop : Bool) (s : State) : State :=
  match s.code with
  | .terminate r => s.halt r
  | .cont =>
    if stop then s.halt .debugStop
    else if s.bound.toNat ≤ s.ipx.toNat then s.halt .endOfCode
    else s

/-- The view handed to the host: the register file and the memory (R11, R237). -/
def State.view (s : State) : State := s.emit (.debugView s.rf s.mem)

/-- A stop makes `DebugView()` return true (R237). -/
def answerStops (ans : DebugAnswer) : Bool :=
  match ans with
  | .stop => true
  | .continue => false

/-- `DebugView()` and what follows it (R210, R237): in step mode the core waits for the host's answer. -/
def State.debugView (s : State) : State :=
  match s.dbg with
  | .none => s.conclude false
  | .regs => s.view.conclude false
  | .stack => s.view.conclude false
  | .both => s.view.conclude false
  | .step =>
    match s.answers with
    | [] => { s.view with wait := .debugAnswer }
    | ans :: rest => { s.view with answers := rest }.conclude (answerStops ans)

/-- What follows the executor (R210): a suspended or hung instruction is not completed, any other is followed by the post-increment, the view and the tests. -/
def State.finish (s : State) : State :=
  match s.wait with
  | .none => s.postIncrement.debugView
  | _ => s

/-- The sequencer after the executor: a fault or a refusal stops the machine. -/
def afterExec (o : Result) : Result :=
  match o with
  | .next t => .next t.finish
  | .fault r => .fault r
  | .refused r => .refused r

/-- One instruction from its fetch on (R210). -/
def runStep (s : State) : Result := afterExec (execute s.fetched s.noteFetch)

/-- A Running core that waits (R238): the read completes once there is a line, the step ends once there is an answer, a hung core stays as it is (R240). -/
def waitStep (w : Wait) (s : State) : Result :=
  match w with
  | .none => .next s
  | .line svc =>
    match s.lines with
    | [] => .next s
    | L :: rest => afterExec (completeRead svc L { s with lines := rest, wait := .none })
  | .debugAnswer =>
    match s.answers with
    | [] => .next s
    | ans :: rest => .next ({ s with answers := rest, wait := .none }.conclude (answerStops ans))
  | .hung => .next s

/-- One step of the machine: nothing after `quit`, a request of the host in Idle, else an instruction or a wait. -/
def runSequencer (s : State) : Result :=
  if s.ended then .next s else
  match s.mode with
  | .idle => .next s.idleStep
  | .running =>
    match s.wait with
    | .none => runStep s
    | w => waitStep w s

end Sys2Proof.Machine
end

