-- ==== Sys2Proof/Machine/Step.lean ====
section
/-! DEFINITION. One step of the machine, and an instruction placed where the next step fetches it. -/

namespace Sys2Proof.Machine

/-- One step (R210, R215, R238): `next`, or `fault` on the console input the spec gives no value for.
No step is refused. -/
def step (s : State) : Host.Outcome State Fault Refusal := runSequencer s

/-- `s` with the instruction that the opcode table numbers as `nbits` bits `w` stored at `ipx`, ready to run (log 7). -/
def State.withFetchWord (s : State) (nbits w : Nat) : State := s.placeInstr (tableQuad nbits w)

end Sys2Proof.Machine
end

