-- ==== Sys2Proof/Machine/Loader.lean ====
section
/-! DEFINITION. The program text format (R256): the host's loader as a pure function. The core never calls it (R5). -/

namespace Sys2Proof.Machine

/-- The value of a hex digit; every other character is discarded (R256). -/
def hexDigit (ch : Char) : Option (BitVec 4) :=
  let n := ch.toNat
  if 48 ≤ n ∧ n ≤ 57 then some (BitVec.ofNat 4 (n - 48))
  else if 65 ≤ n ∧ n ≤ 70 then some (BitVec.ofNat 4 (n - 55))
  else if 97 ≤ n ∧ n ≤ 102 then some (BitVec.ofNat 4 (n - 87))
  else none

/-- Each pair of digits is a byte, high nibble first (R256). -/
def pairDigits : List (BitVec 4) → List Byte
  | hi :: lo :: rest => (hi ++ lo) :: pairDigits rest
  | _ => []

/-- The image of a program text, empty when the byte count is no multiple of 4 (R256).
Whether an unpaired last digit makes the text invalid is a free value (N34). -/
def imageOfText (text : List Char) : Image :=
  let digits := text.filterMap hexDigit
  let bytes := pairDigits digits
  if bytes.length % 4 = 0 then
    (if digits.length % 2 = 1 then (if Config.oddHexInvalid then [] else bytes) else bytes)
  else []

end Sys2Proof.Machine
end

