-- ==== Sys2Proof/Safety.lean ====
section
/-! DEFINITION. The terms claims use: the invariant of the machine, what stays the same between two states, and the shapes of an instruction's effect. -/

namespace Sys2Proof.Machine

/-! ### The invariant -/

/-- What holds of the machine at reset and after every step. -/
structure State.Inv (s : State) : Prop where
  /-- The parameters are within the bounds of R13. -/
  params : s.cfg.wellFormed = true
  /-- The memory list is in its canonical form. -/
  memWf : s.mem.wf = true
  /-- Only cells below MEM_SIZE exist (R50). -/
  memBelow : s.mem.below s.cfg.memSize = true
  /-- STARTED is set, and ABORTED is not, exactly while Running (R35). -/
  running : s.mode = .running ↔ s.proc = some { started := true, aborted := false }
  /-- No process and no wait exists in Idle (R35, R215). -/
  idle : s.mode = .idle → s.proc = none ∧ s.wait = .none
  /-- Between steps no continuation code is pending, but for a step that waits for the host's answer (R210). -/
  code : s.wait ≠ .debugAnswer → s.code = .cont
  /-- Only step mode waits for an answer (R237). -/
  answer : s.wait = .debugAnswer → s.dbg = .step
  /-- `quit` comes in Idle (R8). -/
  ended : s.ended = true → s.mode = .idle

/-! ### What stays the same -/

/-- Every register reads the same. -/
def State.SameRegs (s t : State) : Prop := ∀ a, t.regVal a = s.regVal a

/-- Every byte of memory reads the same. -/
def State.SameMem (s t : State) : Prop := ∀ a, t.memVal a = s.memVal a

/-- Everything besides the registers, the memory, the continuation code and the output is the same. -/
structure State.SameRest (s t : State) : Prop where
  cfg : t.cfg = s.cfg
  ec : t.ec = s.ec
  mode : t.mode = s.mode
  proc : t.proc = s.proc
  dbg : t.dbg = s.dbg
  eoc : t.eoc = s.eoc
  wait : t.wait = s.wait
  ended : t.ended = s.ended
  hostCmds : t.hostCmds = s.hostCmds
  lines : t.lines = s.lines
  answers : t.answers = s.answers
  draws : t.draws = s.draws

/-- From `s` to `t` only reports were sent out, and they are the reports with the property `P`, each at least once. -/
def State.Reports (s t : State) (P : Report → Prop) : Prop :=
  ∃ rs : List Report, t.out = rs.map Event.report ++ s.out ∧ ∀ r, r ∈ rs ↔ P r

/-- The BAD_REGISTER reports of the addresses in a list that select no register (R16). -/
def badRegs (used : List RegAddr) (r : Report) : Prop :=
  ∃ a ∈ used, validReg a = false ∧ r = .badRegister a

/-- The BAD_INDEX report of an access outside memory (R52). -/
def badAddr (s : State) (addr : Word) (r : Report) : Prop :=
  s.inMemory addr = false ∧ r = .badIndex addr

/-! ### Shapes of effects -/

/-- The comparison of R170 on two unsigned numbers. -/
def flagOf (l r : Nat) : Word := if l < r then 1 else if l = r then 2 else 4

/-- The executor completes with CONTINUE, leaves registers, memory and all else as they are, and reports exactly the bad addresses among `used`. -/
def DoesNothing (o : Result) (s : State) (used : List RegAddr) : Prop :=
  ∃ t, o = .next t ∧ s.SameRegs t ∧ s.SameMem t ∧ s.SameRest t ∧ t.code = .cont ∧
    s.Reports t (badRegs used)

/-- The executor completes with CONTINUE and writes `v` to the register `b`, or to nothing when `b` is the sink (R16).
Every other register, every byte of memory and all else stay; the reports are those of the bad addresses among `used`. -/
def WritesReg (o : Result) (s : State) (b : RegAddr) (v : Word) (used : List RegAddr) : Prop :=
  ∃ t, o = .next t ∧
    (∀ a, t.regVal a = if a = b ∧ validReg b = true then v else s.regVal a) ∧
    s.SameMem t ∧ s.SameRest t ∧ t.code = .cont ∧ s.Reports t (badRegs used)

/-- The executor completes with CONTINUE, writes `f` to `fx` and then `v` to the register `b` (R174, R175).
All else stays; the reports are those of the bad addresses among `used`. -/
def WritesFlagThenReg (o : Result) (s : State) (f : Word) (b : RegAddr) (v : Word)
    (used : List RegAddr) : Prop :=
  ∃ t, o = .next t ∧
    (∀ a, t.regVal a = if a = b ∧ validReg b = true then v else if a = Reg.fx then f else s.regVal a) ∧
    s.SameMem t ∧ s.SameRest t ∧ t.code = .cont ∧ s.Reports t (badRegs used)

/-- The executor completes with CONTINUE and stores the byte `v` at the address `addr`, or nowhere when the address is outside memory (R52).
Every other byte, every register and all else stay; the reports are the ones named. -/
def StoresByte (o : Result) (s : State) (addr : Word) (v : Byte) (used : List RegAddr) : Prop :=
  ∃ t, o = .next t ∧
    (∀ a, t.memVal a = if a = addr ∧ s.inMemory addr = true then v else s.memVal a) ∧
    s.SameRegs t ∧ s.SameRest t ∧ t.code = .cont ∧
    s.Reports t (fun r => badRegs used r ∨ badAddr s addr r)

/-- The executor ends with TERMINATE and the given reason; registers, memory, `ec` and all else stay, and besides the reports of the bad addresses among `used` exactly the report `r` is sent. -/
def TerminatesWith (o : Result) (s : State) (reason : HaltReason) (r : Report)
    (used : List RegAddr) : Prop :=
  ∃ t, o = .next t ∧ s.SameRegs t ∧ s.SameMem t ∧ s.SameRest t ∧ t.code = .terminate reason ∧
    s.Reports t (fun r' => r' = r ∨ badRegs used r')

/-- The instruction is a trap with the number `t`: `exc v` with that immediate, or `exc x` on a register that holds it (R120, R121). -/
def TrapsWith (i : Instr) (s : State) (t : Word) : Prop :=
  (∃ imm, i = .excV imm ∧ imm.setWidth 32 = t) ∨
  (∃ b, i = .excX b ∧ validReg b = true ∧ s.regVal b = t)

/-- The values a completed re-roll may give `ssx`: in SSX_RANGE, a 32-bit value, and disjoint from the code interval for the length `l` (R104, R105). -/
def State.RerollSolution (s : State) (l : Word) (v : Nat) : Prop :=
  inRange s.cfg.ssxRange v = true ∧ v < 2 ^ 32 ∧
  (l.toNat = 0 ∨ s.clx.toNat = 0 ∨ v + l.toNat ≤ s.csx.toNat ∨ s.csx.toNat + s.clx.toNat ≤ v)

/-- The four conditions under which no stack of length `l` is disjoint from the code segment: both are not empty, the code ends at or past 2^32, and the stack is longer than the room below `csx`. -/
def State.NoStackRoom (s : State) (l : Word) : Prop :=
  0 < l.toNat ∧ 0 < s.clx.toNat ∧ 2 ^ 32 ≤ s.csx.toNat + s.clx.toNat ∧ s.csx.toNat < l.toNat

/-- The executor completes with CONTINUE, `slx` holds `v` and `ssx` holds a solution of the re-roll; one draw is used up, all else stays (R102, R104). -/
def RerollsSsx (o : Result) (s : State) (v : Word) (used : List RegAddr) : Prop :=
  ∃ t x, o = .next t ∧ s.RerollSolution v x ∧
    (∀ a, t.regVal a =
      if a = Reg.slx then v else if a = Reg.ssx then BitVec.ofNat 32 x else s.regVal a) ∧
    s.SameMem t ∧ { s with draws := s.draws + 1 }.SameRest t ∧ t.code = .cont ∧
    s.Reports t (badRegs used)

/-- The core hangs in the instruction: `slx` holds `v` and all else stays (R104, R240). -/
def HangsInReroll (o : Result) (s : State) (v : Word) (used : List RegAddr) : Prop :=
  ∃ t, o = .next t ∧ (∀ a, t.regVal a = if a = Reg.slx then v else s.regVal a) ∧
    s.SameMem t ∧ { s with wait := .hung }.SameRest t ∧ s.Reports t (badRegs used)

/-- The executor completes with CONTINUE and sends exactly one console event; registers, memory and all else stay (R128 to R131, R138). -/
def SendsConsole (o : Result) (s : State) (c : ConsoleEvent) : Prop :=
  ∃ t, o = .next t ∧ t.out = .console c :: s.out ∧ s.SameRegs t ∧ s.SameMem t ∧ s.SameRest t ∧
    t.code = .cont

/-- The value of `sx` that selects a read service (R133 to R137). -/
def serviceNumber : ReadService → Word
  | .char => 6
  | .unsigned => 7
  | .signed => 8
  | .float => 9
  | .stackLine => 0xA

/-- The read service completes on the first waiting line with CONTINUE and writes `w` to `x0`.
The line is used up, `draws` draws are used up, `read_line` is sent, all else stays (R133 to R136). -/
def ReadsIntoX0 (o : Result) (s : State) (rest : List (List Byte)) (draws : Nat) (w : Word) : Prop :=
  ∃ t, o = .next t ∧ (∀ a, t.regVal a = if a = Reg.x0 then w else s.regVal a) ∧ s.SameMem t ∧
    { s with lines := rest, draws := s.draws + draws }.SameRest t ∧ t.code = .cont ∧
    t.out = .console .readLine :: s.out

/-- A numeric read service: the converted word in `x0`, or the named fault where the host's conversion fails (R134 to R136). -/
def ReadsParsed (o : Result) (s : State) (rest : List (List Byte)) (parsed : Option Word) : Prop :=
  match parsed with
  | some w => ReadsIntoX0 o s rest 0 w
  | none => o = .fault .consoleInputUnspecified

/-- The bytes of a list stored one by one from an address on, in order, addresses modulo 2^32 and bytes outside memory discarded.
Where the addresses wrap onto one another the last store stands; every other byte stays (R59, R137, R255). -/
def StoredFrom (s t : State) (addr : Word) (bytes : List Byte) : Prop :=
  (∀ (j : Nat) (v : Byte), bytes[j]? = some v →
    (∀ k, j < k → k < bytes.length → addr + BitVec.ofNat 32 k ≠ addr + BitVec.ofNat 32 j) →
    t.memVal (addr + BitVec.ofNat 32 j) =
      if s.inMemory (addr + BitVec.ofNat 32 j) = true then v else 0) ∧
  (∀ a, (∀ j, j < bytes.length → a ≠ addr + BitVec.ofNat 32 j) → t.memVal a = s.memVal a)

/-- The executor completes with CONTINUE; taken, `ipx` becomes `csx + target`, not taken it stays (R150).
Every other register, every byte of memory and all else stay; the reports are those of the bad addresses among `used`. -/
def Jumps (o : Result) (s : State) (taken : Prop) (target : Word) (used : List RegAddr) : Prop :=
  ∃ t, o = .next t ∧
    (taken → t.regVal Reg.ipx = s.csx + target) ∧ (¬ taken → t.regVal Reg.ipx = s.ipx) ∧
    (∀ a, a ≠ Reg.ipx → t.regVal a = s.regVal a) ∧
    s.SameMem t ∧ s.SameRest t ∧ t.code = .cont ∧ s.Reports t (badRegs used)

/-- A Running core whose next step runs an instruction: it has not quit and waits for nothing. -/
structure State.Ready (s : State) : Prop where
  mode : s.mode = .running
  ended : s.ended = false
  wait : s.wait = .none

/-- The process has ended for this reason: Idle, no process, `halted(reason, ec)` the last thing sent (R228). -/
structure State.Halted (u : State) (reason : HaltReason) : Prop where
  mode : u.mode = .idle
  proc : u.proc = none
  wait : u.wait = .none
  code : u.code = .cont
  sent : u.out.head? = some (.halted reason u.exitCode)

/-- What an executor can send: reports and console events, and neither a view nor `halted`. -/
def Event.ofExecutor : Event → Bool
  | .report _ => true
  | .console _ => true
  | .debugView _ _ => false
  | .halted _ _ => false
  | .ended _ => false

/-- What a completed step has sent after the executor's output `before`: in a debug mode one view of the registers and memory it ends with, and after it `halted` if the process has ended (R237, R228). -/
def State.SentAfter (u : State) (before : List Event) : Prop :=
  let sent := if u.dbg = .none then before else .debugView u.rf u.mem :: before
  (u.mode = .running ∧ u.out = sent) ∨ ∃ r, u.Halted r ∧ u.out = .halted r u.exitCode :: sent

/-- The registers an instruction may write: its destination, and what its rule writes besides (`ssx` for a load of `slx`, `x0` and `spx` for the console services, `ipx` for a jump, `fx` for `sub` and `cmp`). -/
def mayWrite : Instr → List RegAddr
  | .nop => []
  | .ldxXV b _ => if b = Reg.slx then [b, Reg.ssx] else [b]
  | .ldxXX b _ => if b = Reg.slx then [b, Reg.ssx] else [b]
  | .setV _ => []
  | .setX _ => []
  | .getX b => [b]
  | .excV _ => [Reg.x0, Reg.spx]
  | .excX _ => [Reg.x0, Reg.spx]
  | .jitVV _ _ => [Reg.ipx]
  | .jitVX _ _ => [Reg.ipx]
  | .jitXV _ _ => [Reg.ipx]
  | .jitXX _ _ => [Reg.ipx]
  | .jifVV _ _ => [Reg.ipx]
  | .jifVX _ _ => [Reg.ipx]
  | .jifXV _ _ => [Reg.ipx]
  | .jifXX _ _ => [Reg.ipx]
  | .addXV b _ => [b]
  | .addXX b _ => [b]
  | .subXV b _ => [b, Reg.fx]
  | .subXX b _ => [b, Reg.fx]
  | .mulXV b _ => [b]
  | .mulXX b _ => [b]
  | .divXV b _ => [b]
  | .divXX b _ => [b]
  | .andXV b _ => [b]
  | .andXX b _ => [b]
  | .orXV b _ => [b]
  | .orXX b _ => [b]
  | .xorXV b _ => [b]
  | .xorXX b _ => [b]
  | .shlXV b _ => [b]
  | .shlXX b _ => [b]
  | .shrXV b _ => [b]
  | .shrXX b _ => [b]
  | .notX b => [b]
  | .cmpXV _ _ => [Reg.fx]
  | .cmpXX _ _ => [Reg.fx]

end Sys2Proof.Machine
end

