-- ==== Sys2Proof/Certificates/Slice0/Obligations.lean ====
section
/-! DEFINITION. The statements for the provers. Each docstring says which rule it formalises; where a statement rests on a decision or an inference of the spec, or on a choice of the model, the docstring says so. -/

open Sys2Proof Sys2Proof.Machine

/-! ### Encoding (30_encoding.md) -/

/-- Decoding an encoded instruction gives it back, for all 37 instructions and every operand. -/
def Obligations.DecodeInvertsEncode : Prop :=
  ∀ i : Instr, i.wellFormed = true → decode (encode i) = .ok i

/-- Encoding a decoded instruction gives the bytes back, with the bytes its row ignores set to 0 (R86, R87). -/
def Obligations.EncodeInvertsDecodeUpToIgnoredBytes : Prop :=
  ∀ (q : Quad) (i : Instr), decode q = .ok i → encode i = q.dropIgnored

/-- Every word decodes to the one instruction of its opcode byte, or to the invalid instruction, by the opcode byte alone (R88, which the spec derives from R85 and R86). -/
def Obligations.DecodeLooksAtOpcodeAlone : Prop :=
  ∀ w : Word,
    (opcodeDefined (w.extractLsb' 24 8) = true ∧
      ∃ i, decode (Quad.ofWord w) = .ok i ∧ i.opcode = w.extractLsb' 24 8) ∨
    (opcodeDefined (w.extractLsb' 24 8) = false ∧
      decode (Quad.ofWord w) = .error (.invalidInstruction (Quad.ofWord w)))

/-- The opcode map, row by row, with the fields each row reads and for all values of the bytes it ignores; 0x25 to 0xFF are invalid (R85, R86, R87; the opcodes 0x18 to 0x21 one by one are the spec's decision D22). -/
def Obligations.OpcodeMapRows : Prop :=
  ∀ b c d : Byte,
    decode ⟨0x00, b, c, d⟩ = .ok .nop ∧
    decode ⟨0x01, b, c, d⟩ = .ok (.ldxXV b (c ++ d)) ∧
    decode ⟨0x02, b, c, d⟩ = .ok (.ldxXX b c) ∧
    decode ⟨0x03, b, c, d⟩ = .ok (.setV b) ∧
    decode ⟨0x04, b, c, d⟩ = .ok (.setX b) ∧
    decode ⟨0x05, b, c, d⟩ = .ok (.getX b) ∧
    decode ⟨0x06, b, c, d⟩ = .ok (.excV (b ++ c ++ d)) ∧
    decode ⟨0x07, b, c, d⟩ = .ok (.excX b) ∧
    decode ⟨0x08, b, c, d⟩ = .ok (.jitVV (b ++ c) d) ∧
    decode ⟨0x09, b, c, d⟩ = .ok (.jitVX (b ++ c) d) ∧
    decode ⟨0x0A, b, c, d⟩ = .ok (.jitXV b (c ++ d)) ∧
    decode ⟨0x0B, b, c, d⟩ = .ok (.jitXX b c) ∧
    decode ⟨0x0C, b, c, d⟩ = .ok (.jifVV (b ++ c) d) ∧
    decode ⟨0x0D, b, c, d⟩ = .ok (.jifVX (b ++ c) d) ∧
    decode ⟨0x0E, b, c, d⟩ = .ok (.jifXV b c) ∧
    decode ⟨0x0F, b, c, d⟩ = .ok (.jifXX b c) ∧
    decode ⟨0x10, b, c, d⟩ = .ok (.addXV b (c ++ d)) ∧
    decode ⟨0x11, b, c, d⟩ = .ok (.addXX b c) ∧
    decode ⟨0x12, b, c, d⟩ = .ok (.subXV b (c ++ d)) ∧ flagRegOf (c ++ d) = c ∧
    decode ⟨0x13, b, c, d⟩ = .ok (.subXX b c) ∧
    decode ⟨0x14, b, c, d⟩ = .ok (.mulXV b (c ++ d)) ∧
    decode ⟨0x15, b, c, d⟩ = .ok (.mulXX b c) ∧
    decode ⟨0x16, b, c, d⟩ = .ok (.divXV b (c ++ d)) ∧
    decode ⟨0x17, b, c, d⟩ = .ok (.divXX b c) ∧
    decode ⟨0x18, b, c, d⟩ = .ok (.andXV b (c ++ d)) ∧
    decode ⟨0x19, b, c, d⟩ = .ok (.andXX b c) ∧
    decode ⟨0x1A, b, c, d⟩ = .ok (.orXV b (c ++ d)) ∧
    decode ⟨0x1B, b, c, d⟩ = .ok (.orXX b c) ∧
    decode ⟨0x1C, b, c, d⟩ = .ok (.xorXV b (c ++ d)) ∧
    decode ⟨0x1D, b, c, d⟩ = .ok (.xorXX b c) ∧
    decode ⟨0x1E, b, c, d⟩ = .ok (.shlXV b (c ++ d)) ∧
    decode ⟨0x1F, b, c, d⟩ = .ok (.shlXX b c) ∧
    decode ⟨0x20, b, c, d⟩ = .ok (.shrXV b (c ++ d)) ∧
    decode ⟨0x21, b, c, d⟩ = .ok (.shrXX b c) ∧
    decode ⟨0x22, b, c, d⟩ = .ok (.notX b) ∧
    decode ⟨0x23, b, c, d⟩ = .ok (.cmpXV b (c ++ d)) ∧
    decode ⟨0x24, b, c, d⟩ = .ok (.cmpXX b c) ∧
    ∀ a : Byte, 0x25 ≤ a.toNat → decode ⟨a, b, c, d⟩ = .error (.invalidInstruction ⟨a, b, c, d⟩)

/-- Words written out from the encodings of R85 decode to the instructions they stand for (examples of 40 to 43); that 0x1C is `xor x,v` is the spec's decision D22. -/
def Obligations.WrittenOutWordsDecode : Prop :=
  decodeTableWord 32 0x01031234 = some (.ldxXV 0x03 0x1234) ∧
  decodeTableWord 32 0x06000001 = some (.excV 1) ∧
  decodeTableWord 32 0x09002003 = some (.jitVX 0x0020 0x03) ∧
  decodeTableWord 32 0x0E010207 = some (.jifXV 0x01 0x02) ∧
  decodeTableWord 32 0x12010001 = some (.subXV 0x01 0x0001) ∧
  decodeTableWord 32 0x1C00FFFF = some (.xorXV 0x00 0xFFFF) ∧
  decodeTableWord 32 0xFFAABBCC = none

/-! ### Register and memory access (00_scope.md) -/

/-- R16: a register address below 25 selects a slot, every other address is the sink, and both accesses of the sink report BAD_REGISTER. -/
def Obligations.RegisterAccessAndSink : Prop :=
  ∀ (s : State) (a : RegAddr) (v : Word),
    (a.toNat < 25 → s.rf[a.toNat]? = some (s.regVal a) ∧ s.noteReg a = s ∧
      (s.putReg a v).regVal a = v ∧ (∀ b, b ≠ a → (s.putReg a v).regVal b = s.regVal b) ∧
      s.SameMem (s.putReg a v) ∧ s.SameRest (s.putReg a v) ∧ (s.putReg a v).out = s.out) ∧
    (25 ≤ a.toNat → s.regVal a = 0 ∧ s.noteReg a = s.report (.badRegister a) ∧
      s.putReg a v = s.report (.badRegister a))

/-- R17: an address below MEM_SIZE has a cell, every other address reads 0 and discards a write, and both accesses of it report BAD_INDEX. -/
def Obligations.MemoryAccessAndSink : Prop :=
  ∀ (s : State) (a : Word) (v : Byte),
    (a.toNat < s.cfg.memSize → s.memVal a = s.mem.read a.toNat ∧ s.noteMem a = s ∧
      (s.putMem a v).memVal a = v ∧ (∀ b, b ≠ a → (s.putMem a v).memVal b = s.memVal b) ∧
      s.SameRegs (s.putMem a v) ∧ s.SameRest (s.putMem a v) ∧ (s.putMem a v).out = s.out) ∧
    (s.cfg.memSize ≤ a.toNat → s.memVal a = 0 ∧ s.noteMem a = s.report (.badIndex a) ∧
      s.putMem a v = s.report (.badIndex a))

/-! ### Data transfer (40_data_transfer.md) -/

/-- R101: `nop` completes and changes nothing, whatever its operand bytes are. -/
def Obligations.NopEffect : Prop :=
  ∀ s : State, DoesNothing (exec .nop s) s [] ∧
    ∀ b c d : Byte, DoesNothing (execute ⟨0x00, b, c, d⟩ s) s []

/-- `ldx x,v` writes the zero-extended immediate, to nothing at the sink (R102); into `slx` it also re-rolls `ssx` to a value disjoint from the code interval whenever there is one (the spec's decision D8). -/
def Obligations.LdxImmediateEffect : Prop :=
  ∀ (s : State) (b : RegAddr) (imm : BitVec 16),
    (b ≠ Reg.slx → WritesReg (exec (.ldxXV b imm) s) s b (BitVec.ofNat 32 imm.toNat) [b]) ∧
    (b = Reg.slx → (∃ x, s.RerollSolution (BitVec.ofNat 32 imm.toNat) x) →
      RerollsSsx (exec (.ldxXV b imm) s) s (BitVec.ofNat 32 imm.toNat) [b])

/-- `ldx x,x` copies a register, 0 from the sink and to nothing at the sink (R103); into `slx` it also re-rolls `ssx` to a value disjoint from the code interval whenever there is one (the spec's decision D8). -/
def Obligations.LdxRegisterEffect : Prop :=
  ∀ (s : State) (b c : RegAddr),
    (b ≠ Reg.slx → WritesReg (exec (.ldxXX b c) s) s b (s.regVal c) [c, b]) ∧
    (b = Reg.slx → (∃ x, s.RerollSolution (s.regVal c) x) →
      RerollsSsx (exec (.ldxXX b c) s) s (s.regVal c) [c, b])

/-- The spec's decision D8 (40_data_transfer.md, the pseudocode of RerollSsx): a re-roll with no solution hangs the core inside the instruction, and no later step changes anything.
That a hung core's step is a next state is the model's choice (log 8). -/
def Obligations.RerollWithoutSolutionHangs : Prop :=
  (∀ (s : State) (imm : BitVec 16), (¬ ∃ x, s.RerollSolution (BitVec.ofNat 32 imm.toNat) x) →
    HangsInReroll (exec (.ldxXV Reg.slx imm) s) s (BitVec.ofNat 32 imm.toNat) []) ∧
  (∀ (s : State) (c : RegAddr), (¬ ∃ x, s.RerollSolution (s.regVal c) x) →
    HangsInReroll (exec (.ldxXX Reg.slx c) s) s (s.regVal c) [c]) ∧
  (∀ s : State, s.mode = .running → s.ended = false → s.wait = .hung → step s = .next s)

/-- With the default SSX_RANGE, `ldx x,v` and `ldx x,x` into `slx` hang in the re-roll exactly when the loaded `slx > 0`, `clx > 0`, `csx + clx ≥ 2^32` as integers and `slx > csx`; exactly then the re-roll has no solution.
This is the spec's own inference in 40_data_transfer.md, from its decision D8; that a hung core's step is a next state is the model's choice (log 8). -/
def Obligations.DefaultRangeRerollHangCondition : Prop :=
  ∀ s : State, s.cfg.ssxRange = Config.fullRange →
    (∀ imm : BitVec 16,
      HangsInReroll (exec (.ldxXV Reg.slx imm) s) s (BitVec.ofNat 32 imm.toNat) [] ↔
        s.NoStackRoom (BitVec.ofNat 32 imm.toNat)) ∧
    (∀ c : RegAddr,
      HangsInReroll (exec (.ldxXX Reg.slx c) s) s (s.regVal c) [c] ↔ s.NoStackRoom (s.regVal c)) ∧
    (∀ l : Word, (¬ ∃ x, s.RerollSolution l x) ↔ s.NoStackRoom l)

/-- The re-roll is free: what the drawn index can select is exactly the set of solutions (the spec's decision D8; the index is the model's own, log 4 and log 5). -/
def Obligations.RerollReachesEverySolution : Prop :=
  ∀ (s : State) (v : Nat), (∃ k, drawFrom s.rerollSet k = some v) ↔ s.RerollSolution s.slx v

/-- R106, R107: `set v` stores its byte at `ax`, `set x` the low byte of its register, 0 for the sink. -/
def Obligations.SetEffect : Prop :=
  ∀ (s : State) (v : Byte) (b : RegAddr),
    StoresByte (exec (.setV v) s) s s.ax v [] ∧
    StoresByte (exec (.setX b) s) s s.ax (BitVec.ofNat 8 ((s.regVal b).toNat % 256)) [b]

/-- R108: `get x` loads the byte at `ax` zero-extended, 0 from outside memory and to nothing at the sink; a load into `slx` re-rolls nothing. -/
def Obligations.GetEffect : Prop :=
  ∀ (s : State) (b : RegAddr), ∃ t, exec (.getX b) s = .next t ∧
    (∀ a, t.regVal a =
      if a = b ∧ validReg b = true then BitVec.ofNat 32 (s.memVal s.ax).toNat else s.regVal a) ∧
    s.SameMem t ∧ s.SameRest t ∧ t.code = .cont ∧
    s.Reports t (fun r => badAddr s s.ax r ∨ badRegs [b] r)

/-! ### Traps (41_traps.md) -/

/-- R124, R125: the services of trap 1, reached by `exc v` or `exc x`.
Exit sets `ec` to `x0` read as signed and terminates with EXIT; abort reports ABORT, sets `ec` to -1 and terminates with ABORT; nothing else changes. -/
def Obligations.ExitAndAbortServices : Prop :=
  ∀ (s : State) (i : Instr), TrapsWith i s 1 →
    (s.sx = 1 → ∃ t, exec i s = .next t ∧ t.exitCode = (s.regVal Reg.x0).toInt ∧
      t.code = .terminate .exit ∧ s.SameRegs t ∧ s.SameMem t ∧ { s with ec := t.ec }.SameRest t ∧
      t.out = s.out) ∧
    (s.sx = 2 → ∃ t, exec i s = .next t ∧ t.exitCode = -1 ∧ t.code = .terminate .abort ∧
      s.SameRegs t ∧ s.SameMem t ∧ { s with ec := t.ec }.SameRest t ∧ t.out = .report .abort :: s.out)

/-- R140: trap 3, reached by `exc v` or `exc x`, does nothing and continues for every `sx`. -/
def Obligations.FileTrapDoesNothing : Prop :=
  ∀ (s : State) (i : Instr), TrapsWith i s 3 → DoesNothing (exec i s) s []

/-- The spec's decision D6: a trap number or an `sx` without a service does nothing and continues; so does `exc x` on the sink, which is trap 0. -/
def Obligations.TrapWithoutServiceDoesNothing : Prop :=
  (∀ (s : State) (i : Instr), TrapsWith i s 1 → s.sx ≠ 1 → s.sx ≠ 2 → DoesNothing (exec i s) s []) ∧
  (∀ (s : State) (i : Instr), TrapsWith i s 2 → (s.sx.toNat = 0 ∨ 0xC ≤ s.sx.toNat) →
    DoesNothing (exec i s) s []) ∧
  (∀ (s : State) (i : Instr) (n : Word), TrapsWith i s n → (n.toNat = 0 ∨ 4 ≤ n.toNat) →
    DoesNothing (exec i s) s []) ∧
  (∀ (s : State) (b : RegAddr), validReg b = false → DoesNothing (exec (.excX b) s) s [b])

/-- R129, R130, R138: the services `sx` = 2, 3 and 0xB send one console event and change nothing. -/
def Obligations.ConsoleWordOutputEffect : Prop :=
  ∀ (s : State) (i : Instr), TrapsWith i s 2 →
    (s.sx = 2 → SendsConsole (exec i s) s (.writeU32 (s.regVal Reg.x0))) ∧
    (s.sx = 3 → SendsConsole (exec i s) s (.writeI32 (s.regVal Reg.x0))) ∧
    (s.sx = 0xB → SendsConsole (exec i s) s .clearScreen)

/-- The services `sx` = 1 and 4: the low byte of `x0` as a character (the spec's decision D14), and all bits of `x0` as a float pattern. -/
def Obligations.ConsoleCharAndFloatOutputEffect : Prop :=
  ∀ (s : State) (i : Instr), TrapsWith i s 2 →
    (s.sx = 1 → SendsConsole (exec i s) s (.writeChar (BitVec.ofNat 8 ((s.regVal Reg.x0).toNat % 256)))) ∧
    (s.sx = 4 → SendsConsole (exec i s) s (.writeF32 (s.regVal Reg.x0)))

/-- The service `sx` = 5 sends exactly the `x1` bytes from address `x0` on, 0 for each byte outside memory, each of which is reported (the spec's decision D14). -/
def Obligations.PrintStringEffect : Prop :=
  ∀ (s : State) (i : Instr), TrapsWith i s 2 → s.sx = 5 →
    ∃ t bytes, ∃ rs : List Report, exec i s = .next t ∧
      bytes.length = (s.regVal Reg.x1).toNat ∧
      (∀ j, j < (s.regVal Reg.x1).toNat →
        bytes[j]? = some (s.memVal (s.regVal Reg.x0 + BitVec.ofNat 32 j))) ∧
      t.out = .console (.writeBytes bytes) :: (rs.map Event.report ++ s.out) ∧
      (∀ r, r ∈ rs ↔ ∃ j, j < (s.regVal Reg.x1).toNat ∧
        badAddr s (s.regVal Reg.x0 + BitVec.ofNat 32 j) r) ∧
      s.SameRegs t ∧ s.SameMem t ∧ s.SameRest t ∧ t.code = .cont

/-- A read service without a waiting line sends `read_line` and suspends the core; while no line comes, no step changes anything (the spec's decision D13; the queue of lines and the waiting step are the model's own, log 6 and log 8). -/
def Obligations.ReadServiceWaitsForLine : Prop :=
  (∀ (s : State) (i : Instr) (svc : ReadService), TrapsWith i s 2 → s.sx = serviceNumber svc →
    s.lines = [] →
    ∃ t, exec i s = .next t ∧ s.SameRegs t ∧ s.SameMem t ∧
      { s with wait := .line svc }.SameRest t ∧ t.out = .console .readLine :: s.out) ∧
  (∀ (s : State) (svc : ReadService), s.mode = .running → s.ended = false → s.wait = .line svc →
    s.lines = [] → step s = .next s)

/-- The service `sx` = 6: on a line with a first character `x0` gets it zero-extended, or at or above 0x80 possibly sign-extended; an empty line ends in the fault CONSOLE_INPUT_UNSPECIFIED (the spec's decision D13; the free value is the model's own, log 24). -/
def Obligations.ReadCharEffect : Prop :=
  ∀ (s : State) (i : Instr) (rest : List (List Byte)), TrapsWith i s 2 → s.sx = 6 →
    (∀ (ch : Byte) (L : List Byte), s.lines = (ch :: L) :: rest →
      ∃ w : Word, ReadsIntoX0 (exec i s) s rest 1 w ∧
        (w = BitVec.ofNat 32 ch.toNat ∨
          (0x80 ≤ ch.toNat ∧ w = BitVec.ofNat 32 (0xFFFFFF00 + ch.toNat)))) ∧
    (s.lines = [] :: rest → exec i s = .fault .consoleInputUnspecified)

/-- The services `sx` = 7, 8 and 9 on a line: `x0` gets the word the host's conversion gives, and a line it fails on ends in the fault CONSOLE_INPUT_UNSPECIFIED (the spec's decision D13; the conversions are free values, log 23). -/
def Obligations.ReadNumberEffect : Prop :=
  ∀ (s : State) (i : Instr) (L : List Byte) (rest : List (List Byte)),
    TrapsWith i s 2 → s.lines = L :: rest →
    (s.sx = 7 → ReadsParsed (exec i s) s rest (Config.parseU32 L)) ∧
    (s.sx = 8 → ReadsParsed (exec i s) s rest (Config.parseI32 L)) ∧
    (s.sx = 9 → ReadsParsed (exec i s) s rest (Config.parseF32 L))

/-- The service `sx` = 0xA sets `x0` to the line's length, pushes its characters at the pre-incremented `spx` in order, and leaves `spx` at the last one (R137; what a line is, is the spec's decision D13, the queue of lines the model's own, log 6). -/
def Obligations.ReadLineOntoStackEffect : Prop :=
  ∀ (s : State) (i : Instr) (L : List Byte) (rest : List (List Byte)),
    TrapsWith i s 2 → s.sx = 0xA → s.lines = L :: rest →
    ∃ t, ∃ rs : List Report, exec i s = .next t ∧
      (∀ a, t.regVal a =
        if a = Reg.x0 then BitVec.ofNat 32 L.length
        else if a = Reg.spx then s.spx + BitVec.ofNat 32 L.length else s.regVal a) ∧
      StoredFrom s t (s.spx + 1) L ∧ { s with lines := rest }.SameRest t ∧ t.code = .cont ∧
      t.out = rs.map Event.report ++ .console .readLine :: s.out ∧
      (∀ r, r ∈ rs ↔ ∃ j, j < L.length ∧ badAddr s (s.spx + 1 + BitVec.ofNat 32 j) r)

/-- Waiting for a line changes nothing but the time: a core that was suspended and then gets its line takes the same step as one whose line was there at once (R127, R238; the queue is the model's own, log 6). -/
def Obligations.SuspendedReadCompletesAlike : Prop :=
  ∀ (s t : State) (svc : ReadService) (L : List Byte) (rest : List (List Byte)),
    s.Ready → s.lines = [] → step s = .next t → t.wait = .line svc →
    step { t with lines := L :: rest } = step { s with lines := L :: rest }

/-! ### Control transfer (42_control_transfer.md) -/

/-- The four `jit` forms branch to `csx` plus their target when `fx` equals their flag operand (R151 to R154); a target register is read only then (the spec's decision D24). -/
def Obligations.JitEffect : Prop :=
  ∀ (s : State) (b c d : RegAddr) (off imm : BitVec 16),
    Jumps (exec (.jitVV off d) s) s (s.fx.toNat = d.toNat) (BitVec.ofNat 32 off.toNat) [] ∧
    Jumps (exec (.jitVX off d) s) s (s.fx = s.regVal d) (BitVec.ofNat 32 off.toNat) [d] ∧
    Jumps (exec (.jitXV b imm) s) s (s.fx.toNat = imm.toNat) (s.regVal b)
      (if s.fx.toNat = imm.toNat then [b] else []) ∧
    Jumps (exec (.jitXX b c) s) s (s.fx = s.regVal c) (s.regVal b)
      (if s.fx = s.regVal c then [c, b] else [c])

/-- The four `jif` forms branch when `fx` differs from their flag operand; 0x0E and 0x0F are alike, both with a register flag (R155 to R158); a target register is read only when the jump is taken (the spec's decision D24). -/
def Obligations.JifEffect : Prop :=
  ∀ (s : State) (b c d : RegAddr) (off : BitVec 16),
    Jumps (exec (.jifVV off d) s) s (s.fx.toNat ≠ d.toNat) (BitVec.ofNat 32 off.toNat) [] ∧
    Jumps (exec (.jifVX off d) s) s (s.fx ≠ s.regVal d) (BitVec.ofNat 32 off.toNat) [d] ∧
    Jumps (exec (.jifXV b c) s) s (s.fx ≠ s.regVal c) (s.regVal b)
      (if s.fx ≠ s.regVal c then [c, b] else [c]) ∧
    Jumps (exec (.jifXX b c) s) s (s.fx ≠ s.regVal c) (s.regVal b)
      (if s.fx ≠ s.regVal c then [c, b] else [c])

/-! ### Arithmetic, logic, shift and compare (43_alu.md) -/

/-- R172, R173: `add` writes the sum modulo 2^32. -/
def Obligations.AddEffect : Prop :=
  ∀ (s : State) (b c : RegAddr) (imm : BitVec 16),
    WritesReg (exec (.addXV b imm) s) s b (BitVec.ofNat 32 ((s.regVal b).toNat + imm.toNat)) [b] ∧
    WritesReg (exec (.addXX b c) s) s b
      (BitVec.ofNat 32 ((s.regVal b).toNat + (s.regVal c).toNat)) [c, b]

/-- `mul` writes the product modulo 2^32 (that `mul` wraps is the spec's decision D3). -/
def Obligations.MulEffect : Prop :=
  ∀ (s : State) (b c : RegAddr) (imm : BitVec 16),
    WritesReg (exec (.mulXV b imm) s) s b (BitVec.ofNat 32 ((s.regVal b).toNat * imm.toNat)) [b] ∧
    WritesReg (exec (.mulXX b c) s) s b
      (BitVec.ofNat 32 ((s.regVal b).toNat * (s.regVal c).toNat)) [c, b]

/-- `sub` compares first, `sub x,v` with the register that the high byte of the immediate names, and then subtracts, reading its operands again after the flag write.
The order and the second read are the spec's decision D5, the unsigned comparison its decision D4. -/
def Obligations.SubEffect : Prop :=
  ∀ (s : State) (b c : RegAddr) (imm : BitVec 16),
    WritesFlagThenReg (exec (.subXV b imm) s) s
      (flagOf (s.regVal b).toNat (s.regVal (BitVec.ofNat 8 (imm.toNat / 256))).toNat) b
      ((if b = Reg.fx then
          flagOf (s.regVal b).toNat (s.regVal (BitVec.ofNat 8 (imm.toNat / 256))).toNat
        else s.regVal b) - BitVec.ofNat 32 imm.toNat) [b, BitVec.ofNat 8 (imm.toNat / 256)] ∧
    WritesFlagThenReg (exec (.subXX b c) s) s
      (flagOf (s.regVal b).toNat (s.regVal c).toNat) b
      ((if b = Reg.fx then flagOf (s.regVal b).toNat (s.regVal c).toNat else s.regVal b) -
        (if c = Reg.fx then flagOf (s.regVal b).toNat (s.regVal c).toNat else s.regVal c)) [b, c]

/-- `div x,v` writes the truncated unsigned quotient (the spec's decision D21); a zero immediate is reported and terminates with DIV_ZERO, and changes nothing else (R178). -/
def Obligations.DivImmediateEffect : Prop :=
  ∀ (s : State) (b : RegAddr) (imm : BitVec 16),
    (imm.toNat ≠ 0 → WritesReg (exec (.divXV b imm) s) s b
      (BitVec.ofNat 32 ((s.regVal b).toNat / imm.toNat)) [b]) ∧
    (imm.toNat = 0 → TerminatesWith (exec (.divXV b imm) s) s .divZero .divZero [])

/-- `div x,x`: as `div x,v` with the divisor in a register, the sink giving 0; a zero divisor is found before the dividend is read (the spec's decision D24). -/
def Obligations.DivRegisterEffect : Prop :=
  ∀ (s : State) (b c : RegAddr),
    ((s.regVal c).toNat ≠ 0 → WritesReg (exec (.divXX b c) s) s b
      (BitVec.ofNat 32 ((s.regVal b).toNat / (s.regVal c).toNat)) [c, b]) ∧
    ((s.regVal c).toNat = 0 → TerminatesWith (exec (.divXX b c) s) s .divZero .divZero [c])

/-- R180 to R185, R190: `and`, `or` and `xor` write the bitwise result on 32 bits, immediates zero-extended; `not x` inverts every bit. -/
def Obligations.LogicEffect : Prop :=
  ∀ (s : State) (b c : RegAddr) (imm : BitVec 16),
    WritesReg (exec (.andXV b imm) s) s b (BitVec.ofNat 32 ((s.regVal b).toNat &&& imm.toNat)) [b] ∧
    WritesReg (exec (.andXX b c) s) s b
      (BitVec.ofNat 32 ((s.regVal b).toNat &&& (s.regVal c).toNat)) [c, b] ∧
    WritesReg (exec (.orXV b imm) s) s b (BitVec.ofNat 32 ((s.regVal b).toNat ||| imm.toNat)) [b] ∧
    WritesReg (exec (.orXX b c) s) s b
      (BitVec.ofNat 32 ((s.regVal b).toNat ||| (s.regVal c).toNat)) [c, b] ∧
    WritesReg (exec (.xorXV b imm) s) s b (BitVec.ofNat 32 ((s.regVal b).toNat ^^^ imm.toNat)) [b] ∧
    WritesReg (exec (.xorXX b c) s) s b
      (BitVec.ofNat 32 ((s.regVal b).toNat ^^^ (s.regVal c).toNat)) [c, b] ∧
    WritesReg (exec (.notX b) s) s b (BitVec.ofNat 32 (2 ^ 32 - 1 - (s.regVal b).toNat)) [b]

/-- The shifts are logical, with the count modulo 32 in every form (the spec's decision D20). -/
def Obligations.ShiftEffect : Prop :=
  ∀ (s : State) (b c : RegAddr) (imm : BitVec 16),
    WritesReg (exec (.shlXV b imm) s) s b
      (BitVec.ofNat 32 ((s.regVal b).toNat * 2 ^ (imm.toNat % 32))) [b] ∧
    WritesReg (exec (.shlXX b c) s) s b
      (BitVec.ofNat 32 ((s.regVal b).toNat * 2 ^ ((s.regVal c).toNat % 32))) [c, b] ∧
    WritesReg (exec (.shrXV b imm) s) s b
      (BitVec.ofNat 32 ((s.regVal b).toNat / 2 ^ (imm.toNat % 32))) [b] ∧
    WritesReg (exec (.shrXX b c) s) s b
      (BitVec.ofNat 32 ((s.regVal b).toNat / 2 ^ ((s.regVal c).toNat % 32))) [c, b]

/-- `cmp` writes exactly one of 1, 2 and 4 to `fx` and nothing else (R191, R192), by the unsigned comparison of its operands (the spec's decision D4). -/
def Obligations.CmpEffect : Prop :=
  ∀ (s : State) (b c : RegAddr) (imm : BitVec 16),
    WritesReg (exec (.cmpXV b imm) s) s Reg.fx (flagOf (s.regVal b).toNat imm.toNat) [b] ∧
    WritesReg (exec (.cmpXX b c) s) s Reg.fx (flagOf (s.regVal b).toNat (s.regVal c).toNat) [b, c]

/-! ### The sequencer (60_exceptions.md) -/

/-- A step of a ready core runs the instruction that the four bytes at `ipx` decode to, after the reports of their fetch.
What the step adds around exec: on a completed instruction the post-increment and then the debug view with its tests, on a suspended or hung one nothing, and a fault stays a fault.
That a suspended or hung instruction's step answers a next state is the model's choice (log 8). -/
def Obligations.StepRunsDecodedInstruction : Prop :=
  ∀ (s : State) (i : Instr), s.Ready → i.wellFormed = true →
    decode ⟨s.memVal s.ipx, s.memVal (s.ipx + 1), s.memVal (s.ipx + 2), s.memVal (s.ipx + 3)⟩ = .ok i →
    (∀ t, exec i s.noteFetch = .next t → t.wait = .none → step s = .next t.postIncrement.debugView) ∧
    (∀ t, exec i s.noteFetch = .next t → t.wait ≠ .none → step s = .next t) ∧
    (∀ f, exec i s.noteFetch = .fault f → step s = .fault f) ∧
    (s.inMemory s.ipx = true → s.inMemory (s.ipx + 1) = true → s.inMemory (s.ipx + 2) = true →
      s.inMemory (s.ipx + 3) = true → s.noteFetch = s)

/-- A fetch wholly outside memory reads `nop` and reports the four addresses in order, each once (the inference of R52; one report per failing access is the spec's decision D15, log 11). -/
def Obligations.FetchOutsideMemoryIsNop : Prop :=
  ∀ s : State, s.inMemory s.ipx = false → s.inMemory (s.ipx + 1) = false →
    s.inMemory (s.ipx + 2) = false → s.inMemory (s.ipx + 3) = false →
    decode s.fetched = .ok .nop ∧
    s.noteFetch.out = .report (.badIndex (s.ipx + 3)) :: .report (.badIndex (s.ipx + 2)) ::
      .report (.badIndex (s.ipx + 1)) :: .report (.badIndex s.ipx) :: s.out

/-- The post-increment is applied to `ipx` as the executor left it, on every step whose instruction completed, terminating ones too (the spec's decision D11), and the sequencer changes no other register, no memory and no exit code.
Parameters, debug mode, latch and the model's own fields but the answers stay too; what is sent out grows only by the view and `halted`, mode and process change only by a halt, the answers and the wait only in step mode (the view by the spec's decision D19). -/
def Obligations.PostIncrementOnEveryCompletedStep : Prop :=
  ∀ s t : State, s.Ready → execute s.fetched s.noteFetch = .next t → t.wait = .none →
    ∃ u, step s = .next u ∧ u.ipx = t.ipx + 4 ∧ (∀ a, a ≠ Reg.ipx → u.regVal a = t.regVal a) ∧
      t.SameMem u ∧ u.ec = t.ec ∧ u.cfg = t.cfg ∧ u.dbg = t.dbg ∧ u.eoc = t.eoc ∧
      u.ended = t.ended ∧ u.hostCmds = t.hostCmds ∧ u.lines = t.lines ∧ u.draws = t.draws ∧
      ((u.mode = t.mode ∧ u.proc = t.proc) ∨ ∃ r, u.Halted r) ∧
      (t.dbg ≠ .step → u.answers = t.answers ∧ u.wait = .none) ∧ u.SentAfter t.out

/-- R226: after an instruction that continues and a debug view that does not stop, the process ends with END_OF_CODE exactly when the incremented `ipx` is at or above the bound, and otherwise goes on. -/
def Obligations.EndOfCodeTest : Prop :=
  ∀ s t u : State, s.Ready → execute s.fetched s.noteFetch = .next t → t.wait = .none →
    t.code = .cont → (t.dbg = .step → ∃ rest, t.answers = .continue :: rest) → step s = .next u →
    (u.bound.toNat ≤ u.ipx.toNat → u.Halted .endOfCode) ∧
    (u.ipx.toNat < u.bound.toNat → u.mode = t.mode ∧ u.proc = t.proc ∧ u.wait = .none)

/-- The bound is the live `csx + clx` modulo 2^32, or the latch, by EOC_MODE (the spec's decision D7). -/
def Obligations.BoundByEocMode : Prop :=
  ∀ s : State,
    (s.cfg.eocMode = .live → s.bound = BitVec.ofNat 32 (s.csx.toNat + s.clx.toNat)) ∧
    (s.cfg.eocMode = .latched → s.bound = s.eoc)

/-- R228: a halt sets Idle, destroys the process, sends `halted(reason, ec)` and leaves registers, memory, `ec` and `dbg` as they are. -/
def Obligations.HaltSequence : Prop :=
  ∀ (s : State) (r : HaltReason),
    (s.halt r).Halted r ∧ (s.halt r).out = .halted r s.exitCode :: s.out ∧
    s.SameRegs (s.halt r) ∧ s.SameMem (s.halt r) ∧ (s.halt r).ec = s.ec ∧ (s.halt r).dbg = s.dbg

/-- The executor's reason comes before the debug stop and the end-of-code test, in every debug mode; in step mode the host is asked first (the spec's decision D25, and D19 for the view of a terminating step; the queue of answers and the waiting step are the model's own, log 6 and log 8). -/
def Obligations.ExecutorsReasonWins : Prop :=
  ∀ (s t : State) (r : HaltReason), s.Ready → execute s.fetched s.noteFetch = .next t →
    t.wait = .none → t.code = .terminate r →
    (t.dbg ≠ .step → ∃ u, step s = .next u ∧ u.Halted r) ∧
    (t.dbg = .step → ∀ ans rest, t.answers = ans :: rest → ∃ u, step s = .next u ∧ u.Halted r) ∧
    (t.dbg = .step → t.answers = [] → ∃ u, step s = .next u ∧ u.wait = .debugAnswer ∧
      ∀ ans rest, ∃ v, step { u with answers := ans :: rest } = .next v ∧ v.Halted r)

/-- Step mode: after a completed instruction that continues, the view is sent; a stop ends the process with DEBUG_STOP, a continue goes on to the end-of-code test, and without an answer the core waits for one (R237, R238, the spec's decision D19).
The queue of answers and the waiting step are the model's own (log 6, log 8). -/
def Obligations.StepModeAsksTheHost : Prop :=
  ∀ s t : State, s.Ready → execute s.fetched s.noteFetch = .next t → t.wait = .none →
    t.code = .cont → t.dbg = .step →
    (∀ rest, t.answers = .stop :: rest → ∃ u, step s = .next u ∧ u.Halted .debugStop ∧
      u.answers = rest ∧ u.ec = t.ec ∧
      u.out = .halted .debugStop u.exitCode :: .debugView u.rf u.mem :: t.out) ∧
    (∀ rest, t.answers = .continue :: rest → ∃ u, step s = .next u ∧ u.answers = rest ∧
      (u.bound.toNat ≤ u.ipx.toNat → u.Halted .endOfCode ∧
        u.out = .halted .endOfCode u.exitCode :: .debugView u.rf u.mem :: t.out) ∧
      (u.ipx.toNat < u.bound.toNat → u.mode = t.mode ∧ u.wait = .none ∧
        u.out = .debugView u.rf u.mem :: t.out)) ∧
    (t.answers = [] → ∃ u, step s = .next u ∧ u.wait = .debugAnswer ∧ u.mode = t.mode ∧
      u.out = .debugView u.rf u.mem :: t.out ∧ step u = .next u ∧
      (∀ rest, ∃ v, step { u with answers := .stop :: rest } = .next v ∧ v.Halted .debugStop ∧
        v.answers = rest ∧ v.ec = t.ec ∧ v.out = .halted .debugStop v.exitCode :: u.out) ∧
      (∀ rest, ∃ v, step { u with answers := .continue :: rest } = .next v ∧ v.answers = rest ∧
        (v.bound.toNat ≤ v.ipx.toNat → v.Halted .endOfCode ∧
          v.out = .halted .endOfCode v.exitCode :: u.out) ∧
        (v.ipx.toNat < v.bound.toNat → v.mode = t.mode ∧ v.wait = .none ∧ v.out = u.out)))

/-- The views of the modes regs, stack and both only watch: the step is the step without a debug mode, but for the mode itself and what is sent out (R237, 95_test_vectors.md V-PR-5). -/
def Obligations.DebugViewChangesNoState : Prop :=
  ∀ (s u : State), s.Ready → (s.dbg = .regs ∨ s.dbg = .stack ∨ s.dbg = .both) → step s = .next u →
    ∃ v, step { s with dbg := .none } = .next v ∧ u = { v with dbg := s.dbg, out := u.out }

/-- An opcode at or above 0x25 is reported with its four bytes and ends the process with INVALID_INSTRUCTION; `ec`, memory and every register but the post-incremented `ipx` stay (R218; that `ec` stays is the spec's decision D12, the post-increment of a terminating step D11).
This holds in every debug mode, with the view before the halt (the spec's decision D19), in step mode once the host has answered, whose stop loses (D25). -/
def Obligations.InvalidOpcodeTerminates : Prop :=
  ∀ s : State, s.Ready → (s.dbg = .step → s.answers ≠ []) → 0x25 ≤ s.fetched.a.toNat →
    ∃ u, step s = .next u ∧ u.Halted .invalidInstruction ∧ u.ec = s.ec ∧ u.ipx = s.ipx + 4 ∧
      (∀ a, a ≠ Reg.ipx → u.regVal a = s.regVal a) ∧ s.SameMem u ∧
      u.out = .halted .invalidInstruction s.exitCode ::
        ((if s.dbg = .none then [] else [.debugView u.rf u.mem]) ++
          .report (.invalidInstruction s.fetched) :: s.noteFetch.out)

/-- R219: a division by zero, by `div x,v` or `div x,x`, is reported and ends the process with DIV_ZERO; `ec`, the destination and every register but the post-incremented `ipx` stay.
This holds in every debug mode, with the view before the halt (the spec's decision D19), in step mode once the host has answered, whose stop loses to DIV_ZERO (D25).
The register divisor is read and may report before DIV_ZERO, the dividend is not read (D24), and `ipx` is post-incremented on a terminating step too (D11). -/
def Obligations.DivisionByZeroTerminates : Prop :=
  ∀ (s before : State) (b c : RegAddr), s.Ready →
    (s.dbg = .step → s.answers ≠ []) →
    ((decode s.fetched = .ok (.divXV b 0) ∧ before = s.noteFetch) ∨
      (decode s.fetched = .ok (.divXX b c) ∧ s.regVal c = 0 ∧ before = s.noteFetch.noteReg c)) →
    ∃ u, step s = .next u ∧ u.Halted .divZero ∧ u.ec = s.ec ∧ u.ipx = s.ipx + 4 ∧
      (∀ a, a ≠ Reg.ipx → u.regVal a = s.regVal a) ∧ s.SameMem u ∧
      u.out = .halted .divZero s.exitCode ::
        ((if s.dbg = .none then [] else [.debugView u.rf u.mem]) ++ .report .divZero :: before.out)

/-! ### The host (00_scope.md, 70_reset_and_hazards.md) -/

/-- In Idle the core executes nothing: with no request the state stays as it is, `set_debug` stores the mode and `quit` ends the block's life with the last exit code (60_exceptions.md sections 1 and 6, 00_scope.md section 3).
That `set_debug` takes none as well is inferred (log 12), the queue of requests is the model's own (log 6), and so are the step that changes nothing (log 8) and what `quit` leaves (log 13). -/
def Obligations.IdleExecutesNothing : Prop :=
  ∀ s : State, s.mode = .idle → s.ended = false →
    (s.hostCmds = [] → step s = .next s) ∧
    (∀ mode rest, s.hostCmds = .setDebug mode :: rest →
      step s = .next { s with hostCmds := rest, dbg := mode }) ∧
    (∀ rest, s.hostCmds = .quit :: rest →
      step s = .next { s with hostCmds := rest, ended := true, out := .ended s.exitCode :: s.out })

/-- R254: the start sequence: the base below MAX_BASE, the image copied to it in order, the register snapshot, the latch, Running with STARTED set; every other field stays.
The range of the base and the latch are the spec's decisions D9 and D7, `clx` modulo 2^32 is inferred (log 18), and the queues and the count of draws are the model's own (log 4, log 6). -/
def Obligations.StartSequence : Prop :=
  ∀ (s : State) (img : Image) (rest : List HostCmd), s.mode = .idle → s.ended = false →
    s.hostCmds = .start (some img) :: rest → Image.wellFormed img = true →
    s.cfg.wellFormed = true →
    ∃ u, ∃ rs : List Report, step s = .next u ∧
      u.csx.toNat < s.cfg.maxBase ∧ u.ipx = u.csx ∧ u.clx = BitVec.ofNat 32 img.length ∧
      (∀ a, a ≠ Reg.csx → a ≠ Reg.ipx → a ≠ Reg.clx → u.regVal a = 0) ∧
      StoredFrom s u u.csx img ∧
      u.Ready ∧ u.proc = some { started := true, aborted := false } ∧ u.code = .cont ∧
      (s.cfg.eocMode = .latched → u.eoc = u.csx + u.clx) ∧
      (s.cfg.eocMode = .live → u.eoc = s.eoc) ∧
      u.ec = s.ec ∧ u.dbg = s.dbg ∧ u.cfg = s.cfg ∧ u.hostCmds = rest ∧ u.lines = s.lines ∧
      u.answers = s.answers ∧ u.draws = s.draws + 1 ∧
      u.out = rs.map Event.report ++ s.out ∧
      (∀ r, r ∈ rs ↔ ∃ j, j < img.length ∧ badAddr s (u.csx + BitVec.ofNat 32 j) r)

/-- A start that breaks a precondition changes nothing: no process loaded, an empty image, a length that is no multiple of 4, or a core that is Running, whose steps take no request and start nothing (the spec's decision D27).
A start with no loaded process as a request of its own is the model's choice (log 21), and so are the queue and that the refused request is used up (log 6). -/
def Obligations.RefusedStartChangesNothing : Prop :=
  (∀ (s : State) (image : Option Image) (rest : List HostCmd), s.mode = .idle → s.ended = false →
    s.hostCmds = .start image :: rest →
    (image = none ∨ image = some [] ∨ ∃ img, image = some img ∧ img.length % 4 ≠ 0) →
    step s = .next { s with hostCmds := rest }) ∧
  (∀ (s : State) (image : Option Image), s.mode = .running → s.start image = s) ∧
  (∀ s u : State, s.mode = .running → step s = .next u → u.hostCmds = s.hostCmds ∧ u.eoc = s.eoc ∧
    ((u.mode = .running ∧ u.proc = s.proc) ∨ ∃ r, u.Halted r))

/-- Construction reset (R250), for every construction request, with the one report of a failed allocation and nothing else sent (R251, log 25).
The latch 0 and the debug mode none are the spec's decisions D7, D31 and D19. -/
def Obligations.ConstructionReset : Prop :=
  ∀ c : Construction,
    (State.construct c).cfg.memSize =
      (if c.allocated = true then (if c.request = 0 then 134217728 else c.request) else 0) ∧
    (∀ a : Word, (State.construct c).memVal a =
      if a.toNat < (State.construct c).cfg.memSize then c.initMem.read a.toNat else 0) ∧
    (∀ a, (State.construct c).regVal a = 0) ∧ (State.construct c).exitCode = 1 ∧
    (State.construct c).mode = .idle ∧ (State.construct c).proc = none ∧
    (State.construct c).dbg = .none ∧ (State.construct c).eoc = 0 ∧
    (State.construct c).out = (if c.allocated = true then [] else [.report .allocationFailed])

/-- The machine right after reset satisfies the invariant (its default parameters and zero memory are the model's choice where the spec leaves them open, log 2 and log 3). -/
def Obligations.ResetSatisfiesInvariant : Prop := State.reset.Inv

/-- Every step from a state with the invariant leads to a state with the invariant. -/
def Obligations.StepKeepsInvariant : Prop :=
  ∀ s t : State, s.Inv → step s = .next t → t.Inv

/-! ### Rules about the whole machine -/

/-- Every instruction writes no register but those its rule names. -/
def Obligations.InstructionsWriteOnlyTheirRegisters : Prop :=
  ∀ (i : Instr) (s t : State) (a : RegAddr), exec i s = .next t → a ∉ mayWrite i →
    t.regVal a = s.regVal a

/-- Only `set v`, `set x` and the service `sx` = 0xA of trap 2 change a byte of memory (the table of 20_memory.md section 1). -/
def Obligations.OnlyStoresAndPushesChangeMemory : Prop :=
  ∀ (i : Instr) (s t : State) (a : Word), exec i s = .next t → t.memVal a ≠ s.memVal a →
    (∃ b, i = .setV b) ∨ (∃ b, i = .setX b) ∨ (TrapsWith i s 2 ∧ s.sx = 0xA)

/-- The exit code changes in no step but one that runs the exit or the abort service (10_state.md section 3). -/
def Obligations.OnlyExitAndAbortChangeExitCode : Prop :=
  ∀ s t : State, step s = .next t → t.ec ≠ s.ec →
    s.Ready ∧ ∃ i, decode s.fetched = .ok i ∧ TrapsWith i s 1 ∧ (s.sx = 1 ∨ s.sx = 2)

/-- A core leaves Running only through a halt, which sends `halted` with its reason and the exit code (00_scope.md section 3). -/
def Obligations.RunningEndsOnlyByHalt : Prop :=
  ∀ s t : State, s.mode = .running → step s = .next t → t.mode = .idle → ∃ r, t.Halted r

/-- After a step that leaves the core ready for the next instruction, `ipx` is below the bound.
This is the invariant (d) of 10_state.md section 4 with the first fetch after a start left out, where the bound may have wrapped (log 15). -/
def Obligations.ReadyAfterRunningIsBelowBound : Prop :=
  ∀ s t : State, s.mode = .running → s.ended = false → step s = .next t → t.Ready →
    t.ipx.toNat < t.bound.toNat

/-- A step is never refused, and it faults only in a read service 6 to 9. -/
def Obligations.StepFaultsOnlyOnConsoleInput : Prop :=
  ∀ s : State, (∀ r, step s ≠ .refused r) ∧
    (∀ f, step s = .fault f → f = .consoleInputUnspecified ∧ s.mode = .running ∧
      ((∃ svc, s.wait = .line svc ∧ svc ≠ .stackLine) ∨
       (s.wait = .none ∧ ∃ i, decode s.fetched = .ok i ∧ TrapsWith i s 2 ∧
         6 ≤ s.sx.toNat ∧ s.sx.toNat ≤ 9)))

/-- A completed step sends exactly one view in every debug mode and none without one (R237, the spec's decision D19): of the post-incremented registers and the memory, after all that the executor sent, and before `halted` where the step halts.
It completes an instruction that ran to its end, or a suspended read whose line has come (the queue of lines, the list of what was sent and the copies in a view are the model's own, log 6, log 10 and log 20). -/
def Obligations.CompletedStepSendsOneView : Prop :=
  ∀ s t : State, s.mode = .running → s.ended = false →
    ((s.wait = .none ∧ execute s.fetched s.noteFetch = .next t ∧ t.wait = .none) ∨
      (∃ svc L rest, s.wait = .line svc ∧ s.lines = L :: rest ∧
        completeRead svc L { s with lines := rest, wait := .none } = .next t)) →
    ∃ u es, step s = .next u ∧ t.out = es ++ s.out ∧ (∀ e ∈ es, e.ofExecutor = true) ∧
      u.ipx = t.ipx + 4 ∧ (∀ a, a ≠ Reg.ipx → u.regVal a = t.regVal a) ∧ t.SameMem u ∧
      u.dbg = s.dbg ∧ u.SentAfter t.out
end

