-- ==== Sys2Proof/Laws/State.lean ====
section
/-! SUPPORT. The small lemmas of State: for every update of Ops.lean, what each field is after it. -/

namespace Sys2Proof.Machine

/-- The BAD_REGISTER events of a list of register addresses, in the order of the list. -/
def sinkReports (used : List RegAddr) : List Event :=
  used.filterMap (fun a => if validReg a = true then none else some (.report (.badRegister a)))

/-- The BAD_INDEX events of a list of addresses, in the order of the list. -/
def outsideReports (s : State) (used : List Word) : List Event :=
  used.filterMap (fun a => if s.inMemory a = true then none else some (.report (.badIndex a)))

theorem RegFile.write_sink (rf : RegFile) (a : RegAddr) (v : Word) (h : validReg a = false) :
    rf.write a v = rf := by
  simp only [RegFile.write, validReg, decide_eq_false_iff_not, not_lt] at *
  apply Vector.ext; intro i hi
  simp only [Vector.getElem_setIfInBounds]; split <;> [omega; rfl]

/-! ### Plain updates -/

@[simp] theorem State.emit_cfg (e : Event) (s : State) : (s.emit e).cfg = s.cfg := rfl
@[simp] theorem State.emit_rf (e : Event) (s : State) : (s.emit e).rf = s.rf := rfl
@[simp] theorem State.emit_mem (e : Event) (s : State) : (s.emit e).mem = s.mem := rfl
@[simp] theorem State.emit_ec (e : Event) (s : State) : (s.emit e).ec = s.ec := rfl
@[simp] theorem State.emit_mode (e : Event) (s : State) : (s.emit e).mode = s.mode := rfl
@[simp] theorem State.emit_proc (e : Event) (s : State) : (s.emit e).proc = s.proc := rfl
@[simp] theorem State.emit_dbg (e : Event) (s : State) : (s.emit e).dbg = s.dbg := rfl
@[simp] theorem State.emit_eoc (e : Event) (s : State) : (s.emit e).eoc = s.eoc := rfl
@[simp] theorem State.emit_code (e : Event) (s : State) : (s.emit e).code = s.code := rfl
@[simp] theorem State.emit_wait (e : Event) (s : State) : (s.emit e).wait = s.wait := rfl
@[simp] theorem State.emit_ended (e : Event) (s : State) : (s.emit e).ended = s.ended := rfl
@[simp] theorem State.emit_hostCmds (e : Event) (s : State) : (s.emit e).hostCmds = s.hostCmds := rfl
@[simp] theorem State.emit_lines (e : Event) (s : State) : (s.emit e).lines = s.lines := rfl
@[simp] theorem State.emit_answers (e : Event) (s : State) : (s.emit e).answers = s.answers := rfl
@[simp] theorem State.emit_draws (e : Event) (s : State) : (s.emit e).draws = s.draws := rfl
@[simp] theorem State.emit_out (e : Event) (s : State) : (s.emit e).out = e :: s.out := rfl

@[simp] theorem State.report_cfg (r : Report) (s : State) : (s.report r).cfg = s.cfg := rfl
@[simp] theorem State.report_rf (r : Report) (s : State) : (s.report r).rf = s.rf := rfl
@[simp] theorem State.report_mem (r : Report) (s : State) : (s.report r).mem = s.mem := rfl
@[simp] theorem State.report_ec (r : Report) (s : State) : (s.report r).ec = s.ec := rfl
@[simp] theorem State.report_mode (r : Report) (s : State) : (s.report r).mode = s.mode := rfl
@[simp] theorem State.report_proc (r : Report) (s : State) : (s.report r).proc = s.proc := rfl
@[simp] theorem State.report_dbg (r : Report) (s : State) : (s.report r).dbg = s.dbg := rfl
@[simp] theorem State.report_eoc (r : Report) (s : State) : (s.report r).eoc = s.eoc := rfl
@[simp] theorem State.report_code (r : Report) (s : State) : (s.report r).code = s.code := rfl
@[simp] theorem State.report_wait (r : Report) (s : State) : (s.report r).wait = s.wait := rfl
@[simp] theorem State.report_ended (r : Report) (s : State) : (s.report r).ended = s.ended := rfl
@[simp] theorem State.report_hostCmds (r : Report) (s : State) : (s.report r).hostCmds = s.hostCmds := rfl
@[simp] theorem State.report_lines (r : Report) (s : State) : (s.report r).lines = s.lines := rfl
@[simp] theorem State.report_answers (r : Report) (s : State) : (s.report r).answers = s.answers := rfl
@[simp] theorem State.report_draws (r : Report) (s : State) : (s.report r).draws = s.draws := rfl
@[simp] theorem State.report_out (r : Report) (s : State) : (s.report r).out = .report r :: s.out := rfl

@[simp] theorem State.console_cfg (c : ConsoleEvent) (s : State) : (s.console c).cfg = s.cfg := rfl
@[simp] theorem State.console_rf (c : ConsoleEvent) (s : State) : (s.console c).rf = s.rf := rfl
@[simp] theorem State.console_mem (c : ConsoleEvent) (s : State) : (s.console c).mem = s.mem := rfl
@[simp] theorem State.console_ec (c : ConsoleEvent) (s : State) : (s.console c).ec = s.ec := rfl
@[simp] theorem State.console_mode (c : ConsoleEvent) (s : State) : (s.console c).mode = s.mode := rfl
@[simp] theorem State.console_proc (c : ConsoleEvent) (s : State) : (s.console c).proc = s.proc := rfl
@[simp] theorem State.console_dbg (c : ConsoleEvent) (s : State) : (s.console c).dbg = s.dbg := rfl
@[simp] theorem State.console_eoc (c : ConsoleEvent) (s : State) : (s.console c).eoc = s.eoc := rfl
@[simp] theorem State.console_code (c : ConsoleEvent) (s : State) : (s.console c).code = s.code := rfl
@[simp] theorem State.console_wait (c : ConsoleEvent) (s : State) : (s.console c).wait = s.wait := rfl
@[simp] theorem State.console_ended (c : ConsoleEvent) (s : State) : (s.console c).ended = s.ended := rfl
@[simp] theorem State.console_hostCmds (c : ConsoleEvent) (s : State) : (s.console c).hostCmds = s.hostCmds := rfl
@[simp] theorem State.console_lines (c : ConsoleEvent) (s : State) : (s.console c).lines = s.lines := rfl
@[simp] theorem State.console_answers (c : ConsoleEvent) (s : State) : (s.console c).answers = s.answers := rfl
@[simp] theorem State.console_draws (c : ConsoleEvent) (s : State) : (s.console c).draws = s.draws := rfl
@[simp] theorem State.console_out (c : ConsoleEvent) (s : State) : (s.console c).out = .console c :: s.out := rfl

@[simp] theorem State.ret_cfg (c : Code) (s : State) : (s.ret c).cfg = s.cfg := rfl
@[simp] theorem State.ret_rf (c : Code) (s : State) : (s.ret c).rf = s.rf := rfl
@[simp] theorem State.ret_mem (c : Code) (s : State) : (s.ret c).mem = s.mem := rfl
@[simp] theorem State.ret_ec (c : Code) (s : State) : (s.ret c).ec = s.ec := rfl
@[simp] theorem State.ret_mode (c : Code) (s : State) : (s.ret c).mode = s.mode := rfl
@[simp] theorem State.ret_proc (c : Code) (s : State) : (s.ret c).proc = s.proc := rfl
@[simp] theorem State.ret_dbg (c : Code) (s : State) : (s.ret c).dbg = s.dbg := rfl
@[simp] theorem State.ret_eoc (c : Code) (s : State) : (s.ret c).eoc = s.eoc := rfl
@[simp] theorem State.ret_code (c : Code) (s : State) : (s.ret c).code = c := rfl
@[simp] theorem State.ret_wait (c : Code) (s : State) : (s.ret c).wait = s.wait := rfl
@[simp] theorem State.ret_ended (c : Code) (s : State) : (s.ret c).ended = s.ended := rfl
@[simp] theorem State.ret_hostCmds (c : Code) (s : State) : (s.ret c).hostCmds = s.hostCmds := rfl
@[simp] theorem State.ret_lines (c : Code) (s : State) : (s.ret c).lines = s.lines := rfl
@[simp] theorem State.ret_answers (c : Code) (s : State) : (s.ret c).answers = s.answers := rfl
@[simp] theorem State.ret_draws (c : Code) (s : State) : (s.ret c).draws = s.draws := rfl
@[simp] theorem State.ret_out (c : Code) (s : State) : (s.ret c).out = s.out := rfl

@[simp] theorem State.terminate_cfg (r : HaltReason) (s : State) : (s.terminate r).cfg = s.cfg := rfl
@[simp] theorem State.terminate_rf (r : HaltReason) (s : State) : (s.terminate r).rf = s.rf := rfl
@[simp] theorem State.terminate_mem (r : HaltReason) (s : State) : (s.terminate r).mem = s.mem := rfl
@[simp] theorem State.terminate_ec (r : HaltReason) (s : State) : (s.terminate r).ec = s.ec := rfl
@[simp] theorem State.terminate_mode (r : HaltReason) (s : State) : (s.terminate r).mode = s.mode := rfl
@[simp] theorem State.terminate_proc (r : HaltReason) (s : State) : (s.terminate r).proc = s.proc := rfl
@[simp] theorem State.terminate_dbg (r : HaltReason) (s : State) : (s.terminate r).dbg = s.dbg := rfl
@[simp] theorem State.terminate_eoc (r : HaltReason) (s : State) : (s.terminate r).eoc = s.eoc := rfl
@[simp] theorem State.terminate_code (r : HaltReason) (s : State) : (s.terminate r).code = .terminate r := rfl
@[simp] theorem State.terminate_wait (r : HaltReason) (s : State) : (s.terminate r).wait = s.wait := rfl
@[simp] theorem State.terminate_ended (r : HaltReason) (s : State) : (s.terminate r).ended = s.ended := rfl
@[simp] theorem State.terminate_hostCmds (r : HaltReason) (s : State) : (s.terminate r).hostCmds = s.hostCmds := rfl
@[simp] theorem State.terminate_lines (r : HaltReason) (s : State) : (s.terminate r).lines = s.lines := rfl
@[simp] theorem State.terminate_answers (r : HaltReason) (s : State) : (s.terminate r).answers = s.answers := rfl
@[simp] theorem State.terminate_draws (r : HaltReason) (s : State) : (s.terminate r).draws = s.draws := rfl
@[simp] theorem State.terminate_out (r : HaltReason) (s : State) : (s.terminate r).out = s.out := rfl

@[simp] theorem State.halt_cfg (r : HaltReason) (s : State) : (s.halt r).cfg = s.cfg := rfl
@[simp] theorem State.halt_rf (r : HaltReason) (s : State) : (s.halt r).rf = s.rf := rfl
@[simp] theorem State.halt_mem (r : HaltReason) (s : State) : (s.halt r).mem = s.mem := rfl
@[simp] theorem State.halt_ec (r : HaltReason) (s : State) : (s.halt r).ec = s.ec := rfl
@[simp] theorem State.halt_mode (r : HaltReason) (s : State) : (s.halt r).mode = .idle := rfl
@[simp] theorem State.halt_proc (r : HaltReason) (s : State) : (s.halt r).proc = none := rfl
@[simp] theorem State.halt_dbg (r : HaltReason) (s : State) : (s.halt r).dbg = s.dbg := rfl
@[simp] theorem State.halt_eoc (r : HaltReason) (s : State) : (s.halt r).eoc = s.eoc := rfl
@[simp] theorem State.halt_code (r : HaltReason) (s : State) : (s.halt r).code = .cont := rfl
@[simp] theorem State.halt_wait (r : HaltReason) (s : State) : (s.halt r).wait = .none := rfl
@[simp] theorem State.halt_ended (r : HaltReason) (s : State) : (s.halt r).ended = s.ended := rfl
@[simp] theorem State.halt_hostCmds (r : HaltReason) (s : State) : (s.halt r).hostCmds = s.hostCmds := rfl
@[simp] theorem State.halt_lines (r : HaltReason) (s : State) : (s.halt r).lines = s.lines := rfl
@[simp] theorem State.halt_answers (r : HaltReason) (s : State) : (s.halt r).answers = s.answers := rfl
@[simp] theorem State.halt_draws (r : HaltReason) (s : State) : (s.halt r).draws = s.draws := rfl
@[simp] theorem State.halt_out (r : HaltReason) (s : State) : (s.halt r).out = .halted r s.exitCode :: s.out := rfl

@[simp] theorem State.countDraw_cfg (s : State) : (s.countDraw).cfg = s.cfg := rfl
@[simp] theorem State.countDraw_rf (s : State) : (s.countDraw).rf = s.rf := rfl
@[simp] theorem State.countDraw_mem (s : State) : (s.countDraw).mem = s.mem := rfl
@[simp] theorem State.countDraw_ec (s : State) : (s.countDraw).ec = s.ec := rfl
@[simp] theorem State.countDraw_mode (s : State) : (s.countDraw).mode = s.mode := rfl
@[simp] theorem State.countDraw_proc (s : State) : (s.countDraw).proc = s.proc := rfl
@[simp] theorem State.countDraw_dbg (s : State) : (s.countDraw).dbg = s.dbg := rfl
@[simp] theorem State.countDraw_eoc (s : State) : (s.countDraw).eoc = s.eoc := rfl
@[simp] theorem State.countDraw_code (s : State) : (s.countDraw).code = s.code := rfl
@[simp] theorem State.countDraw_wait (s : State) : (s.countDraw).wait = s.wait := rfl
@[simp] theorem State.countDraw_ended (s : State) : (s.countDraw).ended = s.ended := rfl
@[simp] theorem State.countDraw_hostCmds (s : State) : (s.countDraw).hostCmds = s.hostCmds := rfl
@[simp] theorem State.countDraw_lines (s : State) : (s.countDraw).lines = s.lines := rfl
@[simp] theorem State.countDraw_answers (s : State) : (s.countDraw).answers = s.answers := rfl
@[simp] theorem State.countDraw_draws (s : State) : (s.countDraw).draws = s.draws + 1 := rfl
@[simp] theorem State.countDraw_out (s : State) : (s.countDraw).out = s.out := rfl

@[simp] theorem State.view_cfg (s : State) : (s.view).cfg = s.cfg := rfl
@[simp] theorem State.view_rf (s : State) : (s.view).rf = s.rf := rfl
@[simp] theorem State.view_mem (s : State) : (s.view).mem = s.mem := rfl
@[simp] theorem State.view_ec (s : State) : (s.view).ec = s.ec := rfl
@[simp] theorem State.view_mode (s : State) : (s.view).mode = s.mode := rfl
@[simp] theorem State.view_proc (s : State) : (s.view).proc = s.proc := rfl
@[simp] theorem State.view_dbg (s : State) : (s.view).dbg = s.dbg := rfl
@[simp] theorem State.view_eoc (s : State) : (s.view).eoc = s.eoc := rfl
@[simp] theorem State.view_code (s : State) : (s.view).code = s.code := rfl
@[simp] theorem State.view_wait (s : State) : (s.view).wait = s.wait := rfl
@[simp] theorem State.view_ended (s : State) : (s.view).ended = s.ended := rfl
@[simp] theorem State.view_hostCmds (s : State) : (s.view).hostCmds = s.hostCmds := rfl
@[simp] theorem State.view_lines (s : State) : (s.view).lines = s.lines := rfl
@[simp] theorem State.view_answers (s : State) : (s.view).answers = s.answers := rfl
@[simp] theorem State.view_draws (s : State) : (s.view).draws = s.draws := rfl
@[simp] theorem State.view_out (s : State) : (s.view).out = .debugView s.rf s.mem :: s.out := rfl

/-! ### Accesses -/

@[simp] theorem State.noteReg_cfg (a : RegAddr) (s : State) : (s.noteReg a).cfg = s.cfg := by
  unfold State.noteReg; split <;> rfl
@[simp] theorem State.noteReg_rf (a : RegAddr) (s : State) : (s.noteReg a).rf = s.rf := by
  unfold State.noteReg; split <;> rfl
@[simp] theorem State.noteReg_mem (a : RegAddr) (s : State) : (s.noteReg a).mem = s.mem := by
  unfold State.noteReg; split <;> rfl
@[simp] theorem State.noteReg_ec (a : RegAddr) (s : State) : (s.noteReg a).ec = s.ec := by
  unfold State.noteReg; split <;> rfl
@[simp] theorem State.noteReg_mode (a : RegAddr) (s : State) : (s.noteReg a).mode = s.mode := by
  unfold State.noteReg; split <;> rfl
@[simp] theorem State.noteReg_proc (a : RegAddr) (s : State) : (s.noteReg a).proc = s.proc := by
  unfold State.noteReg; split <;> rfl
@[simp] theorem State.noteReg_dbg (a : RegAddr) (s : State) : (s.noteReg a).dbg = s.dbg := by
  unfold State.noteReg; split <;> rfl
@[simp] theorem State.noteReg_eoc (a : RegAddr) (s : State) : (s.noteReg a).eoc = s.eoc := by
  unfold State.noteReg; split <;> rfl
@[simp] theorem State.noteReg_code (a : RegAddr) (s : State) : (s.noteReg a).code = s.code := by
  unfold State.noteReg; split <;> rfl
@[simp] theorem State.noteReg_wait (a : RegAddr) (s : State) : (s.noteReg a).wait = s.wait := by
  unfold State.noteReg; split <;> rfl
@[simp] theorem State.noteReg_ended (a : RegAddr) (s : State) : (s.noteReg a).ended = s.ended := by
  unfold State.noteReg; split <;> rfl
@[simp] theorem State.noteReg_hostCmds (a : RegAddr) (s : State) : (s.noteReg a).hostCmds = s.hostCmds := by
  unfold State.noteReg; split <;> rfl
@[simp] theorem State.noteReg_lines (a : RegAddr) (s : State) : (s.noteReg a).lines = s.lines := by
  unfold State.noteReg; split <;> rfl
@[simp] theorem State.noteReg_answers (a : RegAddr) (s : State) : (s.noteReg a).answers = s.answers := by
  unfold State.noteReg; split <;> rfl
@[simp] theorem State.noteReg_draws (a : RegAddr) (s : State) : (s.noteReg a).draws = s.draws := by
  unfold State.noteReg; split <;> rfl
@[simp] theorem State.noteReg_out (a : RegAddr) (s : State) : (s.noteReg a).out = sinkReports [a] ++ s.out := by
  unfold State.noteReg; split <;> simp_all [sinkReports]

@[simp] theorem State.putReg_cfg (a : RegAddr) (v : Word) (s : State) : (s.putReg a v).cfg = s.cfg := by
  unfold State.putReg; split <;> rfl
@[simp] theorem State.putReg_rf (a : RegAddr) (v : Word) (s : State) : (s.putReg a v).rf = s.rf.write a v := by
  unfold State.putReg; split <;> simp_all [RegFile.write_sink]
@[simp] theorem State.putReg_mem (a : RegAddr) (v : Word) (s : State) : (s.putReg a v).mem = s.mem := by
  unfold State.putReg; split <;> rfl
@[simp] theorem State.putReg_ec (a : RegAddr) (v : Word) (s : State) : (s.putReg a v).ec = s.ec := by
  unfold State.putReg; split <;> rfl
@[simp] theorem State.putReg_mode (a : RegAddr) (v : Word) (s : State) : (s.putReg a v).mode = s.mode := by
  unfold State.putReg; split <;> rfl
@[simp] theorem State.putReg_proc (a : RegAddr) (v : Word) (s : State) : (s.putReg a v).proc = s.proc := by
  unfold State.putReg; split <;> rfl
@[simp] theorem State.putReg_dbg (a : RegAddr) (v : Word) (s : State) : (s.putReg a v).dbg = s.dbg := by
  unfold State.putReg; split <;> rfl
@[simp] theorem State.putReg_eoc (a : RegAddr) (v : Word) (s : State) : (s.putReg a v).eoc = s.eoc := by
  unfold State.putReg; split <;> rfl
@[simp] theorem State.putReg_code (a : RegAddr) (v : Word) (s : State) : (s.putReg a v).code = s.code := by
  unfold State.putReg; split <;> rfl
@[simp] theorem State.putReg_wait (a : RegAddr) (v : Word) (s : State) : (s.putReg a v).wait = s.wait := by
  unfold State.putReg; split <;> rfl
@[simp] theorem State.putReg_ended (a : RegAddr) (v : Word) (s : State) : (s.putReg a v).ended = s.ended := by
  unfold State.putReg; split <;> rfl
@[simp] theorem State.putReg_hostCmds (a : RegAddr) (v : Word) (s : State) : (s.putReg a v).hostCmds = s.hostCmds := by
  unfold State.putReg; split <;> rfl
@[simp] theorem State.putReg_lines (a : RegAddr) (v : Word) (s : State) : (s.putReg a v).lines = s.lines := by
  unfold State.putReg; split <;> rfl
@[simp] theorem State.putReg_answers (a : RegAddr) (v : Word) (s : State) : (s.putReg a v).answers = s.answers := by
  unfold State.putReg; split <;> rfl
@[simp] theorem State.putReg_draws (a : RegAddr) (v : Word) (s : State) : (s.putReg a v).draws = s.draws := by
  unfold State.putReg; split <;> rfl
@[simp] theorem State.putReg_out (a : RegAddr) (v : Word) (s : State) : (s.putReg a v).out = sinkReports [a] ++ s.out := by
  unfold State.putReg; split <;> simp_all [sinkReports]

@[simp] theorem State.noteMem_cfg (a : Word) (s : State) : (s.noteMem a).cfg = s.cfg := by
  unfold State.noteMem; split <;> rfl
@[simp] theorem State.noteMem_rf (a : Word) (s : State) : (s.noteMem a).rf = s.rf := by
  unfold State.noteMem; split <;> rfl
@[simp] theorem State.noteMem_mem (a : Word) (s : State) : (s.noteMem a).mem = s.mem := by
  unfold State.noteMem; split <;> rfl
@[simp] theorem State.noteMem_ec (a : Word) (s : State) : (s.noteMem a).ec = s.ec := by
  unfold State.noteMem; split <;> rfl
@[simp] theorem State.noteMem_mode (a : Word) (s : State) : (s.noteMem a).mode = s.mode := by
  unfold State.noteMem; split <;> rfl
@[simp] theorem State.noteMem_proc (a : Word) (s : State) : (s.noteMem a).proc = s.proc := by
  unfold State.noteMem; split <;> rfl
@[simp] theorem State.noteMem_dbg (a : Word) (s : State) : (s.noteMem a).dbg = s.dbg := by
  unfold State.noteMem; split <;> rfl
@[simp] theorem State.noteMem_eoc (a : Word) (s : State) : (s.noteMem a).eoc = s.eoc := by
  unfold State.noteMem; split <;> rfl
@[simp] theorem State.noteMem_code (a : Word) (s : State) : (s.noteMem a).code = s.code := by
  unfold State.noteMem; split <;> rfl
@[simp] theorem State.noteMem_wait (a : Word) (s : State) : (s.noteMem a).wait = s.wait := by
  unfold State.noteMem; split <;> rfl
@[simp] theorem State.noteMem_ended (a : Word) (s : State) : (s.noteMem a).ended = s.ended := by
  unfold State.noteMem; split <;> rfl
@[simp] theorem State.noteMem_hostCmds (a : Word) (s : State) : (s.noteMem a).hostCmds = s.hostCmds := by
  unfold State.noteMem; split <;> rfl
@[simp] theorem State.noteMem_lines (a : Word) (s : State) : (s.noteMem a).lines = s.lines := by
  unfold State.noteMem; split <;> rfl
@[simp] theorem State.noteMem_answers (a : Word) (s : State) : (s.noteMem a).answers = s.answers := by
  unfold State.noteMem; split <;> rfl
@[simp] theorem State.noteMem_draws (a : Word) (s : State) : (s.noteMem a).draws = s.draws := by
  unfold State.noteMem; split <;> rfl
@[simp] theorem State.noteMem_out (a : Word) (s : State) : (s.noteMem a).out = outsideReports s [a] ++ s.out := by
  unfold State.noteMem; split <;> simp_all [outsideReports]

@[simp] theorem State.putMem_cfg (a : Word) (v : Byte) (s : State) : (s.putMem a v).cfg = s.cfg := by
  unfold State.putMem; split <;> rfl
@[simp] theorem State.putMem_rf (a : Word) (v : Byte) (s : State) : (s.putMem a v).rf = s.rf := by
  unfold State.putMem; split <;> rfl
@[simp] theorem State.putMem_mem (a : Word) (v : Byte) (s : State) : (s.putMem a v).mem = if s.inMemory a = true then s.mem.write a.toNat v else s.mem := by
  unfold State.putMem; split <;> simp_all
@[simp] theorem State.putMem_ec (a : Word) (v : Byte) (s : State) : (s.putMem a v).ec = s.ec := by
  unfold State.putMem; split <;> rfl
@[simp] theorem State.putMem_mode (a : Word) (v : Byte) (s : State) : (s.putMem a v).mode = s.mode := by
  unfold State.putMem; split <;> rfl
@[simp] theorem State.putMem_proc (a : Word) (v : Byte) (s : State) : (s.putMem a v).proc = s.proc := by
  unfold State.putMem; split <;> rfl
@[simp] theorem State.putMem_dbg (a : Word) (v : Byte) (s : State) : (s.putMem a v).dbg = s.dbg := by
  unfold State.putMem; split <;> rfl
@[simp] theorem State.putMem_eoc (a : Word) (v : Byte) (s : State) : (s.putMem a v).eoc = s.eoc := by
  unfold State.putMem; split <;> rfl
@[simp] theorem State.putMem_code (a : Word) (v : Byte) (s : State) : (s.putMem a v).code = s.code := by
  unfold State.putMem; split <;> rfl
@[simp] theorem State.putMem_wait (a : Word) (v : Byte) (s : State) : (s.putMem a v).wait = s.wait := by
  unfold State.putMem; split <;> rfl
@[simp] theorem State.putMem_ended (a : Word) (v : Byte) (s : State) : (s.putMem a v).ended = s.ended := by
  unfold State.putMem; split <;> rfl
@[simp] theorem State.putMem_hostCmds (a : Word) (v : Byte) (s : State) : (s.putMem a v).hostCmds = s.hostCmds := by
  unfold State.putMem; split <;> rfl
@[simp] theorem State.putMem_lines (a : Word) (v : Byte) (s : State) : (s.putMem a v).lines = s.lines := by
  unfold State.putMem; split <;> rfl
@[simp] theorem State.putMem_answers (a : Word) (v : Byte) (s : State) : (s.putMem a v).answers = s.answers := by
  unfold State.putMem; split <;> rfl
@[simp] theorem State.putMem_draws (a : Word) (v : Byte) (s : State) : (s.putMem a v).draws = s.draws := by
  unfold State.putMem; split <;> rfl
@[simp] theorem State.putMem_out (a : Word) (v : Byte) (s : State) : (s.putMem a v).out = outsideReports s [a] ++ s.out := by
  unfold State.putMem; split <;> simp_all [outsideReports]

end Sys2Proof.Machine
end

