-- ==== Sys2Proof/Laws/Ops.lean ====
section
/-! SUPPORT. What the register and memory operations do, through the reads `regVal` and `memVal`. -/

namespace Sys2Proof.Machine

/-! ### The named registers are registers -/

@[simp] theorem validReg_csx : validReg Reg.csx = true := by decide
@[simp] theorem validReg_ipx : validReg Reg.ipx = true := by decide
@[simp] theorem validReg_clx : validReg Reg.clx = true := by decide
@[simp] theorem validReg_ssx : validReg Reg.ssx = true := by decide
@[simp] theorem validReg_spx : validReg Reg.spx = true := by decide
@[simp] theorem validReg_slx : validReg Reg.slx = true := by decide
@[simp] theorem validReg_ax : validReg Reg.ax = true := by decide
@[simp] theorem validReg_sx : validReg Reg.sx = true := by decide
@[simp] theorem validReg_fx : validReg Reg.fx = true := by decide
@[simp] theorem validReg_x0 : validReg Reg.x0 = true := by decide
@[simp] theorem validReg_x1 : validReg Reg.x1 = true := by decide

/-! ### Reads after the plain updates -/

@[simp] theorem State.regVal_emit (e : Event) (s : State) (a : RegAddr) : (s.emit e).regVal a = s.regVal a := rfl
@[simp] theorem State.regVal_report (r : Report) (s : State) (a : RegAddr) : (s.report r).regVal a = s.regVal a := rfl
@[simp] theorem State.regVal_console (c : ConsoleEvent) (s : State) (a : RegAddr) : (s.console c).regVal a = s.regVal a := rfl
@[simp] theorem State.regVal_ret (c : Code) (s : State) (a : RegAddr) : (s.ret c).regVal a = s.regVal a := rfl
@[simp] theorem State.regVal_terminate (r : HaltReason) (s : State) (a : RegAddr) : (s.terminate r).regVal a = s.regVal a := rfl
@[simp] theorem State.regVal_halt (r : HaltReason) (s : State) (a : RegAddr) : (s.halt r).regVal a = s.regVal a := rfl
@[simp] theorem State.regVal_countDraw (s : State) (a : RegAddr) : s.countDraw.regVal a = s.regVal a := rfl
@[simp] theorem State.regVal_view (s : State) (a : RegAddr) : s.view.regVal a = s.regVal a := rfl
@[simp] theorem State.memVal_emit (e : Event) (s : State) (a : Word) : (s.emit e).memVal a = s.memVal a := rfl
@[simp] theorem State.memVal_report (r : Report) (s : State) (a : Word) : (s.report r).memVal a = s.memVal a := rfl
@[simp] theorem State.memVal_console (c : ConsoleEvent) (s : State) (a : Word) : (s.console c).memVal a = s.memVal a := rfl
@[simp] theorem State.memVal_ret (c : Code) (s : State) (a : Word) : (s.ret c).memVal a = s.memVal a := rfl
@[simp] theorem State.memVal_terminate (r : HaltReason) (s : State) (a : Word) : (s.terminate r).memVal a = s.memVal a := rfl
@[simp] theorem State.memVal_halt (r : HaltReason) (s : State) (a : Word) : (s.halt r).memVal a = s.memVal a := rfl
@[simp] theorem State.memVal_countDraw (s : State) (a : Word) : s.countDraw.memVal a = s.memVal a := rfl
@[simp] theorem State.memVal_view (s : State) (a : Word) : s.view.memVal a = s.memVal a := rfl

/-! ### The register file (R16) -/

theorem RegFile.read_sink (rf : RegFile) (a : RegAddr) (h : validReg a = false) : rf.read a = 0 := by
  simp only [validReg, decide_eq_false_iff_not, not_lt] at h
  simp [RegFile.read, Vector.getElem?_eq_none h]

theorem RegFile.read_write (rf : RegFile) (b : RegAddr) (v : Word) (a : RegAddr) :
    (rf.write b v).read a = if a = b ∧ validReg b = true then v else rf.read a := by
  unfold RegFile.read RegFile.write
  rw [Vector.getElem?_setIfInBounds]
  by_cases hab : b.toNat = a.toNat
  · have : a = b := BitVec.eq_of_toNat_eq hab.symm
    subst this
    by_cases hv : a.toNat < 25
    · simp [validReg, hv]
    · simp [validReg, hv]
  · have : a ≠ b := fun h => hab (by rw [h])
    simp [hab, this]

theorem State.regVal_sink (s : State) (a : RegAddr) (h : validReg a = false) : s.regVal a = 0 :=
  RegFile.read_sink _ _ h

@[simp] theorem State.regVal_noteReg (b : RegAddr) (s : State) (a : RegAddr) :
    (s.noteReg b).regVal a = s.regVal a := by simp [State.regVal]

@[simp] theorem State.memVal_noteReg (b : RegAddr) (s : State) (a : Word) :
    (s.noteReg b).memVal a = s.memVal a := by simp [State.memVal, State.inMemory]

theorem State.regVal_putReg (b : RegAddr) (v : Word) (s : State) (a : RegAddr) :
    (s.putReg b v).regVal a = if a = b ∧ validReg b = true then v else s.regVal a := by
  simp [State.regVal, RegFile.read_write]

@[simp] theorem State.memVal_putReg (b : RegAddr) (v : Word) (s : State) (a : Word) :
    (s.putReg b v).memVal a = s.memVal a := by simp [State.memVal, State.inMemory]

@[simp] theorem State.noteReg_valid (a : RegAddr) (s : State) (h : validReg a = true) : s.noteReg a = s := by
  simp [State.noteReg, h]

theorem State.putReg_valid (a : RegAddr) (v : Word) (s : State) (h : validReg a = true) :
    s.putReg a v = { s with rf := s.rf.write a v } := by simp [State.putReg, h]

/-! ### Memory (R17, R52) -/

theorem Memory.read_erase (m : Memory) (n k : Nat) :
    (m.erase n).read k = if k = n then Memory.background else m.read k := by
  induction m with
  | nil => simp [Memory.erase, Memory.read]
  | cons cell rest ih =>
    obtain ⟨a, x⟩ := cell
    unfold Memory.erase at ih ⊢
    by_cases h : a = n
    · subst h
      by_cases hk : k = a
      · subst hk; simpa using ih
      · simp [Memory.read, Ne.symm hk, hk, ih]
    · by_cases hk : a = k
      · subst hk; simp [h, Memory.read]
      · simp [h, Memory.read, hk, ih]

theorem Memory.read_insert (m : Memory) (n : Nat) (v : Byte) (k : Nat)
    (h : ∀ cell ∈ m, cell.1 ≠ n) :
    (m.insert n v).read k = if k = n then v else m.read k := by
  induction m with
  | nil =>
    by_cases hk : k = n
    · simp [Memory.insert, Memory.read, hk]
    · simp [Memory.insert, Memory.read, hk, Ne.symm hk]
  | cons cell rest ih =>
    obtain ⟨a, x⟩ := cell
    have ha : a ≠ n := h (a, x) (by simp)
    have ih := ih (fun c hc => h c (List.mem_cons_of_mem _ hc))
    by_cases hk : k = n
    · subst hk
      unfold Memory.insert; split
      · simp [Memory.read]
      · simp [Memory.read, ha, ih]
    · unfold Memory.insert; split
      · simp [Memory.read, Ne.symm hk]
      · by_cases hak : a = k <;> simp [Memory.read, hak, hk, ih]

/-- Read after write, and the frame of a write. -/
theorem Memory.read_write (m : Memory) (n : Nat) (v : Byte) (k : Nat) :
    (m.write n v).read k = if k = n then v else m.read k := by
  unfold Memory.write
  split
  · next h => rw [Memory.read_erase]; split <;> simp [h]
  · rw [Memory.read_insert _ _ _ _ (by simp [Memory.erase]), Memory.read_erase]
    split <;> rfl

theorem State.memVal_outside (s : State) (a : Word) (h : s.inMemory a = false) : s.memVal a = 0 := by
  simp [State.memVal, h]

@[simp] theorem State.inMemory_noteReg (b : RegAddr) (s : State) (a : Word) :
    (s.noteReg b).inMemory a = s.inMemory a := by simp [State.inMemory]
@[simp] theorem State.inMemory_putReg (b : RegAddr) (v : Word) (s : State) (a : Word) :
    (s.putReg b v).inMemory a = s.inMemory a := by simp [State.inMemory]
@[simp] theorem State.inMemory_noteMem (b : Word) (s : State) (a : Word) :
    (s.noteMem b).inMemory a = s.inMemory a := by simp [State.inMemory]
@[simp] theorem State.inMemory_putMem (b : Word) (v : Byte) (s : State) (a : Word) :
    (s.putMem b v).inMemory a = s.inMemory a := by simp [State.inMemory]

@[simp] theorem State.regVal_noteMem (b : Word) (s : State) (a : RegAddr) :
    (s.noteMem b).regVal a = s.regVal a := by simp [State.regVal]
@[simp] theorem State.memVal_noteMem (b : Word) (s : State) (a : Word) :
    (s.noteMem b).memVal a = s.memVal a := by simp [State.memVal, State.inMemory]
@[simp] theorem State.regVal_putMem (b : Word) (v : Byte) (s : State) (a : RegAddr) :
    (s.putMem b v).regVal a = s.regVal a := by simp [State.regVal]

theorem State.memVal_putMem (b : Word) (v : Byte) (s : State) (a : Word) :
    (s.putMem b v).memVal a = if a = b ∧ s.inMemory b = true then v else s.memVal a := by
  by_cases hb : s.inMemory b = true
  · by_cases hab : a = b
    · subst hab
      have hb' := hb
      simp only [State.inMemory, decide_eq_true_eq] at hb'
      simp [State.memVal, State.inMemory, hb', Memory.read_write]
    · have : a.toNat ≠ b.toNat := fun h => hab (BitVec.eq_of_toNat_eq h)
      simp only [State.inMemory, decide_eq_true_eq] at hb
      simp [State.memVal, State.inMemory, hb, Memory.read_write, hab, this]
  · simp [State.memVal, State.inMemory] at hb ⊢
    simp [Nat.not_lt.mpr hb]

@[simp] theorem State.noteMem_inside (a : Word) (s : State) (h : s.inMemory a = true) : s.noteMem a = s := by
  simp [State.noteMem, h]

/-! ### The canonical form of memory -/

theorem Memory.wfFrom_mono {lo lo' : Nat} (m : Memory) (h : m.wfFrom lo' = true) (hlo : lo ≤ lo') :
    m.wfFrom lo = true := by
  cases m with
  | nil => rfl
  | cons cell rest =>
    obtain ⟨a, x⟩ := cell
    simp only [Memory.wfFrom, Bool.and_eq_true, decide_eq_true_eq] at h ⊢
    exact ⟨⟨by omega, h.1.2⟩, h.2⟩

theorem Memory.wfFrom_erase (lo : Nat) (m : Memory) (n : Nat) (h : m.wfFrom lo = true) :
    (m.erase n).wfFrom lo = true := by
  induction m generalizing lo with
  | nil => rfl
  | cons cell rest ih =>
    obtain ⟨a, x⟩ := cell
    simp only [Memory.wfFrom, Bool.and_eq_true, decide_eq_true_eq] at h
    unfold Memory.erase at ih ⊢
    by_cases ha : a = n
    · simpa [List.filter_cons, ha] using
        Memory.wfFrom_mono (lo := lo) _ (ih (a + 1) h.2) (by omega)
    · simpa [List.filter_cons, ha, Memory.wfFrom, h.1] using ih (a + 1) h.2

theorem Memory.wfFrom_insert (lo : Nat) (m : Memory) (n : Nat) (v : Byte) (h : m.wfFrom lo = true)
    (hlo : lo ≤ n) (hv : v ≠ Memory.background) (hn : ∀ cell ∈ m, cell.1 ≠ n) :
    (m.insert n v).wfFrom lo = true := by
  induction m generalizing lo with
  | nil => simp [Memory.insert, Memory.wfFrom, hlo, hv]
  | cons cell rest ih =>
    obtain ⟨a, x⟩ := cell
    simp only [Memory.wfFrom, Bool.and_eq_true, decide_eq_true_eq] at h
    have ha : a ≠ n := hn (a, x) (by simp)
    unfold Memory.insert; split
    · next hna =>
      simp only [Memory.wfFrom, Bool.and_eq_true, decide_eq_true_eq]
      exact ⟨⟨hlo, by simpa using hv⟩, ⟨by omega, h.1.2⟩, h.2⟩
    · simp only [Memory.wfFrom, Bool.and_eq_true, decide_eq_true_eq]
      exact ⟨h.1, ih (a + 1) h.2 (by omega) (fun c hc => hn c (List.mem_cons_of_mem _ hc))⟩

/-- A write keeps the canonical form. -/
theorem Memory.write_wf (m : Memory) (n : Nat) (v : Byte) (h : m.wf = true) : (m.write n v).wf = true := by
  unfold Memory.write Memory.wf
  split
  · exact Memory.wfFrom_erase _ _ _ h
  · next hv => exact Memory.wfFrom_insert _ _ _ _ (Memory.wfFrom_erase _ _ _ h) (by omega) hv (by simp [Memory.erase])

theorem Memory.mem_insert (m : Memory) (n : Nat) (v : Byte) (c : Host.Cell) (h : c ∈ m.insert n v) :
    c = (n, v) ∨ c ∈ m := by
  induction m with
  | nil => simpa [Memory.insert] using h
  | cons cell rest ih =>
    obtain ⟨a, x⟩ := cell
    unfold Memory.insert at h; split at h
    · simpa using h
    · rcases List.mem_cons.mp h with h | h
      · exact .inr (by simp [h])
      · exact (ih h).imp id (List.mem_cons_of_mem _)

/-- A write below a bound keeps every entry below it. -/
theorem Memory.write_below (m : Memory) (n : Nat) (v : Byte) (k : Nat) (h : m.below k = true) (hn : n < k) :
    (m.write n v).below k = true := by
  have he : (m.erase n).below k = true := by
    simp only [Memory.below, Memory.erase, List.all_eq_true, List.mem_filter, decide_eq_true_eq] at h ⊢
    exact fun c hc => h c hc.1
  unfold Memory.write; split
  · exact he
  · simp only [Memory.below, List.all_eq_true, decide_eq_true_eq] at he ⊢
    intro c hc
    rcases Memory.mem_insert _ _ _ _ hc with rfl | hc
    · exact hn
    · exact he c hc

/-- MemWrite keeps the canonical form. -/
theorem State.putMem_wf (a : Word) (v : Byte) (s : State) (h : s.mem.wf = true) :
    (s.putMem a v).mem.wf = true := by
  rw [State.putMem_mem]; split
  · exact Memory.write_wf _ _ _ h
  · exact h

/-- MemWrite writes only cells that exist. -/
theorem State.putMem_below (a : Word) (v : Byte) (s : State) (h : s.mem.below s.cfg.memSize = true) :
    (s.putMem a v).mem.below s.cfg.memSize = true := by
  rw [State.putMem_mem]; split
  · next hin => exact Memory.write_below _ _ _ _ h (by simpa [State.inMemory] using hin)
  · exact h

/-- The memory of State.reset has the canonical form. -/
theorem State.reset_mem_wf : State.reset.mem.wf = true := by decide

end Sys2Proof.Machine
end

