-- ==== Sys2Proof/Laws/Effects.lean ====
section
/-! SUPPORT. What each shared operation of the executors does, said once: its effect, its frame and its reports. -/

namespace Sys2Proof.Machine

/-! ### Reports -/

theorem mem_sinkReports {used : List RegAddr} {e : Event} :
    e ∈ sinkReports used ↔ ∃ a ∈ used, validReg a = false ∧ e = .report (.badRegister a) := by
  simp only [sinkReports, List.mem_filterMap]
  constructor
  · rintro ⟨a, ha, h⟩; refine ⟨a, ha, ?_⟩; split at h <;> simp_all
  · rintro ⟨a, ha, hv, rfl⟩; exact ⟨a, ha, by simp [hv]⟩

/-- The reports of a list of register accesses. -/
def badRegList (used : List RegAddr) : List Report :=
  used.filterMap (fun a => if validReg a = true then none else some (.badRegister a))

theorem sinkReports_eq_map (used : List RegAddr) :
    sinkReports used = (badRegList used).map Event.report := by
  induction used with
  | nil => rfl
  | cons a rest ih => by_cases h : validReg a = true <;> simp_all [sinkReports, badRegList]

theorem mem_badRegList {used : List RegAddr} {r : Report} : r ∈ badRegList used ↔ badRegs used r := by
  simp only [badRegList, List.mem_filterMap, badRegs]
  constructor
  · rintro ⟨a, ha, h⟩; refine ⟨a, ha, ?_⟩; split at h <;> simp_all
  · rintro ⟨a, ha, hv, rfl⟩; exact ⟨a, ha, by simp [hv]⟩

theorem sinkReports_append (l l' : List RegAddr) : sinkReports (l ++ l') = sinkReports l ++ sinkReports l' := by
  simp [sinkReports]

@[simp] theorem sinkReports_nil : sinkReports [] = [] := rfl

@[simp] theorem sinkReports_cons_append (a : RegAddr) (l : List RegAddr) (es : List Event) :
    sinkReports [a] ++ (sinkReports l ++ es) = sinkReports (a :: l) ++ es := by
  rw [← List.append_assoc, ← sinkReports_append]; rfl

@[simp] theorem sinkReports_cons_valid (a : RegAddr) (l : List RegAddr) (h : validReg a = true) :
    sinkReports (a :: l) = sinkReports l := by simp [sinkReports, h]

/-- Output that grew by the reports of the accesses in `l` reports the bad addresses among them. -/
theorem State.reports_of_sink {s t : State} {l used : List RegAddr} (h : t.out = sinkReports l ++ s.out)
    (hl : ∀ a, a ∈ l ↔ a ∈ used) : s.Reports t (badRegs used) := by
  refine ⟨badRegList l, by rw [h, sinkReports_eq_map], fun r => ?_⟩
  rw [mem_badRegList]; simp only [badRegs, hl]

/-- No output means no report. -/
theorem State.reports_none {s t : State} (h : t.out = s.out) : s.Reports t (badRegs []) :=
  State.reports_of_sink (l := []) (by simpa [sinkReports] using h) (by simp)

theorem State.sameRest_refl (s : State) : s.SameRest s := by constructor <;> rfl

/-! ### Shared operations -/

/-- An executor that does nothing. -/
theorem trapNothing_does (s : State) : DoesNothing (trapNothing s) s [] :=
  ⟨_, rfl, fun _ => rfl, fun _ => rfl, by constructor <;> rfl, rfl, State.reports_none rfl⟩

/-- `x[b] <- v` as the last access of an executor, after the reads of `used`. -/
theorem putReg_writes (s s1 : State) (b : RegAddr) (v : Word) (l used : List RegAddr)
    (hregs : ∀ a, s1.regVal a = s.regVal a) (hmem : s.SameMem s1) (hrest : s.SameRest s1)
    (hout : s1.out = sinkReports l ++ s.out) (hl : ∀ a, a ∈ b :: l ↔ a ∈ used) :
    WritesReg (.next ((s1.putReg b v).ret .cont)) s b v used := by
  refine ⟨_, rfl, fun a => ?_, fun a => ?_, ?_, rfl, ?_⟩
  · simp [State.regVal_putReg, hregs]
  · simpa using hmem a
  · obtain ⟨h1, h2, h3, h4, h5, h6, h7, h8, h9, h10, h11, h12⟩ := hrest
    constructor <;> simp [*]
  · exact State.reports_of_sink (l := b :: l) (by simp [hout]) hl

/-- `x[b] <- f(x[b], imm16)`. -/
theorem aluImm_writes (f : Word → Word → Word) (b : RegAddr) (imm : BitVec 16) (s : State) :
    WritesReg (aluImm f b imm s) s b (f (s.regVal b) (zext imm)) [b] :=
  putReg_writes s (s.noteReg b) b _ [b] [b] (by simp) (fun _ => by simp) (by constructor <;> simp)
    (by simp) (by simp)

/-- `x[b] <- f(x[b], x[c])`. -/
theorem aluReg_writes (f : Word → Word → Word) (b c : RegAddr) (s : State) :
    WritesReg (aluReg f b c s) s b (f (s.regVal b) (s.regVal c)) [c, b] := by
  have h := putReg_writes s ((s.noteReg c).noteReg b) b (f (s.regVal b) (s.regVal c)) [b, c] [c, b]
    (by simp) (fun _ => by simp) (by constructor <;> simp) (by simp) (by simp; tauto)
  simpa [aluReg] using h

/-- A division by zero. -/
theorem divZero_terminates (s s1 : State) (used : List RegAddr) (hregs : s.SameRegs s1)
    (hmem : s.SameMem s1) (hrest : s.SameRest s1) (hout : s1.out = sinkReports used ++ s.out) :
    TerminatesWith (divZero s1) s .divZero .divZero used := by
  refine ⟨_, rfl, fun a => by simpa using hregs a, fun a => by simpa using hmem a, ?_, rfl,
    .divZero :: badRegList used, by simp [hout, sinkReports_eq_map], fun r => ?_⟩
  · obtain ⟨h1, h2, h3, h4, h5, h6, h7, h8, h9, h10, h11, h12⟩ := hrest
    constructor <;> simp [*]
  · simp [mem_badRegList]

/-- A jump to an immediate offset. -/
theorem jumpImm_jumps (taken : Bool) (off : BitVec 16) (s s1 : State) (used : List RegAddr)
    (hregs : s.SameRegs s1) (hmem : s.SameMem s1) (hrest : s.SameRest s1)
    (hout : s1.out = sinkReports used ++ s.out) :
    Jumps (jumpImm taken off s1) s (taken = true) (zext off) used := by
  have hrest' : s.SameRest ((s1.putReg Reg.ipx (s1.target (zext off))).ret .cont) ∧
      s.SameRest (s1.ret .cont) := by
    obtain ⟨h1, h2, h3, h4, h5, h6, h7, h8, h9, h10, h11, h12⟩ := hrest
    constructor <;> constructor <;> simp [*]
  cases taken
  · exact ⟨_, rfl, by simp, fun _ => hregs Reg.ipx, fun a _ => by simpa using hregs a,
      fun a => by simpa using hmem a, hrest'.2, rfl, State.reports_of_sink hout (by simp)⟩
  · refine ⟨_, rfl, fun _ => ?_, by simp, fun a ha => ?_, fun a => by simpa using hmem a, hrest'.1, rfl,
      State.reports_of_sink (l := used) (by simp [hout]) (by simp)⟩
    · simp [State.regVal_putReg, State.target, State.csx, hregs _]
    · simpa [State.regVal_putReg, ha] using hregs a

/-- A jump to a register offset. -/
theorem jumpReg_jumps (taken : Bool) (b : RegAddr) (s s1 : State) (used : List RegAddr)
    (hregs : s.SameRegs s1) (hmem : s.SameMem s1) (hrest : s.SameRest s1)
    (hout : s1.out = sinkReports used ++ s.out) :
    Jumps (jumpReg taken b s1) s (taken = true) (s.regVal b)
      (if taken = true then used ++ [b] else used) := by
  have hrest' : s.SameRest (((s1.noteReg b).putReg Reg.ipx
        ((s1.noteReg b).target (s1.regVal b))).ret .cont) ∧ s.SameRest (s1.ret .cont) := by
    obtain ⟨h1, h2, h3, h4, h5, h6, h7, h8, h9, h10, h11, h12⟩ := hrest
    constructor <;> constructor <;> simp [*]
  cases taken
  · exact ⟨_, rfl, by simp, fun _ => hregs Reg.ipx, fun a _ => by simpa using hregs a,
      fun a => by simpa using hmem a, hrest'.2, rfl, State.reports_of_sink hout (by simp)⟩
  · refine ⟨_, rfl, fun _ => ?_, by simp, fun a ha => ?_, fun a => by simpa using hmem a, hrest'.1, rfl,
      State.reports_of_sink (l := b :: used) (by simp [hout]) (by simp; tauto)⟩
    · simp [State.regVal_putReg, State.target, State.csx, hregs _]
    · simpa [State.regVal_putReg, ha] using hregs a

/-- An output service. -/
theorem consoleOut_sends (c : ConsoleEvent) (s : State) : SendsConsole (consoleOut c s) s c :=
  ⟨_, rfl, rfl, fun _ => rfl, fun _ => rfl, by constructor <;> rfl, rfl⟩

/-- A store as the last access of an executor, after the reads of `used`. -/
theorem putMem_stores (s s1 : State) (addr : Word) (v : Byte) (used : List RegAddr)
    (hregs : s.SameRegs s1) (hmem : s.SameMem s1) (hrest : s.SameRest s1)
    (hout : s1.out = sinkReports used ++ s.out) :
    StoresByte (.next ((s1.putMem addr v).ret .cont)) s addr v used := by
  have hin : ∀ a, s1.inMemory a = s.inMemory a := fun a => by simp [State.inMemory, hrest.cfg]
  refine ⟨_, rfl, fun a => ?_, fun a => by simpa using hregs a, ?_, rfl, ?_⟩
  · simp [State.memVal_putMem, hin, hmem a]
  · obtain ⟨h1, h2, h3, h4, h5, h6, h7, h8, h9, h10, h11, h12⟩ := hrest
    constructor <;> simp [*]
  · by_cases h : s.inMemory addr = true
    · refine ⟨badRegList used, by simp [outsideReports, hin, h, hout, sinkReports_eq_map], fun r => ?_⟩
      simp [mem_badRegList, badAddr, h]
    · simp only [Bool.not_eq_true] at h
      refine ⟨.badIndex addr :: badRegList used,
        by simp [outsideReports, hin, h, hout, sinkReports_eq_map], fun r => ?_⟩
      simp [mem_badRegList, badAddr, h, or_comm]

/-! ### The sequencer -/

/-- A step of a core that is ready for an instruction. -/
theorem step_ready {s : State} (h : s.Ready) : step s = afterExec (execute s.fetched s.noteFetch) := by
  simp [step, runSequencer, h.mode, h.ended, h.wait, runStep]

/-- What follows a completed instruction. -/
theorem finish_completed {t : State} (h : t.wait = .none) : t.finish = t.postIncrement.debugView := by
  simp [State.finish, h]

/-- What follows a suspended or hung instruction. -/
theorem finish_waiting {t : State} (h : t.wait ≠ .none) : t.finish = t := by
  unfold State.finish; split <;> simp_all

/-- Everything a step can do: nothing after `quit` or while it waits in vain, a request in Idle, an instruction, or the end of a wait. -/
theorem step_cases {s : State} {o : Result} (h : step s = o) :
    (s.ended = true ∧ o = .next s) ∨
    (s.ended = false ∧ s.mode = .idle ∧ o = .next s.idleStep) ∨
    (s.Ready ∧ o = afterExec (execute s.fetched s.noteFetch)) ∨
    (s.ended = false ∧ s.mode = .running ∧ s.wait ≠ .none ∧ o = waitStep s.wait s) := by
  unfold step runSequencer at h
  split at h
  · exact .inl ⟨by assumption, h.symm⟩
  · have he : s.ended = false := by simpa using ‹¬ s.ended = true›
    split at h
    · exact .inr (.inl ⟨he, by assumption, h.symm⟩)
    · split at h
      · exact .inr (.inr (.inl ⟨⟨by assumption, he, by assumption⟩, h.symm⟩))
      · exact .inr (.inr (.inr ⟨he, by assumption, by assumption, h.symm⟩))

/-- Everything the end of a step can be: a halt for the first reason that applies, or no change. -/
theorem conclude_cases (stop : Bool) (s : State) :
    (∃ r, s.code = .terminate r ∧ s.conclude stop = s.halt r) ∨
    (s.code = .cont ∧ stop = true ∧ s.conclude stop = s.halt .debugStop) ∨
    (s.code = .cont ∧ stop = false ∧ s.bound.toNat ≤ s.ipx.toNat ∧ s.conclude stop = s.halt .endOfCode) ∨
    (s.code = .cont ∧ stop = false ∧ s.ipx.toNat < s.bound.toNat ∧ s.conclude stop = s) := by
  unfold State.conclude
  split
  · exact .inl ⟨_, by assumption, rfl⟩
  · cases stop
    · by_cases h : s.bound.toNat ≤ s.ipx.toNat
      · simp_all
      · simp_all
    · simp_all

/-- Everything the debug view can do: conclude with or without a view, or wait for the host's answer. -/
theorem debugView_cases (s : State) :
    (s.dbg = .none ∧ s.debugView = s.conclude false) ∨
    (s.dbg ≠ .none ∧ s.dbg ≠ .step ∧ s.debugView = s.view.conclude false) ∨
    (s.dbg = .step ∧ s.answers = [] ∧ s.debugView = { s.view with wait := .debugAnswer }) ∨
    (s.dbg = .step ∧ ∃ ans rest, s.answers = ans :: rest ∧
      s.debugView = { s.view with answers := rest }.conclude (answerStops ans)) := by
  unfold State.debugView
  split <;> simp_all
  split <;> simp_all

end Sys2Proof.Machine
end

