-- ==== Sys2Proof/Laws/Encoding.lean ====
section
/-! SUPPORT. Splitting a field into its bytes and assembling it again (R82). -/

namespace Sys2Proof

/-- A 16-bit field is its high byte followed by its low byte. -/
theorem hiByte_append_loByte (v : BitVec 16) : hiByte v ++ loByte v = v := by
  apply BitVec.eq_of_getLsbD_eq; intro i hi
  simp only [hiByte, loByte, BitVec.getLsbD_append, BitVec.getLsbD_extractLsb']
  by_cases h : i < 8
  · simp [h]
  · simp [h, show i - 8 < 8 by omega, show 8 + (i - 8) = i by omega]

@[simp] theorem hiByte_append (c d : Byte) : hiByte (c ++ d) = c := by
  apply BitVec.eq_of_getLsbD_eq; intro i hi
  rw [hiByte, BitVec.getLsbD_extractLsb']
  refine (congrArg _ (BitVec.getLsbD_append (x := c) (y := d))).trans ?_
  simp [hi]

@[simp] theorem loByte_append (c d : Byte) : loByte (c ++ d) = d := by
  apply BitVec.eq_of_getLsbD_eq; intro i hi
  rw [loByte, BitVec.getLsbD_extractLsb']
  refine (congrArg _ (BitVec.getLsbD_append (x := c) (y := d))).trans ?_
  simp [hi]

/-- A 24-bit field is its three bytes. -/
theorem bytes24_append (v : BitVec 24) :
    v.extractLsb' 16 8 ++ v.extractLsb' 8 8 ++ v.extractLsb' 0 8 = v := by
  apply BitVec.eq_of_getLsbD_eq; intro i hi
  simp only [BitVec.getLsbD_append, BitVec.getLsbD_extractLsb']
  by_cases h : i < 8
  · simp [h]
  · by_cases h2 : i < 16
    · simp [h, show i - 8 < 8 by omega, show 8 + (i - 8) = i by omega]
    · simp [h, show ¬ i - 8 < 8 by omega, show i - 8 - 8 < 8 by omega,
        show 16 + (i - 8 - 8) = i by omega]

@[simp] theorem byte2_append (b c d : Byte) : (b ++ c ++ d).extractLsb' 16 8 = b := by
  apply BitVec.eq_of_getLsbD_eq; intro i hi
  rw [BitVec.getLsbD_extractLsb']
  refine (congrArg _ (BitVec.getLsbD_append (x := b ++ c) (y := d))).trans ?_
  rw [BitVec.getLsbD_append]
  simp [hi, show ¬ 16 + i < 8 by omega, show ¬ 16 + i - 8 < 8 by omega, show 16 + i - 8 - 8 = i by omega]

@[simp] theorem byte1_append (b c d : Byte) : (b ++ c ++ d).extractLsb' 8 8 = c := by
  apply BitVec.eq_of_getLsbD_eq; intro i hi
  rw [BitVec.getLsbD_extractLsb']
  refine (congrArg _ (BitVec.getLsbD_append (x := b ++ c) (y := d))).trans ?_
  rw [BitVec.getLsbD_append]
  simp [hi]

@[simp] theorem byte0_append (b c d : Byte) : (b ++ c ++ d).extractLsb' 0 8 = d := by
  apply BitVec.eq_of_getLsbD_eq; intro i hi
  rw [BitVec.getLsbD_extractLsb']
  refine (congrArg _ (BitVec.getLsbD_append (x := b ++ c) (y := d))).trans ?_
  rw [BitVec.getLsbD_append]
  simp [hi]

end Sys2Proof
end

