-- ==== Sys2Proof/Laws/Reroll.lean ====
section
/-! SUPPORT. The re-roll of `ssx`: what its set of values contains, what a draw selects, and what the load of `slx` does. -/

namespace Sys2Proof.Machine

theorem inRange_cons (iv : Interval) (rest : List Interval) (v : Nat) :
    inRange (iv :: rest) v = true ↔ (iv.1 ≤ v ∧ v < iv.2) ∨ inRange rest v = true := by
  simp [inRange]

theorem inRange_append (l r : List Interval) (v : Nat) :
    inRange (l ++ r) v = true ↔ inRange l v = true ∨ inRange r v = true := by
  simp [inRange]

theorem nthOf_inRange (ivs : List Interval) (k : Nat) (h : k < rangeSize ivs) :
    inRange ivs (nthOf ivs k) = true := by
  induction ivs generalizing k with
  | nil => simp [rangeSize] at h
  | cons iv rest ih =>
    rw [inRange_cons]
    simp only [rangeSize, nthOf] at *
    split
    · left; simp only [intervalSize] at *; omega
    · right; exact ih _ (by omega)

theorem nthOf_surjective (ivs : List Interval) (v : Nat) (h : inRange ivs v = true) :
    ∃ k < rangeSize ivs, nthOf ivs k = v := by
  induction ivs with
  | nil => simp [inRange] at h
  | cons iv rest ih =>
    rw [inRange_cons] at h
    rcases h with h | h
    · refine ⟨v - iv.1, ?_, ?_⟩
      · simp only [rangeSize, intervalSize]; omega
      · simp only [nthOf]
        rw [if_pos (by unfold intervalSize; omega)]; omega
    · obtain ⟨k, hk, hv⟩ := ih h
      refine ⟨intervalSize iv + k, ?_, ?_⟩
      · simp only [rangeSize]; omega
      · simp only [nthOf]; rw [if_neg (by omega)]; simpa using hv

/-- A draw selects a member of the set. -/
theorem drawFrom_some {ivs : List Interval} {k v : Nat} (h : drawFrom ivs k = some v) :
    inRange ivs v = true := by
  unfold drawFrom at h; split at h
  · cases h
  · injection h with h; rw [← h]; exact nthOf_inRange _ _ (Nat.mod_lt _ (by omega))

/-- A draw fails only on the empty set. -/
theorem drawFrom_none {ivs : List Interval} {k : Nat} (h : drawFrom ivs k = none) (v : Nat) :
    inRange ivs v = false := by
  by_contra hv
  simp only [Bool.not_eq_false] at hv
  obtain ⟨k, hk, hv⟩ := nthOf_surjective _ _ hv
  unfold drawFrom at h; rw [if_neg (by omega)] at h; cases h

theorem inRange_disjointParts (l c n : Nat) (iv : Interval) (v : Nat) :
    inRange (disjointParts l c n (clip32 iv)) v = true ↔
      (iv.1 ≤ v ∧ v < iv.2) ∧ v < 2 ^ 32 ∧ (l = 0 ∨ n = 0 ∨ v + l ≤ c ∨ c + n ≤ v) := by
  unfold disjointParts
  split
  · next h => simp at h; simp [inRange, clip32]; omega
  · next h => simp at h; simp [inRange, clip32]; omega

/-- The set of the re-roll, value by value. -/
theorem inRange_rerollSet (range : List Interval) (l c n v : Nat) :
    inRange (rerollSet range l c n) v = true ↔
      inRange range v = true ∧ v < 2 ^ 32 ∧ (l = 0 ∨ n = 0 ∨ v + l ≤ c ∨ c + n ≤ v) := by
  induction range with
  | nil => simp [rerollSet, inRange]
  | cons iv rest ih =>
    have : rerollSet (iv :: rest) l c n = disjointParts l c n (clip32 iv) ++ rerollSet rest l c n := rfl
    rw [this, inRange_append, inRange_disjointParts, ih, inRange_cons]; tauto

theorem State.inRange_rerollSet (s : State) (v : Nat) :
    inRange s.rerollSet v = true ↔ s.RerollSolution s.slx v :=
  Machine.inRange_rerollSet _ _ _ _ _

theorem State.rerollSolution_congr {s s' : State} (l : Word) (v : Nat) (hc : s'.cfg = s.cfg)
    (h1 : s'.csx = s.csx) (h2 : s'.clx = s.clx) : s'.RerollSolution l v ↔ s.RerollSolution l v := by
  simp [State.RerollSolution, *]

/-- A load that re-rolled used up a draw, so it did not hang. -/
theorem rerollsSsx_not_hangs {o : Result} {s : State} {v : Word} {used used' : List RegAddr}
    (h : RerollsSsx o s v used) : ¬ HangsInReroll o s v used' := by
  rintro ⟨t, rfl, -, -, hh, -⟩
  obtain ⟨t', x, ht, -, -, -, hr, -⟩ := h
  injection ht with ht
  have h1 := hh.draws
  have h2 := hr.draws
  rw [← ht, h1] at h2
  simp at h2

/-- A load of `slx` as the last access of an executor, after the reads of `used`: the re-roll, or the hang. -/
theorem loadReg_slx (s s1 : State) (v : Word) (l used : List RegAddr) (hregs : s.SameRegs s1)
    (hmem : s.SameMem s1) (hrest : s.SameRest s1) (hout : s1.out = sinkReports l ++ s.out)
    (hl : ∀ a, validReg a = false → (a ∈ l ↔ a ∈ used)) :
    ((∃ x, s.RerollSolution v x) →
      RerollsSsx (.next ((s1.loadReg Reg.slx v).ret .cont)) s v used) ∧
    ((¬ ∃ x, s.RerollSolution v x) →
      HangsInReroll (.next ((s1.loadReg Reg.slx v).ret .cont)) s v used) := by
  have hcsx : Reg.csx ≠ Reg.slx := by decide
  have hclx : Reg.clx ≠ Reg.slx := by decide
  have hssx : Reg.ssx ≠ Reg.slx := by decide
  have hsol : ∀ x, inRange (s1.putReg Reg.slx v).rerollSet x = true ↔ s.RerollSolution v x := by
    intro x
    rw [State.inRange_rerollSet, State.rerollSolution_congr (s := s)]
    · simp [State.slx, State.regVal_putReg]
    · simp [hrest.cfg]
    · simp [State.csx, State.regVal_putReg, hcsx, hregs _]
    · simp [State.clx, State.regVal_putReg, hclx, hregs _]
  have hrep : ∀ t : State, t.out = s1.out → s.Reports t (badRegs used) := fun t ht =>
    ⟨badRegList l, by rw [ht, hout, sinkReports_eq_map], fun r => by
      rw [mem_badRegList]
      exact ⟨fun ⟨a, ha, hv, hr⟩ => ⟨a, (hl a hv).mp ha, hv, hr⟩,
        fun ⟨a, ha, hv, hr⟩ => ⟨a, (hl a hv).mpr ha, hv, hr⟩⟩⟩
  obtain ⟨h1, h2, h3, h4, h5, h6, h7, h8, h9, h10, h11, h12⟩ := hrest
  simp only [State.loadReg, if_true, State.rerollSsx]
  constructor
  · rintro ⟨x, hx⟩
    cases hd : drawFrom (s1.putReg Reg.slx v).rerollSet (s1.putReg Reg.slx v).drawn with
    | none =>
      have := drawFrom_none hd x
      rw [← Bool.not_eq_true, hsol] at this
      exact absurd hx this
    | some y =>
      refine ⟨_, y, rfl, (hsol y).mp (drawFrom_some hd), fun a => ?_, fun a => by simpa using hmem a,
        by constructor <;> simp [*], rfl, hrep _ (by simp)⟩
      simp only [State.regVal_ret, State.regVal_putReg, State.regVal_countDraw, hregs a, validReg_slx,
        validReg_ssx, and_true]
      by_cases ha : a = Reg.ssx
      · simp [ha, hssx]
      · simp [ha]
  · intro hno
    cases hd : drawFrom (s1.putReg Reg.slx v).rerollSet (s1.putReg Reg.slx v).drawn with
    | some y => exact absurd ⟨y, (hsol y).mp (drawFrom_some hd)⟩ hno
    | none =>
      refine ⟨_, rfl, fun a => ?_, fun a => ?_, by constructor <;> simp [*], hrep _ (by simp)⟩
      · show (s1.putReg Reg.slx v).regVal a = _
        simp [State.regVal_putReg, hregs a]
      · show (s1.putReg Reg.slx v).memVal a = _
        simpa using hmem a

end Sys2Proof.Machine
end

