-- ==== Sys2Proof/Laws/Traps.lean ====
section
/-! SUPPORT. What the trap services and the code copy do, said once for each of their loops. -/

namespace Sys2Proof.Machine

/-- Both trap forms run the dispatcher on the state they are given (R120, R121). -/
theorem trapsWith_exec {i : Instr} {s : State} {t : Word} (h : TrapsWith i s t) :
    exec i s = trap t s := by
  rcases h with ⟨imm, rfl, h⟩ | ⟨b, rfl, hv, h⟩
  · simp [exec, execExcV, zext, h]
  · simp [exec, execExcX, hv, h]

/-- A read service is reached by its number. -/
theorem consoleService_read {s : State} {svc : ReadService} (hs : s.sx = serviceNumber svc) :
    consoleService s = readLine svc s := by
  cases svc <;> simp [serviceNumber] at hs <;> simp [consoleService, hs]

theorem ofNat_succ_shift (addr : Word) (j : Nat) :
    addr + 1 + BitVec.ofNat 32 j = addr + BitVec.ofNat 32 (j + 1) := by
  apply BitVec.eq_of_toNat_eq; simp; omega

/-- Accesses at `addr` and then at the following ones are accesses at `addr` plus each index. -/
theorem exists_shift {P : Word → Prop} {addr : Word} {n : Nat} :
    (∃ j, j < n + 1 ∧ P (addr + BitVec.ofNat 32 j)) ↔
      P addr ∨ ∃ j, j < n ∧ P (addr + 1 + BitVec.ofNat 32 j) := by
  constructor
  · rintro ⟨j, hj, h⟩
    cases j with
    | zero => left; simpa using h
    | succ j => right; exact ⟨j, by omega, by rw [ofNat_succ_shift]; exact h⟩
  · rintro (h | ⟨j, hj, h⟩)
    · exact ⟨0, by omega, by simpa using h⟩
    · exact ⟨j + 1, by omega, by rw [← ofNat_succ_shift]; exact h⟩

/-- The report of one address. -/
theorem outsideReports_one (s : State) (a : Word) :
    outsideReports s [a] =
      (if s.inMemory a = true then [] else [Report.badIndex a]).map Event.report := by
  by_cases h : s.inMemory a = true <;> simp [outsideReports, h]

/-! ### Strings (R132) -/

theorem stringBytes_length (n : Nat) (addr : Word) (s : State) : (stringBytes n addr s).length = n := by
  induction n generalizing addr with
  | zero => rfl
  | succ n ih => simp [stringBytes, ih]

theorem stringBytes_get (n : Nat) (addr : Word) (s : State) (j : Nat) (hj : j < n) :
    (stringBytes n addr s)[j]? = some (s.memVal (addr + BitVec.ofNat 32 j)) := by
  induction n generalizing addr j with
  | zero => omega
  | succ n ih =>
    cases j with
    | zero => simp [stringBytes]
    | succ j => simp only [stringBytes, List.getElem?_cons_succ]; rw [ih _ _ (by omega), ofNat_succ_shift]

/-- Reading a string reports the bytes outside memory and changes nothing else. -/
theorem noteString_spec (n : Nat) (addr : Word) (s : State) :
    (noteString n addr s = { s with out := (noteString n addr s).out }) ∧
    ∃ rs : List Report, (noteString n addr s).out = rs.map Event.report ++ s.out ∧
      ∀ r, r ∈ rs ↔ ∃ j, j < n ∧ badAddr s (addr + BitVec.ofNat 32 j) r := by
  induction n generalizing addr s with
  | zero => exact ⟨rfl, [], rfl, by simp⟩
  | succ n ih =>
    have hb : ∀ a r, badAddr (s.noteMem addr) a r ↔ badAddr s a r := fun a r => by simp [badAddr]
    obtain ⟨h0, rs, h1, h2⟩ := ih (addr + 1) (s.noteMem addr)
    have hn : s.noteMem addr = { s with out := (s.noteMem addr).out } := by
      unfold State.noteMem; split <;> rfl
    refine ⟨?_, ?_⟩
    · simp only [noteString]; rw [h0]; rw [hn]
    · have key : ∀ r, (∃ j, j < n + 1 ∧ badAddr s (addr + BitVec.ofNat 32 j) r) ↔
          badAddr s addr r ∨ ∃ j, j < n ∧ badAddr s (addr + 1 + BitVec.ofNat 32 j) r :=
        fun r => exists_shift (P := fun a => badAddr s a r)
      simp only [hb] at h2
      by_cases hm : s.inMemory addr = true
      · refine ⟨rs, by simpa [noteString, hm] using h1, fun r => ?_⟩
        rw [h2, key]; simp [badAddr, hm]
      · simp only [Bool.not_eq_true] at hm
        refine ⟨rs ++ [.badIndex addr], by simpa [noteString, State.noteMem, hm] using h1, fun r => ?_⟩
        rw [List.mem_append, h2, key]; simp [badAddr, hm, or_comm]

/-! ### Bytes stored one by one (R137, R255) -/

theorem storedFrom_nil (s t : State) (addr : Word) (h : s.SameMem t) : StoredFrom s t addr [] :=
  ⟨by simp, fun a _ => h a⟩

/-- One more byte in front. -/
theorem storedFrom_cons {s s1 t : State} {addr : Word} {v : Byte} {rest : List Byte}
    (h : StoredFrom s1 t (addr + 1) rest) (hin : ∀ a, s1.inMemory a = s.inMemory a)
    (h1 : ∀ a, s1.memVal a = if a = addr ∧ s.inMemory addr = true then v else s.memVal a) :
    StoredFrom s t addr (v :: rest) := by
  refine ⟨fun j w hj hlast => ?_, fun a ha => ?_⟩
  · cases j with
    | zero =>
      have hout : ∀ k, k < rest.length → addr + BitVec.ofNat 32 0 ≠ addr + 1 + BitVec.ofNat 32 k :=
        fun k hk => by
          rw [ofNat_succ_shift]
          exact Ne.symm (hlast (k + 1) (by omega) (by simpa using hk))
      rw [h.2 _ hout, h1]
      simp only [List.getElem?_cons_zero, Option.some.injEq] at hj
      by_cases hm : s.inMemory addr = true
      · simp [hm, hj]
      · simp only [Bool.not_eq_true] at hm
        simp [hm, State.memVal_outside]
    | succ j =>
      have := h.1 j w (by simpa using hj) (fun k hk hk' => by
        rw [ofNat_succ_shift, ofNat_succ_shift]
        exact hlast (k + 1) (by omega) (by simpa using hk'))
      rw [ofNat_succ_shift, hin] at this
      exact this
  · rw [h.2 a (fun j hj => by rw [ofNat_succ_shift]; exact ha (j + 1) (by simpa using hj)), h1]
    have : a ≠ addr := by simpa using ha 0 (by simp)
    simp [this]

/-- The reports of bytes stored one by one. -/
theorem storeReports_cons {s s1 : State} {addr : Word} {rest : List Byte} {rs : List Report}
    (hin : ∀ a, s1.inMemory a = s.inMemory a)
    (h : ∀ r, r ∈ rs ↔ ∃ j, j < rest.length ∧ badAddr s1 (addr + 1 + BitVec.ofNat 32 j) r) (v : Byte) :
    ∀ r, (r ∈ rs ++ (if s.inMemory addr = true then [] else [.badIndex addr])) ↔
      ∃ j, j < (v :: rest).length ∧ badAddr s (addr + BitVec.ofNat 32 j) r := by
  intro r
  rw [List.length_cons, exists_shift (P := fun a => badAddr s a r), List.mem_append, h]
  have hb : ∀ a, badAddr s1 a r ↔ badAddr s a r := fun a => by simp [badAddr, hin]
  simp only [hb]
  by_cases hm : s.inMemory addr = true
  · simp [hm, badAddr]
  · simp only [Bool.not_eq_true] at hm
    simp [hm, badAddr, or_comm]

/-- The code copy: the bytes in memory, the reports of those outside, and nothing else. -/
theorem copyCode_spec (addr : Word) (img : Image) (s : State) :
    StoredFrom s (copyCode addr img s) addr img ∧
    copyCode addr img s =
      { s with mem := (copyCode addr img s).mem, out := (copyCode addr img s).out } ∧
    ∃ rs : List Report, (copyCode addr img s).out = rs.map Event.report ++ s.out ∧
      ∀ r, r ∈ rs ↔ ∃ j, j < img.length ∧ badAddr s (addr + BitVec.ofNat 32 j) r := by
  induction img generalizing addr s with
  | nil => exact ⟨storedFrom_nil _ _ _ (fun _ => rfl), rfl, [], rfl, by simp⟩
  | cons v rest ih =>
    obtain ⟨h1, h2, rs, h3, h4⟩ := ih (addr + 1) (s.putMem addr v)
    have hin : ∀ a, (s.putMem addr v).inMemory a = s.inMemory a := by simp
    have hp : s.putMem addr v = { s with mem := (s.putMem addr v).mem, out := (s.putMem addr v).out } := by
      unfold State.putMem; split <;> rfl
    refine ⟨storedFrom_cons h1 hin (fun a => State.memVal_putMem _ _ _ _), ?_, _, ?_,
      storeReports_cons hin h4 v⟩
    · simp only [copyCode]; rw [h2]; rw [hp]
    · simp only [copyCode, h3]
      by_cases hm : s.inMemory addr = true <;> simp [State.putMem, hm]

/-- The pushes of a line: the characters in memory from the pre-incremented `spx` on, `spx` at the last one, the reports, and nothing else. -/
theorem pushLine_spec (L : List Byte) (s : State) :
    StoredFrom s (pushLine L s) (s.spx + 1) L ∧
    (∀ a, (pushLine L s).regVal a =
      if a = Reg.spx then s.spx + BitVec.ofNat 32 L.length else s.regVal a) ∧
    pushLine L s =
      { s with rf := (pushLine L s).rf, mem := (pushLine L s).mem, out := (pushLine L s).out } ∧
    ∃ rs : List Report, (pushLine L s).out = rs.map Event.report ++ s.out ∧
      ∀ r, r ∈ rs ↔ ∃ j, j < L.length ∧ badAddr s (s.spx + 1 + BitVec.ofNat 32 j) r := by
  induction L generalizing s with
  | nil =>
    refine ⟨storedFrom_nil _ _ _ (fun _ => rfl), fun a => ?_, rfl, [], rfl, by simp⟩
    simp only [pushLine, List.length_nil]; split
    · next h => simp [h, State.spx]
    · rfl
  | cons v rest ih =>
    let s1 := (s.putReg Reg.spx (s.spx + 1)).putMem (s.spx + 1) v
    have hspx : s1.spx = s.spx + 1 := by simp [s1, State.spx, State.regVal_putReg]
    obtain ⟨h1, hr, h2, rs, h3, h4⟩ := ih s1
    rw [hspx] at h1 h4 hr
    have hin : ∀ a, s1.inMemory a = s.inMemory a := by simp [s1]
    have hp : s1 = { s with rf := s1.rf, mem := s1.mem, out := s1.out } := by
      simp only [s1, State.putMem, State.putReg, validReg_spx, if_true]; split <;> rfl
    have hl : pushLine (v :: rest) s = pushLine rest s1 := rfl
    rw [hl]
    refine ⟨storedFrom_cons h1 hin (fun a => ?_), fun a => ?_, ?_, _, ?_, storeReports_cons hin h4 v⟩
    · simp [s1, State.memVal_putMem]
    · rw [hr, List.length_cons, ofNat_succ_shift]; split
      · rfl
      · next h => simp [s1, State.regVal_putReg, h]
    · rw [h2]; rw [hp]
    · rw [h3]
      have ho : s1.out = outsideReports s [s.spx + 1] ++ s.out := by
        simp only [s1, State.putMem_out, State.putReg_out, sinkReports_cons_valid _ _ validReg_spx]
        rfl
      rw [ho, outsideReports_one, List.map_append, List.append_assoc]

end Sys2Proof.Machine
end

