-- ==== Sys2Proof/Laws/Frame.lean ====
section
/-! SUPPORT. What no executor changes: the frame of exec over all instructions, and of the sequencer around it. -/

namespace Sys2Proof.Machine

/-- From `s` to `t` only reports and console events were sent out. -/
def State.Sends (s t : State) : Prop := ∃ es, t.out = es ++ s.out ∧ ∀ e ∈ es, e.ofExecutor = true

theorem State.sends_none {s t : State} (h : t.out = s.out) : s.Sends t := ⟨[], h, by simp⟩

theorem State.Sends.trans {s t u : State} (h : s.Sends t) (h' : t.Sends u) : s.Sends u := by
  obtain ⟨es, h, hp⟩ := h
  obtain ⟨es', h', hp'⟩ := h'
  exact ⟨es' ++ es, by simp [h, h'], fun e he => (List.mem_append.mp he).elim (hp' e) (hp e)⟩

theorem ofExecutor_sinkReports {l : List RegAddr} {e : Event} (h : e ∈ sinkReports l) :
    e.ofExecutor = true := by
  obtain ⟨a, -, -, rfl⟩ := mem_sinkReports.mp h; rfl

theorem ofExecutor_outsideReports {s : State} {l : List Word} {e : Event} (h : e ∈ outsideReports s l) :
    e.ofExecutor = true := by
  obtain ⟨a, -, h⟩ := List.mem_filterMap.mp h
  split at h <;> cases h; rfl

/-- What every executor leaves alone: parameters, mode, process, debug mode, latch, host queues, the canonical form of memory, and what was sent out, to which it adds only reports and console events. -/
structure State.Frame (s t : State) : Prop where
  cfg : t.cfg = s.cfg
  mode : t.mode = s.mode
  proc : t.proc = s.proc
  dbg : t.dbg = s.dbg
  eoc : t.eoc = s.eoc
  ended : t.ended = s.ended
  hostCmds : t.hostCmds = s.hostCmds
  answers : t.answers = s.answers
  memWf : s.mem.wf = true → t.mem.wf = true
  memBelow : s.mem.below s.cfg.memSize = true → t.mem.below t.cfg.memSize = true
  out : s.Sends t

theorem State.Frame.refl (s : State) : s.Frame s :=
  ⟨rfl, rfl, rfl, rfl, rfl, rfl, rfl, rfl, id, id, State.sends_none rfl⟩

theorem State.Frame.trans {s t u : State} (h : s.Frame t) (h' : t.Frame u) : s.Frame u where
  cfg := h'.cfg.trans h.cfg
  mode := h'.mode.trans h.mode
  proc := h'.proc.trans h.proc
  dbg := h'.dbg.trans h.dbg
  eoc := h'.eoc.trans h.eoc
  ended := h'.ended.trans h.ended
  hostCmds := h'.hostCmds.trans h.hostCmds
  answers := h'.answers.trans h.answers
  memWf := h'.memWf ∘ h.memWf
  memBelow := h'.memBelow ∘ h.memBelow
  out := h.out.trans h'.out

theorem State.frame_noteReg (a : RegAddr) (s : State) : s.Frame (s.noteReg a) := by
  constructor
  case out => exact ⟨_, State.noteReg_out a s, fun _ => ofExecutor_sinkReports⟩
  all_goals simp

theorem State.frame_putReg (a : RegAddr) (v : Word) (s : State) : s.Frame (s.putReg a v) := by
  constructor
  case out => exact ⟨_, State.putReg_out a v s, fun _ => ofExecutor_sinkReports⟩
  all_goals simp

theorem State.frame_noteMem (a : Word) (s : State) : s.Frame (s.noteMem a) := by
  constructor
  case out => exact ⟨_, State.noteMem_out a s, fun _ => ofExecutor_outsideReports⟩
  all_goals simp

theorem State.frame_putMem (a : Word) (v : Byte) (s : State) : s.Frame (s.putMem a v) where
  cfg := by simp
  mode := by simp
  proc := by simp
  dbg := by simp
  eoc := by simp
  ended := by simp
  hostCmds := by simp
  answers := by simp
  memWf := State.putMem_wf a v s
  memBelow h := by simpa using State.putMem_below a v s h
  out := ⟨_, State.putMem_out a v s, fun _ => ofExecutor_outsideReports⟩

theorem State.frame_emit (e : Event) (s : State) (he : e.ofExecutor = true := by rfl) :
    s.Frame (s.emit e) :=
  ⟨rfl, rfl, rfl, rfl, rfl, rfl, rfl, rfl, id, id, [e], rfl, by simpa using he⟩

/-- Fields outside the frame may change. -/
theorem State.frame_update (s : State) (rf : RegFile) (ec : Word) (code : Code) (wait : Wait)
    (lines : List (List Byte)) (draws : Nat) :
    s.Frame { s with rf := rf, ec := ec, code := code, wait := wait, lines := lines, draws := draws } :=
  ⟨rfl, rfl, rfl, rfl, rfl, rfl, rfl, rfl, id, id, State.sends_none rfl⟩

theorem State.frame_countDraw (s : State) : s.Frame s.countDraw :=
  s.frame_update s.rf s.ec s.code s.wait s.lines (s.draws + 1)

/-- What `exec` does to every state besides the effect of its instruction. -/
structure ExecFrame (s t : State) : Prop where
  frame : s.Frame t
  /-- An instruction completes, hangs in a re-roll, or is suspended in a read. -/
  wait : t.wait = s.wait ∨ (t.code = .cont ∧ (t.wait = .hung ∨ ∃ svc, t.wait = .line svc))

/-- Every executor but the traps ends with `ret` after reads and writes. -/
theorem execFrame_ret {s t : State} (c : Code) (h : s.Frame t) (hw : t.wait = s.wait) :
    ExecFrame s (t.ret c) :=
  ⟨h.trans (State.frame_update t t.rf t.ec c t.wait t.lines t.draws), .inl (by simpa using hw)⟩

theorem aluImm_frame {f : Word → Word → Word} {b : RegAddr} {imm : BitVec 16} {s t : State}
    (h : aluImm f b imm s = .next t) : ExecFrame s t := by
  cases h
  exact execFrame_ret _ ((State.frame_noteReg _ _).trans (State.frame_putReg _ _ _)) (by simp)

theorem aluReg_frame {f : Word → Word → Word} {b c : RegAddr} {s t : State}
    (h : aluReg f b c s = .next t) : ExecFrame s t := by
  cases h
  exact execFrame_ret _ (((State.frame_noteReg _ _).trans (State.frame_noteReg _ _)).trans
    (State.frame_putReg _ _ _)) (by simp)

theorem jumpImm_frame {taken : Bool} {off : BitVec 16} {s t : State}
    (h : jumpImm taken off s = .next t) : ExecFrame s t := by
  unfold jumpImm at h; split at h <;> cases h
  · exact execFrame_ret _ (State.frame_putReg _ _ _) (by simp)
  · exact execFrame_ret _ (State.Frame.refl _) rfl

theorem jumpReg_frame {taken : Bool} {b : RegAddr} {s t : State}
    (h : jumpReg taken b s = .next t) : ExecFrame s t := by
  unfold jumpReg at h; split at h <;> cases h
  · exact execFrame_ret _ ((State.frame_noteReg _ _).trans (State.frame_putReg _ _ _)) (by simp)
  · exact execFrame_ret _ (State.Frame.refl _) rfl

/-- A read before the rest of an executor. -/
theorem ExecFrame.noteReg {a : RegAddr} {s t : State} (h : ExecFrame (s.noteReg a) t) : ExecFrame s t :=
  ⟨(State.frame_noteReg a s).trans h.frame, by simpa using h.wait⟩

theorem divZero_frame {s t : State} (h : divZero s = .next t) : ExecFrame s t := by
  cases h; exact execFrame_ret _ (State.frame_emit _ _) rfl

theorem loadReg_frame (b : RegAddr) (v : Word) (s : State) :
    ExecFrame s ((s.loadReg b v).ret .cont) := by
  unfold State.loadReg
  dsimp only
  split
  · unfold State.rerollSsx; split
    · exact execFrame_ret _ ((State.frame_putReg b v s).trans
        ((State.frame_countDraw _).trans (State.frame_putReg _ _ _))) (by simp)
    · refine ⟨(State.frame_putReg b v s).trans ?_, .inr ⟨rfl, .inl rfl⟩⟩
      exact ⟨rfl, rfl, rfl, rfl, rfl, rfl, rfl, rfl, id, id, State.sends_none rfl⟩
  · exact execFrame_ret _ (State.frame_putReg b v s) (by simp)

theorem consoleOut_frame {c : ConsoleEvent} {s t : State} (h : consoleOut c s = .next t) :
    ExecFrame s t := by
  cases h; exact execFrame_ret _ (State.frame_emit _ _) rfl

theorem giveX0_frame {w : Word} {s t : State} (h : giveX0 w s = .next t) : ExecFrame s t := by
  cases h; exact execFrame_ret _ (State.frame_putReg _ _ _) (by simp)

theorem pushLine_frame (L : List Byte) (s : State) : s.Frame (pushLine L s) ∧ (pushLine L s).wait = s.wait := by
  induction L generalizing s with
  | nil => exact ⟨State.Frame.refl s, rfl⟩
  | cons v rest ih =>
    obtain ⟨h, hw⟩ := ih ((s.putReg Reg.spx (s.spx + 1)).putMem (s.spx + 1) v)
    exact ⟨((State.frame_putReg _ _ _).trans (State.frame_putMem _ _ _)).trans h, by
      simp only [pushLine]; rw [hw]; simp⟩

theorem copyCode_frame (addr : Word) (img : Image) (s : State) : s.Frame (copyCode addr img s) := by
  induction img generalizing addr s with
  | nil => exact State.Frame.refl s
  | cons v rest ih => exact (State.frame_putMem _ _ _).trans (ih _ _)

theorem completeRead_frame {svc : ReadService} {L : List Byte} {s t : State}
    (h : completeRead svc L s = .next t) : ExecFrame s t := by
  have hp : ∀ {o : Option Word}, giveParsed o s = .next t → ExecFrame s t := by
    intro o h; cases o with
    | none => cases h
    | some w => exact giveX0_frame h
  cases svc with
  | char =>
    cases L with
    | nil => cases h
    | cons ch L =>
      have := giveX0_frame h
      exact ⟨(State.frame_update s s.rf s.ec s.code s.wait s.lines (s.draws + 1)).trans this.frame,
        by simpa using this.wait⟩
  | unsigned => exact hp h
  | signed => exact hp h
  | float => exact hp h
  | stackLine =>
    cases h
    obtain ⟨h1, h2⟩ := pushLine_frame L (s.putReg Reg.x0 (BitVec.ofNat 32 L.length))
    exact execFrame_ret _ ((State.frame_putReg _ _ _).trans h1) (by rw [h2]; simp)

theorem readLine_frame {svc : ReadService} {s t : State} (h : readLine svc s = .next t) :
    ExecFrame s t := by
  have hc : s.Frame (s.console .readLine) := State.frame_emit _ _
  unfold readLine at h
  dsimp only at h
  split at h
  · cases h
    refine ⟨hc.trans (State.frame_update _ s.rf s.ec .cont (.line svc) s.lines s.draws), .inr ⟨rfl, .inr ⟨svc, rfl⟩⟩⟩
  · have := completeRead_frame h
    exact ⟨hc.trans ((State.frame_update _ s.rf s.ec s.code s.wait _ s.draws).trans this.frame), this.wait⟩

theorem trap_frame {n : Word} {s t : State} (h : trap n s = .next t) : ExecFrame s t := by
  have hn : trapNothing s = .next t → ExecFrame s t := by
    intro h; cases h; exact execFrame_ret _ (State.Frame.refl _) rfl
  unfold trap at h
  split at h
  · unfold processControl at h
    split at h
    · cases h
      exact ⟨⟨rfl, rfl, rfl, rfl, rfl, rfl, rfl, rfl, id, id, State.sends_none rfl⟩, .inl rfl⟩
    · split at h
      · cases h
        exact ⟨⟨rfl, rfl, rfl, rfl, rfl, rfl, rfl, rfl, id, id, [_], rfl, by simp [Event.ofExecutor]⟩, .inl rfl⟩
      · exact hn h
  · unfold consoleService at h
    split at h
    · exact consoleOut_frame h
    · exact consoleOut_frame h
    · exact consoleOut_frame h
    · exact consoleOut_frame h
    · obtain ⟨h0, rs, h1, -⟩ := noteString_spec (s.regVal Reg.x1).toNat (s.regVal Reg.x0) s
      have hf : s.Frame (noteString (s.regVal Reg.x1).toNat (s.regVal Reg.x0) s) ∧
          (noteString (s.regVal Reg.x1).toNat (s.regVal Reg.x0) s).wait = s.wait := by
        rw [h0]; exact ⟨⟨rfl, rfl, rfl, rfl, rfl, rfl, rfl, rfl, id, id, _, h1,
          by simp [Event.ofExecutor]⟩, rfl⟩
      have := consoleOut_frame h
      exact ⟨hf.1.trans this.frame, by simpa [hf.2] using this.wait⟩
    all_goals first | exact readLine_frame h | exact consoleOut_frame h | exact hn h
  all_goals exact hn h

/-- The frame of every instruction. -/
theorem exec_frame {i : Instr} {s t : State} (h : exec i s = .next t) : ExecFrame s t := by
  cases i <;> simp only [exec] at h
  case nop => cases h; exact execFrame_ret _ (State.Frame.refl _) rfl
  case ldxXV => cases h; exact loadReg_frame _ _ _
  case ldxXX => cases h; exact (loadReg_frame _ _ _).noteReg
  case setV => cases h; exact execFrame_ret _ (State.frame_putMem _ _ _) (by simp)
  case setX =>
    cases h
    exact execFrame_ret _ ((State.frame_noteReg _ _).trans (State.frame_putMem _ _ _)) (by simp)
  case getX =>
    cases h
    exact execFrame_ret _ ((State.frame_noteMem _ _).trans (State.frame_putReg _ _ _)) (by simp)
  case excV => exact trap_frame h
  case excX => exact (trap_frame h).noteReg
  case jitVV => exact jumpImm_frame h
  case jitVX => exact (jumpImm_frame h).noteReg
  case jitXV => exact jumpReg_frame h
  case jitXX => exact (jumpReg_frame h).noteReg
  case jifVV => exact jumpImm_frame h
  case jifVX => exact (jumpImm_frame h).noteReg
  case jifXV => exact (jumpReg_frame h).noteReg
  case jifXX => exact (jumpReg_frame h).noteReg
  case divXV =>
    unfold execDivXV at h
    split at h
    · exact divZero_frame h
    · exact aluImm_frame h
  case divXX =>
    unfold execDivXX at h
    dsimp only at h
    split at h
    · exact (divZero_frame h).noteReg
    · cases h
      exact execFrame_ret _ (((State.frame_noteReg _ _).trans (State.frame_noteReg _ _)).trans
        (State.frame_putReg _ _ _)) (by simp)
  case subXV =>
    cases h
    exact execFrame_ret _ (((((State.frame_noteReg _ _).trans (State.frame_noteReg _ _)).trans
      (State.frame_putReg _ _ _)).trans (State.frame_noteReg _ _)).trans (State.frame_putReg _ _ _))
      (by simp [State.compare])
  case subXX =>
    cases h
    exact execFrame_ret _ ((((((State.frame_noteReg _ _).trans (State.frame_noteReg _ _)).trans
      (State.frame_putReg _ _ _)).trans (State.frame_noteReg _ _)).trans (State.frame_noteReg _ _)).trans
      (State.frame_putReg _ _ _)) (by simp [State.compare])
  case notX =>
    cases h
    exact execFrame_ret _ ((State.frame_noteReg _ _).trans (State.frame_putReg _ _ _)) (by simp)
  case cmpXV =>
    cases h
    exact execFrame_ret _ ((State.frame_noteReg _ _).trans (State.frame_putReg _ _ _)) (by simp [State.compare])
  case cmpXX =>
    cases h
    exact execFrame_ret _ (((State.frame_noteReg _ _).trans (State.frame_noteReg _ _)).trans
      (State.frame_putReg _ _ _)) (by simp [State.compare])
  all_goals first | exact aluImm_frame h | exact aluReg_frame h

end Sys2Proof.Machine
end

