-- ==== Sys2Proof/Laws/PerInstr.lean ====
section
/-! SUPPORT. A statement about every instruction, one lemma per constructor. -/

namespace Sys2Proof.Laws

/-- The encoder gives the instruction its own opcode, which the map defines (R85, R88). -/
def OpcodeInMap.Statement (i : Instr) : Prop :=
  i.wellFormed = true ∧ opcodeDefined (encode i).a = true ∧ (encode i).a = i.opcode

theorem OpcodeInMap.nop : OpcodeInMap.Statement .nop := ⟨rfl, rfl, rfl⟩
theorem OpcodeInMap.ldxXV (b : RegAddr) (imm : BitVec 16) : OpcodeInMap.Statement (.ldxXV b imm) := ⟨rfl, rfl, rfl⟩
theorem OpcodeInMap.ldxXX (b c : RegAddr) : OpcodeInMap.Statement (.ldxXX b c) := ⟨rfl, rfl, rfl⟩
theorem OpcodeInMap.setV (b : Byte) : OpcodeInMap.Statement (.setV b) := ⟨rfl, rfl, rfl⟩
theorem OpcodeInMap.setX (b : RegAddr) : OpcodeInMap.Statement (.setX b) := ⟨rfl, rfl, rfl⟩
theorem OpcodeInMap.getX (b : RegAddr) : OpcodeInMap.Statement (.getX b) := ⟨rfl, rfl, rfl⟩
theorem OpcodeInMap.excV (imm : BitVec 24) : OpcodeInMap.Statement (.excV imm) := ⟨rfl, rfl, rfl⟩
theorem OpcodeInMap.excX (b : RegAddr) : OpcodeInMap.Statement (.excX b) := ⟨rfl, rfl, rfl⟩
theorem OpcodeInMap.jitVV (off : BitVec 16) (d : Byte) : OpcodeInMap.Statement (.jitVV off d) := ⟨rfl, rfl, rfl⟩
theorem OpcodeInMap.jitVX (off : BitVec 16) (d : RegAddr) : OpcodeInMap.Statement (.jitVX off d) := ⟨rfl, rfl, rfl⟩
theorem OpcodeInMap.jitXV (b : RegAddr) (imm : BitVec 16) : OpcodeInMap.Statement (.jitXV b imm) := ⟨rfl, rfl, rfl⟩
theorem OpcodeInMap.jitXX (b c : RegAddr) : OpcodeInMap.Statement (.jitXX b c) := ⟨rfl, rfl, rfl⟩
theorem OpcodeInMap.jifVV (off : BitVec 16) (d : Byte) : OpcodeInMap.Statement (.jifVV off d) := ⟨rfl, rfl, rfl⟩
theorem OpcodeInMap.jifVX (off : BitVec 16) (d : RegAddr) : OpcodeInMap.Statement (.jifVX off d) := ⟨rfl, rfl, rfl⟩
theorem OpcodeInMap.jifXV (b c : RegAddr) : OpcodeInMap.Statement (.jifXV b c) := ⟨rfl, rfl, rfl⟩
theorem OpcodeInMap.jifXX (b c : RegAddr) : OpcodeInMap.Statement (.jifXX b c) := ⟨rfl, rfl, rfl⟩
theorem OpcodeInMap.addXV (b : RegAddr) (imm : BitVec 16) : OpcodeInMap.Statement (.addXV b imm) := ⟨rfl, rfl, rfl⟩
theorem OpcodeInMap.addXX (b c : RegAddr) : OpcodeInMap.Statement (.addXX b c) := ⟨rfl, rfl, rfl⟩
theorem OpcodeInMap.subXV (b : RegAddr) (imm : BitVec 16) : OpcodeInMap.Statement (.subXV b imm) := ⟨rfl, rfl, rfl⟩
theorem OpcodeInMap.subXX (b c : RegAddr) : OpcodeInMap.Statement (.subXX b c) := ⟨rfl, rfl, rfl⟩
theorem OpcodeInMap.mulXV (b : RegAddr) (imm : BitVec 16) : OpcodeInMap.Statement (.mulXV b imm) := ⟨rfl, rfl, rfl⟩
theorem OpcodeInMap.mulXX (b c : RegAddr) : OpcodeInMap.Statement (.mulXX b c) := ⟨rfl, rfl, rfl⟩
theorem OpcodeInMap.divXV (b : RegAddr) (imm : BitVec 16) : OpcodeInMap.Statement (.divXV b imm) := ⟨rfl, rfl, rfl⟩
theorem OpcodeInMap.divXX (b c : RegAddr) : OpcodeInMap.Statement (.divXX b c) := ⟨rfl, rfl, rfl⟩
theorem OpcodeInMap.andXV (b : RegAddr) (imm : BitVec 16) : OpcodeInMap.Statement (.andXV b imm) := ⟨rfl, rfl, rfl⟩
theorem OpcodeInMap.andXX (b c : RegAddr) : OpcodeInMap.Statement (.andXX b c) := ⟨rfl, rfl, rfl⟩
theorem OpcodeInMap.orXV (b : RegAddr) (imm : BitVec 16) : OpcodeInMap.Statement (.orXV b imm) := ⟨rfl, rfl, rfl⟩
theorem OpcodeInMap.orXX (b c : RegAddr) : OpcodeInMap.Statement (.orXX b c) := ⟨rfl, rfl, rfl⟩
theorem OpcodeInMap.xorXV (b : RegAddr) (imm : BitVec 16) : OpcodeInMap.Statement (.xorXV b imm) := ⟨rfl, rfl, rfl⟩
theorem OpcodeInMap.xorXX (b c : RegAddr) : OpcodeInMap.Statement (.xorXX b c) := ⟨rfl, rfl, rfl⟩
theorem OpcodeInMap.shlXV (b : RegAddr) (imm : BitVec 16) : OpcodeInMap.Statement (.shlXV b imm) := ⟨rfl, rfl, rfl⟩
theorem OpcodeInMap.shlXX (b c : RegAddr) : OpcodeInMap.Statement (.shlXX b c) := ⟨rfl, rfl, rfl⟩
theorem OpcodeInMap.shrXV (b : RegAddr) (imm : BitVec 16) : OpcodeInMap.Statement (.shrXV b imm) := ⟨rfl, rfl, rfl⟩
theorem OpcodeInMap.shrXX (b c : RegAddr) : OpcodeInMap.Statement (.shrXX b c) := ⟨rfl, rfl, rfl⟩
theorem OpcodeInMap.notX (b : RegAddr) : OpcodeInMap.Statement (.notX b) := ⟨rfl, rfl, rfl⟩
theorem OpcodeInMap.cmpXV (b : RegAddr) (imm : BitVec 16) : OpcodeInMap.Statement (.cmpXV b imm) := ⟨rfl, rfl, rfl⟩
theorem OpcodeInMap.cmpXX (b c : RegAddr) : OpcodeInMap.Statement (.cmpXX b c) := ⟨rfl, rfl, rfl⟩

end Sys2Proof.Laws
end

