-- ==== Sys2Proof/Laws/Sequencer.lean ====
section
/-! SUPPORT. The sequencer around an executor: what the fetch, the end of a step and the halt leave alone. -/

namespace Sys2Proof.Machine

/-- A memory read changes nothing but what is sent out. -/
theorem State.noteMem_eq (a : Word) (s : State) : s.noteMem a = { s with out := (s.noteMem a).out } := by
  unfold State.noteMem; split <;> rfl

/-- A register read changes nothing but what is sent out. -/
theorem State.noteReg_eq (a : RegAddr) (s : State) : s.noteReg a = { s with out := (s.noteReg a).out } := by
  unfold State.noteReg; split <;> rfl

/-- The fetch changes nothing but what is sent out. -/
theorem State.noteFetch_eq (s : State) : s.noteFetch = { s with out := s.noteFetch.out } := by
  unfold State.noteFetch
  rw [State.noteMem_eq (s.ipx + 3), State.noteMem_eq (s.ipx + 2), State.noteMem_eq (s.ipx + 1),
    State.noteMem_eq s.ipx]

theorem State.noteFetch_frame (s : State) : s.Frame s.noteFetch :=
  (((State.frame_noteMem _ _).trans (State.frame_noteMem _ _)).trans (State.frame_noteMem _ _)).trans
    (State.frame_noteMem _ _)

/-! ### The post-increment (R212) -/

@[simp] theorem State.postIncrement_cfg (s : State) : s.postIncrement.cfg = s.cfg := rfl
@[simp] theorem State.postIncrement_mem (s : State) : s.postIncrement.mem = s.mem := rfl
@[simp] theorem State.postIncrement_ec (s : State) : s.postIncrement.ec = s.ec := rfl
@[simp] theorem State.postIncrement_mode (s : State) : s.postIncrement.mode = s.mode := rfl
@[simp] theorem State.postIncrement_proc (s : State) : s.postIncrement.proc = s.proc := rfl
@[simp] theorem State.postIncrement_dbg (s : State) : s.postIncrement.dbg = s.dbg := rfl
@[simp] theorem State.postIncrement_eoc (s : State) : s.postIncrement.eoc = s.eoc := rfl
@[simp] theorem State.postIncrement_code (s : State) : s.postIncrement.code = s.code := rfl
@[simp] theorem State.postIncrement_wait (s : State) : s.postIncrement.wait = s.wait := rfl
@[simp] theorem State.postIncrement_ended (s : State) : s.postIncrement.ended = s.ended := rfl
@[simp] theorem State.postIncrement_hostCmds (s : State) : s.postIncrement.hostCmds = s.hostCmds := rfl
@[simp] theorem State.postIncrement_lines (s : State) : s.postIncrement.lines = s.lines := rfl
@[simp] theorem State.postIncrement_answers (s : State) : s.postIncrement.answers = s.answers := rfl
@[simp] theorem State.postIncrement_draws (s : State) : s.postIncrement.draws = s.draws := rfl
@[simp] theorem State.postIncrement_out (s : State) : s.postIncrement.out = s.out := rfl

theorem State.regVal_postIncrement (s : State) (a : RegAddr) :
    s.postIncrement.regVal a = if a = Reg.ipx then s.ipx + 4 else s.regVal a := by
  have hv : validReg Reg.ipx = true := by decide
  simp [State.postIncrement, State.regVal_putReg, hv]

/-- The frame of an executor, the invalid instruction's included. -/
theorem execute_frame {q : Quad} {s t : State} (h : execute q s = .next t) : ExecFrame s t := by
  unfold execute at h; split at h
  · exact exec_frame h
  · cases h; exact execFrame_ret _ (State.frame_emit _ _) rfl

/-- The sequencer answers a next state only after one of the executor. -/
theorem afterExec_next {o : Result} {u : State} (h : afterExec o = .next u) :
    ∃ t, o = .next t ∧ u = t.finish := by
  cases o with
  | next t => exact ⟨t, rfl, by injection h with h; exact h.symm⟩
  | fault => cases h
  | refused => cases h

theorem State.halt_halted (s : State) (r : HaltReason) : (s.halt r).Halted r := ⟨rfl, rfl, rfl, rfl, rfl⟩

/-- With a TERMINATE code the step ends with its reason, whatever the host says (R225). -/
theorem State.conclude_terminate {s : State} {r : HaltReason} (h : s.code = .terminate r) (stop : Bool) :
    s.conclude stop = s.halt r := by
  unfold State.conclude; rw [h]

/-- What the end of a step leaves alone, whatever the debug mode; mode and process change only by a halt. -/
structure State.EndFrame (s u : State) : Prop where
  rf : u.rf = s.rf
  mem : u.mem = s.mem
  ec : u.ec = s.ec
  cfg : u.cfg = s.cfg
  dbg : u.dbg = s.dbg
  eoc : u.eoc = s.eoc
  ended : u.ended = s.ended
  hostCmds : u.hostCmds = s.hostCmds
  lines : u.lines = s.lines
  draws : u.draws = s.draws
  running : (u.mode = s.mode ∧ u.proc = s.proc) ∨ ∃ r, u.Halted r

theorem State.conclude_frame (stop : Bool) (s : State) : s.EndFrame (s.conclude stop) := by
  have hh : ∀ r, s.EndFrame (s.halt r) := fun r =>
    ⟨rfl, rfl, rfl, rfl, rfl, rfl, rfl, rfl, rfl, rfl, .inr ⟨r, s.halt_halted r⟩⟩
  rcases conclude_cases stop s with ⟨r, _, h⟩ | ⟨_, _, h⟩ | ⟨_, _, _, h⟩ | ⟨_, _, _, h⟩ <;> rw [h]
  · exact hh _
  · exact hh _
  · exact hh _
  · exact ⟨rfl, rfl, rfl, rfl, rfl, rfl, rfl, rfl, rfl, rfl, .inl ⟨rfl, rfl⟩⟩

/-- The debug view with what follows it, and besides the answers and the wait outside step mode. -/
theorem State.debugView_frame (s : State) :
    s.EndFrame s.debugView ∧
    (s.dbg ≠ .step → s.wait = .none → s.debugView.answers = s.answers ∧ s.debugView.wait = .none) := by
  have hc : ∀ (v : State), v.wait = .none →
      (v.conclude false).answers = v.answers ∧ (v.conclude false).wait = .none := by
    intro v hv
    rcases conclude_cases false v with ⟨r, _, h⟩ | ⟨_, _, h⟩ | ⟨_, _, _, h⟩ | ⟨_, _, _, h⟩ <;> rw [h] <;> simp [hv]
  rcases debugView_cases s with ⟨_, h⟩ | ⟨_, _, h⟩ | ⟨hd, _, h⟩ | ⟨hd, ans, rest, _, h⟩ <;> rw [h]
  · exact ⟨s.conclude_frame false, fun _ => hc s⟩
  · obtain ⟨h1, h2, h3, h4, h5, h6, h7, h8, h9, h10, h11⟩ := s.view.conclude_frame false
    exact ⟨⟨h1, h2, h3, h4, h5, h6, h7, h8, h9, h10, h11⟩, fun _ => hc s.view⟩
  · exact ⟨⟨rfl, rfl, rfl, rfl, rfl, rfl, rfl, rfl, rfl, rfl, .inl ⟨rfl, rfl⟩⟩, fun h => absurd hd h⟩
  · obtain ⟨h1, h2, h3, h4, h5, h6, h7, h8, h9, h10, h11⟩ :=
      State.conclude_frame (answerStops ans) { s.view with answers := rest }
    exact ⟨⟨h1, h2, h3, h4, h5, h6, h7, h8, h9, h10, h11⟩, fun h => absurd hd h⟩

/-- A read service that completes leaves the core waiting for nothing new. -/
theorem completeRead_wait {svc : ReadService} {L : List Byte} {s t : State}
    (h : completeRead svc L s = .next t) (hs : s.wait = .none) : t.wait = .none := by
  have hp : ∀ {o : Option Word}, giveParsed o s = .next t → t.wait = .none := by
    intro o h
    cases o <;> cases h
    simpa using hs
  cases svc with
  | char =>
    cases L <;> cases h
    simpa using hs
  | unsigned => exact hp h
  | signed => exact hp h
  | float => exact hp h
  | stackLine => cases h; simpa [(pushLine_frame _ _).2] using hs

end Sys2Proof.Machine
end

