-- ==== Sys2Proof/Tests/Slice0.lean ====
section
/-! SUPPORT. The model's own tests: ill-formed terms that the checks refuse, a word of every instruction written out from the opcode map, one or two single steps per instruction from 95_test_vectors.md, and a witness for the hypotheses of every statement. -/

namespace Sys2Proof.Tests

open Sys2Proof.Machine

/-! ### Helpers -/

/-- A freshly constructed core that is Running. -/
def running : State :=
  { State.reset with mode := .running, proc := some { started := true, aborted := false } }

/-- That core with some registers and bytes of memory set. -/
def st (regs : List (RegAddr × Word)) (mem : List (Word × Byte)) : State :=
  mem.foldl (fun s m => s.putMem m.1 m.2) (regs.foldl (fun s r => s.putReg r.1 r.2) running)

/-- The code base and the instruction pointer of the vectors of section 4, with the four bytes of an instruction there. -/
def at1000 (q : Quad) (regs : List (RegAddr × Word)) : State :=
  st ([(0x10, 0x1000), (0x11, 0x1000), (0x12, 0x100)] ++ regs)
    [(0x1000, q.a), (0x1001, q.b), (0x1002, q.c), (0x1003, q.d)]

/-- Whether an outcome is a next state. -/
def isNext (o : Result) : Bool :=
  match o with
  | .next _ => true
  | .fault _ => false
  | .refused _ => false

/-- The next state of an outcome, State.reset where there is none. -/
def after (o : Result) : State :=
  match o with
  | .next t => t
  | .fault _ => State.reset
  | .refused _ => State.reset

theorem next_after {o : Result} (h : isNext o = true) : o = .next (after o) := by
  cases o <;> first | rfl | simp [isNext] at h

/-- A register after an outcome, `none` where it is no next state. -/
def reg (o : Result) (a : RegAddr) : Option Word :=
  if isNext o then some ((after o).regVal a) else none

/-- A byte of memory after an outcome, `none` where it is no next state. -/
def byte (o : Result) (a : Word) : Option Byte :=
  if isNext o then some ((after o).memVal a) else none

/-- What was sent out, newest first, `none` where the outcome is no next state. -/
def sent (o : Result) : Option (List Event) :=
  if isNext o then some (after o).out else none

/-- The continuation code of an outcome, `none` where it is no next state. -/
def codeOf (o : Result) : Option Code :=
  if isNext o then some (after o).code else none

/-! ### Ill-formed terms are refused -/

/-- 0x25 is the first undefined opcode, 0x24 the last defined one (R86). -/
theorem test_wf_opcode : opcodeDefined 0x25 = false ∧ opcodeDefined 0x24 = true := by decide
/-- An empty image and one of 6 bytes (V-RS-3). -/
theorem test_wf_image : Image.wellFormed [] = false ∧ Image.wellFormed [0, 0, 0, 0, 0, 0] = false ∧
    Image.wellFormed [0, 0, 0, 0] = true := by decide
/-- An interval with its ends exchanged, and one past the 32-bit values. -/
theorem test_wf_interval : Interval.wellFormed (5, 4) = false ∧
    Interval.wellFormed (0, 2 ^ 32 + 1) = false ∧ Interval.wellFormed (0, 2 ^ 32) = true := by decide
/-- MEM_SIZE above 2^32, MAX_BASE of 0, and an ill-formed SSX_RANGE (R13). -/
theorem test_wf_params :
    Params.wellFormed { State.reset.cfg with memSize := 2 ^ 32 + 1 } = false ∧
    Params.wellFormed { State.reset.cfg with maxBase := 0 } = false ∧
    Params.wellFormed { State.reset.cfg with maxBase := 2 ^ 32 + 1 } = false ∧
    Params.wellFormed { State.reset.cfg with ssxRange := [(5, 4)] } = false ∧
    Params.wellFormed State.reset.cfg = true := by decide
/-- No instruction is ill-formed: every operand value is legal (R84, R86). -/
theorem test_wf_instr : Instr.wellFormed (.ldxXV 0xFF 0xFFFF) = true := by decide

/-! ### One word of every instruction, written out from the opcode map (R85) -/

theorem test_decode_nop : decodeTableWord 32 0x00FFFFFF = some (.nop) := by decide
theorem test_decode_ldxXV : decodeTableWord 32 0x01031234 = some (.ldxXV 0x03 0x1234) := by decide
theorem test_decode_ldxXX : decodeTableWord 32 0x02010500 = some (.ldxXX 0x01 0x05) := by decide
theorem test_decode_setV : decodeTableWord 32 0x035A7788 = some (.setV 0x5A) := by decide
theorem test_decode_setX : decodeTableWord 32 0x04021122 = some (.setX 0x02) := by decide
theorem test_decode_getX : decodeTableWord 32 0x05153344 = some (.getX 0x15) := by decide
theorem test_decode_excV : decodeTableWord 32 0x06123456 = some (.excV 0x123456) := by decide
theorem test_decode_excX : decodeTableWord 32 0x07041122 = some (.excX 0x04) := by decide
theorem test_decode_jitVV : decodeTableWord 32 0x08002002 = some (.jitVV 0x0020 0x02) := by decide
theorem test_decode_jitVX : decodeTableWord 32 0x09012003 = some (.jitVX 0x0120 0x03) := by decide
theorem test_decode_jitXV : decodeTableWord 32 0x0A050104 = some (.jitXV 0x05 0x0104) := by decide
theorem test_decode_jitXX : decodeTableWord 32 0x0B010277 = some (.jitXX 0x01 0x02) := by decide
theorem test_decode_jifVV : decodeTableWord 32 0x0C000402 = some (.jifVV 0x0004 0x02) := by decide
theorem test_decode_jifVX : decodeTableWord 32 0x0D010003 = some (.jifVX 0x0100 0x03) := by decide
theorem test_decode_jifXV : decodeTableWord 32 0x0E010207 = some (.jifXV 0x01 0x02) := by decide
theorem test_decode_jifXX : decodeTableWord 32 0x0F010207 = some (.jifXX 0x01 0x02) := by decide
theorem test_decode_addXV : decodeTableWord 32 0x10000003 = some (.addXV 0x00 0x0003) := by decide
theorem test_decode_addXX : decodeTableWord 32 0x11000100 = some (.addXX 0x00 0x01) := by decide
theorem test_decode_subXV : decodeTableWord 32 0x12011900 = some (.subXV 0x01 0x1900) := by decide
theorem test_decode_subXX : decodeTableWord 32 0x13040300 = some (.subXX 0x04 0x03) := by decide
theorem test_decode_mulXV : decodeTableWord 32 0x1400FFFF = some (.mulXV 0x00 0xFFFF) := by decide
theorem test_decode_mulXX : decodeTableWord 32 0x15030100 = some (.mulXX 0x03 0x01) := by decide
theorem test_decode_divXV : decodeTableWord 32 0x16000007 = some (.divXV 0x00 0x0007) := by decide
theorem test_decode_divXX : decodeTableWord 32 0x17020100 = some (.divXX 0x02 0x01) := by decide
theorem test_decode_andXV : decodeTableWord 32 0x1800FF00 = some (.andXV 0x00 0xFF00) := by decide
theorem test_decode_andXX : decodeTableWord 32 0x19000100 = some (.andXX 0x00 0x01) := by decide
theorem test_decode_orXV : decodeTableWord 32 0x1A0000FF = some (.orXV 0x00 0x00FF) := by decide
theorem test_decode_orXX : decodeTableWord 32 0x1B030400 = some (.orXX 0x03 0x04) := by decide
theorem test_decode_xorXV : decodeTableWord 32 0x1C02FFFF = some (.xorXV 0x02 0xFFFF) := by decide
theorem test_decode_xorXX : decodeTableWord 32 0x1D020300 = some (.xorXX 0x02 0x03) := by decide
theorem test_decode_shlXV : decodeTableWord 32 0x1E030021 = some (.shlXV 0x03 0x0021) := by decide
theorem test_decode_shlXX : decodeTableWord 32 0x1F000100 = some (.shlXX 0x00 0x01) := by decide
theorem test_decode_shrXV : decodeTableWord 32 0x2000001F = some (.shrXV 0x00 0x001F) := by decide
theorem test_decode_shrXX : decodeTableWord 32 0x21000100 = some (.shrXX 0x00 0x01) := by decide
theorem test_decode_notX : decodeTableWord 32 0x22001234 = some (.notX 0x00) := by decide
theorem test_decode_cmpXV : decodeTableWord 32 0x23FF0007 = some (.cmpXV 0xFF 0x0007) := by decide
theorem test_decode_cmpXX : decodeTableWord 32 0x24000100 = some (.cmpXX 0x00 0x01) := by decide
/-- The first and the last invalid opcode (R86). -/
theorem test_decode_invalid : decodeTableWord 32 0x25000000 = none ∧ decodeTableWord 32 0xFFAABBCC = none := by decide

/-! ### One step: data transfer (section 2 of 95_test_vectors.md) -/

/-- V-DT-1 -/
theorem test_nop : sent (execute ⟨0x00, 0xFF, 0xFF, 0xFF⟩ (st [] [])) = some [] ∧ codeOf (execute ⟨0x00, 0xFF, 0xFF, 0xFF⟩ (st [] [])) = some .cont := by decide
/-- V-DT-2 -/
theorem test_ldxXV_zero_extends : reg (execute ⟨0x01, 0x03, 0x00, 0x01⟩ (st [(0x03, 0xFFFFFFFF)] [])) 0x03 = some 1 := by decide
/-- V-DT-4 -/
theorem test_ldxXV_sink : sent (execute ⟨0x01, 0x19, 0x00, 0x05⟩ (st [] [])) = some [.report (.badRegister 0x19)] := by decide
/-- V-DT-8 -/
theorem test_ldxXX_copies : reg (execute ⟨0x02, 0x01, 0x05, 0x00⟩ (st [(0x05, 0xDEADBEEF)] [])) 0x01 = some 0xDEADBEEF := by decide
/-- V-DT-11 -/
theorem test_ldxXX_reroll_hangs : reg (execute ⟨0x02, 0x15, 0x03, 0x00⟩ (st [(0x10, 0xFFFFFFF0), (0x12, 0x20), (0x03, 0xFFFFFFF1)] [])) 0x15 = some 0xFFFFFFF1 ∧ (after (execute ⟨0x02, 0x15, 0x03, 0x00⟩ (st [(0x10, 0xFFFFFFF0), (0x12, 0x20), (0x03, 0xFFFFFFF1)] []))).wait = .hung := by decide
/-- V-DT-13 -/
theorem test_setV_stores : byte (execute ⟨0x03, 0x5A, 0x77, 0x88⟩ (st [(0x16, 0x100)] [])) 0x100 = some 0x5A := by decide
/-- V-DT-14 -/
theorem test_setV_outside : sent (execute ⟨0x03, 0x5A, 0x00, 0x00⟩ (st [(0x16, 0x8000000)] [])) = some [.report (.badIndex 0x8000000)] := by decide
/-- V-DT-15 -/
theorem test_setX_low_byte : byte (execute ⟨0x04, 0x02, 0x00, 0x00⟩ (st [(0x02, 0x1234), (0x16, 0x101)] [])) 0x101 = some 0x34 := by decide
/-- V-DT-17 -/
theorem test_getX_zero_extends : reg (execute ⟨0x05, 0x03, 0x00, 0x00⟩ (st [(0x16, 0x100)] [(0x100, 0xFF)])) 0x03 = some 0xFF := by decide
/-- V-DT-19 -/
theorem test_getX_no_reroll : reg (execute ⟨0x05, 0x15, 0x00, 0x00⟩ (st [(0x16, 0x100), (0x13, 0x40)] [(0x100, 0x08)])) 0x15 = some 8 ∧ reg (execute ⟨0x05, 0x15, 0x00, 0x00⟩ (st [(0x16, 0x100), (0x13, 0x40)] [(0x100, 0x08)])) 0x13 = some 0x40 := by decide

/-! ### One step: traps (section 3) -/

/-- V-TR-3 -/
theorem test_excV_exit : codeOf (execute ⟨0x06, 0x00, 0x00, 0x01⟩ (st [(0x00, 0x80000000), (0x17, 0x1)] [])) = some (.terminate .exit) ∧ (after (execute ⟨0x06, 0x00, 0x00, 0x01⟩ (st [(0x00, 0x80000000), (0x17, 0x1)] []))).exitCode = -2147483648 := by decide
/-- V-TR-15: the second byte lies outside memory -/
theorem test_excV_print_string : sent (execute ⟨0x06, 0x00, 0x00, 0x02⟩ (st [(0x00, 0x7FFFFFF), (0x01, 0x2), (0x17, 0x5)] [(0x7FFFFFF, 0x5A)])) = some [.console (.writeBytes [0x5A, 0x00]), .report (.badIndex 0x8000000)] := by decide
/-- V-TR-7: the trap number 0x01000001 is not 1 -/
theorem test_excX_all_bits : codeOf (execute ⟨0x07, 0x04, 0x00, 0x00⟩ (st [(0x04, 0x1000001), (0x17, 0x1)] [])) = some .cont := by decide
/-- V-TR-8 -/
theorem test_excX_sink : sent (execute ⟨0x07, 0xFF, 0x00, 0x00⟩ (st [(0x17, 0x1)] [])) = some [.report (.badRegister 0xFF)] := by decide

/-! ### One step: control transfer (section 4), with the post-increment -/

/-- V-CT-1 -/
theorem test_jitVV_taken : reg (step (at1000 ⟨0x08, 0x00, 0x20, 0x02⟩ [(0x18, 0x2)])) 0x11 = some 0x1024 := by decide
/-- V-CT-2 -/
theorem test_jitVV_not_taken : reg (step (at1000 ⟨0x08, 0x00, 0x20, 0x02⟩ [(0x18, 0x4)])) 0x11 = some 0x1004 := by decide
/-- V-CT-5 -/
theorem test_jitVX : reg (step (at1000 ⟨0x09, 0x00, 0x20, 0x18⟩ [(0x18, 0xDEAD)])) 0x11 = some 0x1024 := by decide
/-- V-CT-7 -/
theorem test_jitXV_wraps : reg (step (at1000 ⟨0x0A, 0x05, 0x00, 0x04⟩ [(0x18, 0x4), (0x05, 0xFFFFFFFC)])) 0x11 = some 0x1000 := by decide
/-- V-CT-8 -/
theorem test_jitXV_imm16 : reg (step (at1000 ⟨0x0A, 0x05, 0x01, 0x04⟩ [(0x18, 0x104), (0x05, 0x10)])) 0x11 = some 0x1014 := by decide
/-- V-CT-9 -/
theorem test_jitXX : reg (step (at1000 ⟨0x0B, 0x01, 0x02, 0x00⟩ [(0x18, 0x2), (0x01, 0x10), (0x02, 0x2)])) 0x11 = some 0x1014 := by decide
/-- V-CT-12 -/
theorem test_jifVV_taken : reg (step (at1000 ⟨0x0C, 0x00, 0x04, 0x02⟩ [(0x18, 0x4)])) 0x11 = some 0x1008 := by decide
/-- V-CT-13 -/
theorem test_jifVV_not_taken : reg (step (at1000 ⟨0x0C, 0x00, 0x04, 0x02⟩ [(0x18, 0x2)])) 0x11 = some 0x1004 := by decide
/-- V-CT-15 -/
theorem test_jifVX : reg (step (at1000 ⟨0x0D, 0x00, 0x40, 0x18⟩ [(0x18, 0x7)])) 0x11 = some 0x1004 := by decide
/-- V-CT-16 -/
theorem test_jifXV_register_flag : reg (step (at1000 ⟨0x0E, 0x01, 0x02, 0x07⟩ [(0x18, 0x1), (0x01, 0x40), (0x02, 0x4)])) 0x11 = some 0x1044 := by decide
/-- V-CT-17 -/
theorem test_jifXX_taken : reg (step (at1000 ⟨0x0F, 0x01, 0x02, 0x07⟩ [(0x18, 0x1), (0x01, 0x40), (0x02, 0x4)])) 0x11 = some 0x1044 := by decide
/-- V-CT-18 -/
theorem test_jifXX_not_taken : reg (step (at1000 ⟨0x0F, 0x01, 0x02, 0x00⟩ [(0x18, 0x1), (0x01, 0x40), (0x02, 0x1)])) 0x11 = some 0x1004 := by decide
/-- V-CT-11: a jump that is not taken does not read its target -/
theorem test_jitXX_target_unread : sent (step (at1000 ⟨0x0B, 0xFF, 0x02, 0x00⟩ [(0x18, 0x1), (0x02, 0x2)])) = some [] := by decide
/-- V-CT-14 -/
theorem test_jifVX_end_of_code : reg (step (at1000 ⟨0x0D, 0x01, 0x00, 0x00⟩ [(0x18, 0x2), (0x00, 0x1)])) 0x11 = some 0x1104 ∧ (after (step (at1000 ⟨0x0D, 0x01, 0x00, 0x00⟩ [(0x18, 0x2), (0x00, 0x1)]))).out.head? = some (.halted .endOfCode 1) := by decide

/-! ### One step: arithmetic, logic, shift and compare (section 5) -/

/-- V-AL-2 -/
theorem test_addXV_wraps : reg (execute ⟨0x10, 0x00, 0x00, 0x01⟩ (st [(0x00, 0xFFFFFFFF)] [])) 0x00 = some 0x0 := by decide
/-- V-AL-4 -/
theorem test_addXX : reg (execute ⟨0x11, 0x00, 0x00, 0x00⟩ (st [(0x00, 0x80000000)] [])) 0x00 = some 0x0 := by decide
/-- V-AL-5 -/
theorem test_subXV_compares_register : reg (execute ⟨0x12, 0x01, 0x00, 0x01⟩ (st [(0x00, 0xF), (0x01, 0x1)] [])) 0x18 = some 0x1 ∧ reg (execute ⟨0x12, 0x01, 0x00, 0x01⟩ (st [(0x00, 0xF), (0x01, 0x1)] [])) 0x01 = some 0x0 := by decide
/-- V-AL-8 -/
theorem test_subXV_rereads_fx : reg (execute ⟨0x12, 0x18, 0x00, 0x01⟩ (st [(0x18, 0x1), (0x00, 0x1)] [])) 0x18 = some 0x1 := by decide
/-- V-AL-11 -/
theorem test_subXX : reg (execute ⟨0x13, 0x00, 0x01, 0x00⟩ (st [(0x00, 0x3), (0x01, 0x5)] [])) 0x18 = some 0x1 ∧ reg (execute ⟨0x13, 0x00, 0x01, 0x00⟩ (st [(0x00, 0x3), (0x01, 0x5)] [])) 0x00 = some 0xFFFFFFFE := by decide
/-- V-AL-15 -/
theorem test_subXX_rereads_fx : reg (execute ⟨0x13, 0x18, 0x18, 0x00⟩ (st [(0x18, 0x9)] [])) 0x18 = some 0x0 := by decide
/-- V-AL-17 -/
theorem test_mulXV_wraps : reg (execute ⟨0x14, 0x00, 0xFF, 0xFF⟩ (st [(0x00, 0xFFFFFFFF)] [])) 0x00 = some 0xFFFF0001 := by decide
/-- V-AL-18 -/
theorem test_mulXX : reg (execute ⟨0x15, 0x00, 0x00, 0x00⟩ (st [(0x00, 0x10000)] [])) 0x00 = some 0x0 := by decide
/-- V-AL-20 -/
theorem test_divXV_unsigned : reg (execute ⟨0x16, 0x00, 0x00, 0x02⟩ (st [(0x00, 0xFFFFFFFF)] [])) 0x00 = some 0x7FFFFFFF := by decide
/-- V-AL-23 -/
theorem test_divXX : reg (execute ⟨0x17, 0x02, 0x01, 0x00⟩ (st [(0x02, 0x64), (0x01, 0x7)] [])) 0x02 = some 0xE := by decide
/-- V-AL-26 -/
theorem test_andXV : reg (execute ⟨0x18, 0x00, 0xFF, 0x00⟩ (st [(0x00, 0x12345678)] [])) 0x00 = some 0x5600 := by decide
/-- V-AL-27 -/
theorem test_andXX : reg (execute ⟨0x19, 0x00, 0x01, 0x00⟩ (st [(0x00, 0xF0F0F0F0), (0x01, 0xFF00FF00)] [])) 0x00 = some 0xF000F000 := by decide
/-- V-AL-28 -/
theorem test_orXV : reg (execute ⟨0x1A, 0x00, 0x00, 0xFF⟩ (st [(0x00, 0x12340000)] [])) 0x00 = some 0x123400FF := by decide
/-- V-AL-29 -/
theorem test_orXX : reg (execute ⟨0x1B, 0x03, 0x04, 0x00⟩ (st [(0x03, 0x5A00), (0x04, 0x34)] [])) 0x03 = some 0x5A34 := by decide
/-- V-AL-30 -/
theorem test_xorXV : reg (execute ⟨0x1C, 0x02, 0xFF, 0xFF⟩ (st [(0x02, 0x1234)] [])) 0x02 = some 0xEDCB := by decide
/-- V-AL-31 -/
theorem test_xorXX : reg (execute ⟨0x1D, 0x02, 0x02, 0x00⟩ (st [(0x02, 0x1234)] [])) 0x02 = some 0x0 := by decide
/-- V-AL-34 -/
theorem test_shlXV_modulo_32 : reg (execute ⟨0x1E, 0x03, 0x00, 0x21⟩ (st [(0x03, 0x5A)] [])) 0x03 = some 0xB4 := by decide
/-- V-AL-35 -/
theorem test_shlXX : reg (execute ⟨0x1F, 0x00, 0x01, 0x00⟩ (st [(0x00, 0x1), (0x01, 0x23)] [])) 0x00 = some 0x8 := by decide
/-- V-AL-37 -/
theorem test_shrXV_logical : reg (execute ⟨0x20, 0x00, 0x00, 0x04⟩ (st [(0x00, 0x80000000)] [])) 0x00 = some 0x8000000 := by decide
/-- V-AL-38 -/
theorem test_shrXX : reg (execute ⟨0x21, 0x00, 0x01, 0x00⟩ (st [(0x00, 0xFFFFFFFF), (0x01, 0xFFFFFFFF)] [])) 0x00 = some 0x1 := by decide
/-- V-AL-39 -/
theorem test_notX : reg (execute ⟨0x22, 0x00, 0x00, 0x00⟩ (st [(0x00, 0xFFFF)] [])) 0x00 = some 0xFFFF0000 := by decide
/-- V-AL-42 -/
theorem test_cmpXV_unsigned : reg (execute ⟨0x23, 0x00, 0x00, 0x01⟩ (st [(0x00, 0xFFFFFFFF)] [])) 0x18 = some 0x4 := by decide
/-- V-AL-44 -/
theorem test_cmpXV_sink : reg (execute ⟨0x23, 0xFF, 0x00, 0x07⟩ (st [] [])) 0x18 = some 0x1 := by decide
/-- V-AL-45 -/
theorem test_cmpXX : reg (execute ⟨0x24, 0x00, 0x01, 0x00⟩ (st [(0x00, 0x3), (0x01, 0x9)] [])) 0x18 = some 0x1 := by decide
/-- V-AL-46 -/
theorem test_cmpXX_unsigned : reg (execute ⟨0x24, 0x00, 0x01, 0x00⟩ (st [(0x00, 0x80000000), (0x01, 0x1)] [])) 0x18 = some 0x4 := by decide
/-- V-AL-22 -/
theorem test_divXV_by_zero : codeOf (execute ⟨0x16, 0x00, 0x00, 0x00⟩ (st [(0x00, 0x9)] [])) = some (.terminate .divZero) ∧ reg (execute ⟨0x16, 0x00, 0x00, 0x00⟩ (st [(0x00, 0x9)] [])) 0x00 = some 9 ∧
    sent (execute ⟨0x16, 0x00, 0x00, 0x00⟩ (st [(0x00, 0x9)] [])) = some [.report .divZero] := by decide
/-- V-AL-24: the reports, newest first -/
theorem test_divXX_by_zero : sent (execute ⟨0x17, 0x02, 0x19, 0x00⟩ (st [(0x02, 0x64)] [])) = some [.report .divZero, .report (.badRegister 0x19)] := by decide

/-! ### One step: sequencer, host and loader (section 6) -/

/-- V-SQ-2, S6: the four bytes are in the report and `ipx` is at `C` + 4. -/
theorem test_invalid_opcode :
    sent (step (at1000 ⟨0xFF, 0xAA, 0xBB, 0xCC⟩ [])) =
      some [.halted .invalidInstruction 1, .report (.invalidInstruction ⟨0xFF, 0xAA, 0xBB, 0xCC⟩)] ∧
    reg (step (at1000 ⟨0xFF, 0xAA, 0xBB, 0xCC⟩ [])) 0x11 = some 0x1004 := by decide
/-- V-RS-1: construction reset. -/
theorem test_reset : State.reset.exitCode = 1 ∧ State.reset.mode = .idle ∧ State.reset.dbg = .none ∧
    State.reset.regVal 0x18 = 0 := by decide
/-- V-RS-3: an image of 6 bytes is refused. -/
theorem test_start_refused :
    (after (step { State.reset with hostCmds := [.start (some [0, 0, 0, 0, 0, 0])] })).mode = .idle := by decide
/-- V-HX-1. -/
theorem test_loader_digits : imageOfText "010000000117000106000001".toList =
    [0x01, 0, 0, 0, 0x01, 0x17, 0, 0x01, 0x06, 0, 0, 0x01] := by decide
/-- V-HX-2 and V-HX-3: lower case digits, other characters discarded. -/
theorem test_loader_discards : imageOfText "0a0b0c0d".toList = [0x0A, 0x0B, 0x0C, 0x0D] ∧
    imageOfText "01 00 00 00 ; ok".toList = [0x01, 0, 0, 0] := by decide
/-- V-HX-4 and V-HX-5: a byte count that is no multiple of 4 gives the empty image. -/
theorem test_loader_empty : imageOfText "01 00 00 00 ; set x0".toList = [] ∧
    imageOfText "010203".toList = [] := by decide
/-- An instruction placed by withFetchWord is the first that runs after reset (V-AL-40). -/
theorem test_withFetchWord : reg (step (State.reset.withFetchWord 32 0x22000000)) 0x00 = some 0xFFFFFFFF := by decide


/-! ### Witnesses: a state and operands that meet the hypotheses of each statement, clause by clause -/

/-- A Running core whose `sx` is set, with lines that the host has typed; `x4` holds a trap number. -/
def trapSt (n sx : Word) (lines : List (List Byte)) : State :=
  { st [(0x17, sx), (0x04, n)] [] with lines := lines }

/-- Both trap forms reach the trap number n. -/
theorem traps_both (n : BitVec 24) (sx : Word) (lines : List (List Byte))
    (h : (trapSt (n.setWidth 32) sx lines).regVal 0x04 = n.setWidth 32) :
    TrapsWith (.excV n) (trapSt (n.setWidth 32) sx lines) (n.setWidth 32) ∧
    TrapsWith (.excX 0x04) (trapSt (n.setWidth 32) sx lines) (n.setWidth 32) :=
  ⟨.inl ⟨n, rfl, rfl⟩, .inr ⟨0x04, rfl, by decide, h⟩⟩

theorem witness_DecodeInvertsEncode : Instr.wellFormed (.excV 0xFFFFFF) = true := by decide
theorem witness_EncodeInvertsDecodeUpToIgnoredBytes :
    decode ⟨0x24, 0xFF, 0x18, 0x77⟩ = .ok (.cmpXX 0xFF 0x18) := rfl
/-- The last defined and the first undefined opcode. -/
theorem witness_DecodeLooksAtOpcodeAlone :
    opcodeDefined ((0x24000000 : Word).extractLsb' 24 8) = true ∧
    opcodeDefined ((0x25000000 : Word).extractLsb' 24 8) = false := by decide
theorem witness_OpcodeMapRows : 0x25 ≤ (0x25 : Byte).toNat ∧ 0x25 ≤ (0xFF : Byte).toNat := by decide
/-- The last slot and the first sink address. -/
theorem witness_RegisterAccessAndSink : (24 : RegAddr).toNat < 25 ∧ 25 ≤ (25 : RegAddr).toNat := by decide
/-- The last cell and the first address outside. -/
theorem witness_MemoryAccessAndSink : (0x7FFFFFF : Word).toNat < State.reset.cfg.memSize ∧
    State.reset.cfg.memSize ≤ (0x8000000 : Word).toNat := by decide

/-- The state of V-DT-6. -/
def rerollSt : State := st [(0x10, 0x100), (0x12, 0x20), (0x03, 0x10)] []

/-- Any other destination, and `slx` with solutions at both edges of the code interval and none right inside them. -/
theorem witness_LdxImmediateEffect : (0x14 : RegAddr) ≠ Reg.slx ∧ (0x15 : RegAddr) = Reg.slx ∧
    rerollSt.RerollSolution (BitVec.ofNat 32 (0x10 : BitVec 16).toNat) 0xF0 ∧
    rerollSt.RerollSolution (BitVec.ofNat 32 (0x10 : BitVec 16).toNat) 0x120 ∧
    ¬ rerollSt.RerollSolution (BitVec.ofNat 32 (0x10 : BitVec 16).toNat) 0xF1 ∧
    ¬ rerollSt.RerollSolution (BitVec.ofNat 32 (0x10 : BitVec 16).toNat) 0x11F := by
  unfold State.RerollSolution; decide
theorem witness_LdxRegisterEffect : (0x16 : RegAddr) ≠ Reg.slx ∧
    rerollSt.RerollSolution (rerollSt.regVal 0x03) 0x120 := by
  unfold State.RerollSolution; decide

/-- The state of V-DT-11. -/
def hangSt : State := st [(0x10, 0xFFFFFFF0), (0x12, 0x20), (0x03, 0xFFFFFFF1)] []

/-- A code interval that no 16-bit length fits beside: the immediate form has no solution. -/
def hangImmSt : State := st [(0x10, 0x10), (0x12, 0xFFFFFFF0)] []

theorem no_solution {s : State} {l : Word} (_hl : l.toNat ≠ 0) (_hn : s.clx.toNat ≠ 0)
    (hlow : s.csx.toNat < l.toNat) (hhigh : 2 ^ 32 ≤ s.csx.toNat + s.clx.toNat) :
    ¬ ∃ x, s.RerollSolution l x := by
  rintro ⟨x, -, hx, h⟩
  omega

theorem witness_RerollWithoutSolutionHangs :
    (¬ ∃ x, hangImmSt.RerollSolution (BitVec.ofNat 32 (0x11 : BitVec 16).toNat) x) ∧
    (¬ ∃ x, hangSt.RerollSolution (hangSt.regVal 0x03) x) ∧
    ({ hangSt with wait := .hung } : State).mode = .running ∧
    ({ hangSt with wait := .hung } : State).ended = false :=
  ⟨no_solution (by decide) (by decide) (by decide) (by decide),
    no_solution (by decide) (by decide) (by decide) (by decide), by decide, by decide⟩
/-- The range is the default one; the first length that hangs and the last that does not, in a register and as an immediate. -/
theorem witness_DefaultRangeRerollHangCondition :
    hangSt.cfg.ssxRange = Config.fullRange ∧ hangImmSt.cfg.ssxRange = Config.fullRange ∧
    hangSt.NoStackRoom (hangSt.regVal 0x03) ∧ ¬ hangSt.NoStackRoom 0xFFFFFFF0 ∧
    hangImmSt.NoStackRoom (BitVec.ofNat 32 (0x11 : BitVec 16).toNat) ∧
    ¬ hangImmSt.NoStackRoom (BitVec.ofNat 32 (0x10 : BitVec 16).toNat) := by
  unfold State.NoStackRoom; decide

theorem witness_ExitAndAbortServices :
    (∀ sx ∈ [(1 : Word), 2], TrapsWith (.excV 1) (trapSt 1 sx []) 1 ∧ TrapsWith (.excX 0x04) (trapSt 1 sx []) 1) ∧
    (trapSt 1 1 []).sx = 1 ∧ (trapSt 1 2 []).sx = 2 := by
  refine ⟨fun sx hs => traps_both 1 sx [] ?_, by decide, by decide⟩
  fin_cases hs <;> decide
theorem witness_FileTrapDoesNothing :
    TrapsWith (.excV 3) (trapSt 3 1 []) 3 ∧ TrapsWith (.excX 0x04) (trapSt 3 1 []) 3 :=
  traps_both 3 1 [] (by decide)
/-- `sx` right outside the services of each trap, the trap numbers 0 and 4, and the first sink register. -/
theorem witness_TrapWithoutServiceDoesNothing :
    (TrapsWith (.excV 1) (trapSt 1 3 []) 1 ∧ (trapSt 1 3 []).sx ≠ 1 ∧ (trapSt 1 3 []).sx ≠ 2) ∧
    (TrapsWith (.excV 2) (trapSt 2 0 []) 2 ∧ (trapSt 2 0 []).sx.toNat = 0) ∧
    (TrapsWith (.excV 2) (trapSt 2 0xC []) 2 ∧ 0xC ≤ (trapSt 2 0xC []).sx.toNat) ∧
    (TrapsWith (.excV 0) (trapSt 0 1 []) 0 ∧ (0 : Word).toNat = 0) ∧
    (TrapsWith (.excV 4) (trapSt 4 1 []) 4 ∧ 4 ≤ (4 : Word).toNat) ∧ validReg 25 = false :=
  ⟨⟨(traps_both 1 3 [] (by decide)).1, by decide, by decide⟩,
    ⟨(traps_both 2 0 [] (by decide)).1, by decide⟩, ⟨(traps_both 2 0xC [] (by decide)).1, by decide⟩,
    ⟨(traps_both 0 1 [] (by decide)).1, by decide⟩, ⟨(traps_both 4 1 [] (by decide)).1, by decide⟩,
    by decide⟩
theorem witness_ConsoleWordOutputEffect :
    (TrapsWith (.excV 2) (trapSt 2 2 []) 2 ∧ (trapSt 2 2 []).sx = 2) ∧
    (TrapsWith (.excV 2) (trapSt 2 3 []) 2 ∧ (trapSt 2 3 []).sx = 3) ∧
    (TrapsWith (.excX 0x04) (trapSt 2 0xB []) 2 ∧ (trapSt 2 0xB []).sx = 0xB) :=
  ⟨⟨(traps_both 2 2 [] (by decide)).1, by decide⟩, ⟨(traps_both 2 3 [] (by decide)).1, by decide⟩,
    ⟨(traps_both 2 0xB [] (by decide)).2, by decide⟩⟩
theorem witness_ConsoleCharAndFloatOutputEffect :
    (TrapsWith (.excV 2) (trapSt 2 1 []) 2 ∧ (trapSt 2 1 []).sx = 1) ∧
    (TrapsWith (.excX 0x04) (trapSt 2 4 []) 2 ∧ (trapSt 2 4 []).sx = 4) :=
  ⟨⟨(traps_both 2 1 [] (by decide)).1, by decide⟩, ⟨(traps_both 2 4 [] (by decide)).2, by decide⟩⟩
theorem witness_PrintStringEffect : TrapsWith (.excV 2) (trapSt 2 5 []) 2 ∧ (trapSt 2 5 []).sx = 5 :=
  ⟨(traps_both 2 5 [] (by decide)).1, by decide⟩
/-- Every read service without a line, and a core that waits for one. -/
theorem witness_ReadServiceWaitsForLine :
    (∀ svc : ReadService, TrapsWith (.excV 2) (trapSt 2 (serviceNumber svc) []) 2 ∧
      (trapSt 2 (serviceNumber svc) []).sx = serviceNumber svc ∧
      (trapSt 2 (serviceNumber svc) []).lines = []) ∧
    ({ trapSt 2 6 [] with wait := .line .char } : State).mode = .running ∧
    ({ trapSt 2 6 [] with wait := .line .char } : State).ended = false ∧
    ({ trapSt 2 6 [] with wait := .line .char } : State).lines = [] := by
  refine ⟨fun svc => ⟨(traps_both 2 _ [] ?_).1, ?_, ?_⟩, by decide, by decide, by decide⟩ <;>
    cases svc <;> decide
/-- A first character below 0x80, one at 0x80, and an empty line. -/
theorem witness_ReadCharEffect :
    TrapsWith (.excV 2) (trapSt 2 6 [[0x7F], [0x80], []]) 2 ∧
    (trapSt 2 6 [[0x7F], [0x80], []]).sx = 6 ∧
    (trapSt 2 6 [[0x7F], [0x80], []]).lines = (0x7F :: []) :: [[0x80], []] ∧
    TrapsWith (.excV 2) (trapSt 2 6 [[0x80], []]) 2 ∧ (trapSt 2 6 [[0x80], []]).sx = 6 ∧
    (trapSt 2 6 [[0x80], []]).lines = (0x80 :: []) :: [[]] ∧
    TrapsWith (.excV 2) (trapSt 2 6 [[]]) 2 ∧ (trapSt 2 6 [[]]).sx = 6 ∧
    (trapSt 2 6 [[]]).lines = [] :: [] :=
  ⟨(traps_both 2 6 _ (by decide)).1, by decide, by decide, (traps_both 2 6 _ (by decide)).1, by decide,
    by decide, (traps_both 2 6 _ (by decide)).1, by decide, by decide⟩
theorem witness_ReadNumberEffect :
    (TrapsWith (.excV 2) (trapSt 2 7 [[0x31]]) 2 ∧ (trapSt 2 7 [[0x31]]).lines = [0x31] :: [] ∧
      (trapSt 2 7 [[0x31]]).sx = 7) ∧
    (TrapsWith (.excV 2) (trapSt 2 8 [[0x31]]) 2 ∧ (trapSt 2 8 [[0x31]]).lines = [0x31] :: [] ∧
      (trapSt 2 8 [[0x31]]).sx = 8) ∧
    (TrapsWith (.excX 0x04) (trapSt 2 9 [[0x31]]) 2 ∧ (trapSt 2 9 [[0x31]]).lines = [0x31] :: [] ∧
      (trapSt 2 9 [[0x31]]).sx = 9) :=
  ⟨⟨(traps_both 2 7 _ (by decide)).1, by decide, by decide⟩,
    ⟨(traps_both 2 8 _ (by decide)).1, by decide, by decide⟩,
    ⟨(traps_both 2 9 _ (by decide)).2, by decide, by decide⟩⟩
/-- A line, and the empty one. -/
theorem witness_ReadLineOntoStackEffect :
    (TrapsWith (.excV 2) (trapSt 2 0xA [[0x61, 0x62]]) 2 ∧ (trapSt 2 0xA [[0x61, 0x62]]).sx = 0xA ∧
      (trapSt 2 0xA [[0x61, 0x62]]).lines = [0x61, 0x62] :: []) ∧
    (TrapsWith (.excX 0x04) (trapSt 2 0xA [[]]) 2 ∧ (trapSt 2 0xA [[]]).sx = 0xA ∧
      (trapSt 2 0xA [[]]).lines = [] :: []) :=
  ⟨⟨(traps_both 2 0xA _ (by decide)).1, by decide, by decide⟩,
    ⟨(traps_both 2 0xA _ (by decide)).2, by decide, by decide⟩⟩

/-- `exc 2` at `ipx`, with `sx` set. -/
def readSt (sx : Word) : State := at1000 ⟨0x06, 0, 0, 2⟩ [(0x17, sx)]

theorem ready_of {s : State} (h : (s.mode = .running ∧ s.ended = false) ∧ s.wait = .none) : s.Ready :=
  ⟨h.1.1, h.1.2, h.2⟩

theorem witness_SuspendedReadCompletesAlike : (readSt 0xA).Ready ∧ (readSt 0xA).lines = [] ∧
    step (readSt 0xA) = .next (after (step (readSt 0xA))) ∧
    (after (step (readSt 0xA))).wait = .line .stackLine :=
  ⟨ready_of (by decide), by decide, next_after (by decide), by decide⟩
/-- The divisors 1 and 0. -/
theorem witness_DivImmediateEffect : (1 : BitVec 16).toNat ≠ 0 ∧ (0 : BitVec 16).toNat = 0 := by decide
theorem witness_DivRegisterEffect : ((st [(1, 1)] []).regVal 1).toNat ≠ 0 ∧
    ((st [(1, 1)] []).regVal 2).toNat = 0 ∧ ((st [(1, 1)] []).regVal 25).toNat = 0 := by decide

/-- An instruction that completes, one that is suspended, and one whose input is unspecified. -/
theorem witness_StepRunsDecodedInstruction :
    (at1000 ⟨0, 0, 0, 0⟩ []).Ready ∧ Instr.wellFormed .nop = true ∧
    decode (at1000 ⟨0, 0, 0, 0⟩ []).fetched = .ok .nop ∧
    (after (exec .nop (at1000 ⟨0, 0, 0, 0⟩ []).noteFetch)).wait = .none ∧
    (readSt 6).Ready ∧ decode (readSt 6).fetched = .ok (.excV 2) ∧
    (after (exec (.excV 2) (readSt 6).noteFetch)).wait ≠ .none ∧
    exec (.excV 2) ({ readSt 6 with lines := [[]] } : State).noteFetch = .fault .consoleInputUnspecified ∧
    (readSt 6).inMemory 0x1003 = true :=
  ⟨ready_of (by decide), by decide, rfl, by decide, ready_of (by decide), rfl, by decide, rfl, by decide⟩

/-- `ipx` at the first address outside memory. -/
def outsideSt : State := st [(0x11, 0x8000000)] []

theorem witness_FetchOutsideMemoryIsNop :
    outsideSt.inMemory outsideSt.ipx = false ∧ outsideSt.inMemory (outsideSt.ipx + 1) = false ∧
    outsideSt.inMemory (outsideSt.ipx + 2) = false ∧ outsideSt.inMemory (outsideSt.ipx + 3) = false := by
  decide

/-- What the executor of the next step gives. -/
def executed (s : State) : State := after (execute s.fetched s.noteFetch)

/-- `nop` as the last instruction of its segment, and with one more behind it. -/
def nopSt (clx : Word) : State := at1000 ⟨0, 0, 0, 0⟩ [(0x12, clx)]

theorem executed_eq {s : State} (h : isNext (execute s.fetched s.noteFetch) = true) :
    execute s.fetched s.noteFetch = .next (executed s) := next_after h

theorem witness_PostIncrementOnEveryCompletedStep : (nopSt 4).Ready ∧
    execute (nopSt 4).fetched (nopSt 4).noteFetch = .next (executed (nopSt 4)) ∧
    (executed (nopSt 4)).wait = .none :=
  ⟨ready_of (by decide), executed_eq (by decide), by decide⟩
/-- `nop` in step mode with the host's answers. -/
def stepSt (clx : Word) (answers : List DebugAnswer) : State :=
  { nopSt clx with dbg := .step, answers := answers }

/-- Without a debug mode and in step mode, the incremented `ipx` at the bound and one below it. -/
theorem witness_EndOfCodeTest :
    (∀ s ∈ [nopSt 4, nopSt 5, stepSt 4 [.continue], stepSt 5 [.continue]],
      s.Ready ∧ execute s.fetched s.noteFetch = .next (executed s) ∧ (executed s).wait = .none ∧
      (executed s).code = .cont ∧ ((executed s).dbg ≠ .step ∨ (executed s).answers = .continue :: []) ∧
      step s = .next (after (step s))) ∧
    (∀ s ∈ [nopSt 4, stepSt 4 [.continue]],
      (after (step s)).bound.toNat ≤ (after (step s)).ipx.toNat) ∧
    (∀ s ∈ [nopSt 5, stepSt 5 [.continue]],
      (after (step s)).ipx.toNat < (after (step s)).bound.toNat) := by
  refine ⟨fun s hs => ?_, fun s hs => ?_, fun s hs => ?_⟩
  · fin_cases hs <;> exact ⟨ready_of (by decide), executed_eq (by decide), by decide, by decide, by decide,
      next_after (by decide)⟩
  · fin_cases hs <;> decide
  · fin_cases hs <;> decide
/-- A read that was suspended and whose line has come. -/
def suspendedSt : State :=
  { readSt 0xA with dbg := .both, wait := .line .stackLine, lines := [[0x61]] }

/-- An instruction in every debug mode, one that ends the process, and a suspended read whose line has come. -/
theorem witness_CompletedStepSendsOneView :
    (∀ s ∈ [nopSt 8, { nopSt 4 with dbg := .regs }, { nopSt 8 with dbg := .stack }, { nopSt 8 with dbg := .both },
        stepSt 8 [], stepSt 8 [.stop], { at1000 ⟨0x06, 0, 0, 1⟩ [(0x17, 1)] with dbg := .both }],
      s.mode = .running ∧ s.ended = false ∧ s.wait = .none ∧
      execute s.fetched s.noteFetch = .next (executed s) ∧ (executed s).wait = .none) ∧
    (suspendedSt.mode = .running ∧ suspendedSt.ended = false ∧ suspendedSt.wait = .line .stackLine ∧
      suspendedSt.lines = [0x61] :: [] ∧
      completeRead .stackLine [0x61] { suspendedSt with lines := [], wait := .none } =
        .next (after (completeRead .stackLine [0x61] { suspendedSt with lines := [], wait := .none }))) := by
  refine ⟨fun s hs => ?_, by decide, by decide, by decide, by decide, rfl⟩
  fin_cases hs <;> exact ⟨by decide, by decide, by decide, executed_eq (by decide), by decide⟩
theorem witness_BoundByEocMode : (nopSt 4).cfg.eocMode = .live ∧
    ({ nopSt 4 with cfg := { State.reset.cfg with eocMode := .latched } } : State).cfg.eocMode = .latched := by
  decide

/-- The exit service at `ipx`, in a debug mode, with the host's answers. -/
def exitSt (dbg : DebugMode) (answers : List DebugAnswer) : State :=
  { at1000 ⟨0x06, 0, 0, 1⟩ [(0x17, 1)] with dbg := dbg, answers := answers }

theorem witness_ExecutorsReasonWins :
    ∀ c ∈ [(DebugMode.none, ([] : List DebugAnswer)), (.both, []), (.step, [.stop]), (.step, [.continue]),
        (.step, [])],
      (exitSt c.1 c.2).Ready ∧
      execute (exitSt c.1 c.2).fetched (exitSt c.1 c.2).noteFetch = .next (executed (exitSt c.1 c.2)) ∧
      (executed (exitSt c.1 c.2)).wait = .none ∧ (executed (exitSt c.1 c.2)).code = .terminate .exit ∧
      (executed (exitSt c.1 c.2)).dbg = c.1 ∧ (executed (exitSt c.1 c.2)).answers = c.2 := by
  intro c hc
  fin_cases hc <;> exact ⟨ready_of (by decide), executed_eq (by decide), by decide, by decide, by decide, by decide⟩

/-- A step that waited for the host and was then told to continue. -/
def answered (clx : Word) : State :=
  after (step { after (step (stepSt clx [])) with answers := [.continue] })

/-- A stop, a continue at the bound and below it, and no answer, followed by a continue at the bound and below it. -/
theorem witness_StepModeAsksTheHost :
    (∀ c ∈ [((4 : Word), [DebugAnswer.stop]), (4, [.continue]), (8, [.continue]), (8, [])],
      (stepSt c.1 c.2).Ready ∧
      execute (stepSt c.1 c.2).fetched (stepSt c.1 c.2).noteFetch = .next (executed (stepSt c.1 c.2)) ∧
      (executed (stepSt c.1 c.2)).wait = .none ∧ (executed (stepSt c.1 c.2)).code = .cont ∧
      (executed (stepSt c.1 c.2)).dbg = .step ∧ (executed (stepSt c.1 c.2)).answers = c.2) ∧
    (after (step (stepSt 4 [.continue]))).bound.toNat ≤ (after (step (stepSt 4 [.continue]))).ipx.toNat ∧
    (after (step (stepSt 8 [.continue]))).ipx.toNat < (after (step (stepSt 8 [.continue]))).bound.toNat ∧
    (∀ c ∈ [((4 : Word), true), (8, false)],
      decide ((answered c.1).bound.toNat ≤ (answered c.1).ipx.toNat) = c.2) := by
  refine ⟨fun c hc => ?_, by decide, by decide, fun c hc => by fin_cases hc <;> decide⟩
  fin_cases hc <;> exact ⟨ready_of (by decide), executed_eq (by decide), by decide, by decide, by decide, by decide⟩
theorem witness_DebugViewChangesNoState : ∀ d ∈ [DebugMode.regs, .stack, .both],
    ({ nopSt 8 with dbg := d } : State).Ready ∧
    step { nopSt 8 with dbg := d } = .next (after (step { nopSt 8 with dbg := d })) := by
  intro d hd
  fin_cases hd <;> exact ⟨ready_of (by decide), next_after (by decide)⟩
/-- The first invalid opcode, in a debug mode, with the host's answers. -/
def invalidSt (dbg : DebugMode) (answers : List DebugAnswer) : State :=
  { at1000 ⟨0x25, 0, 0, 0⟩ [] with dbg := dbg, answers := answers }

theorem witness_InvalidOpcodeTerminates :
    ∀ c ∈ [(DebugMode.none, ([] : List DebugAnswer)), (.regs, []), (.step, [.stop]), (.step, [.continue])],
      (invalidSt c.1 c.2).Ready ∧ ((invalidSt c.1 c.2).dbg = .step → (invalidSt c.1 c.2).answers ≠ []) ∧
      0x25 ≤ (invalidSt c.1 c.2).fetched.a.toNat := by
  intro c hc
  fin_cases hc <;> exact ⟨ready_of (by decide), by decide, by decide⟩
/-- An immediate of 0, a register that holds 0 and the first sink register, without a debug mode and in step mode. -/
theorem witness_DivisionByZeroTerminates :
    (∀ q ∈ [(⟨0x16, 1, 0, 0⟩ : Quad), ⟨0x17, 1, 2, 0⟩, ⟨0x17, 1, 25, 0⟩],
      (at1000 q []).Ready ∧ (at1000 q []).dbg ≠ .step ∧
      ({ at1000 q [] with dbg := .step, answers := [.stop] } : State).Ready ∧
      ({ at1000 q [] with dbg := .step, answers := [.stop] } : State).answers ≠ []) ∧
    decode (at1000 ⟨0x16, 1, 0, 0⟩ []).fetched = .ok (.divXV 1 0) ∧
    decode (at1000 ⟨0x17, 1, 2, 0⟩ []).fetched = .ok (.divXX 1 2) ∧
    (at1000 ⟨0x17, 1, 2, 0⟩ []).regVal 2 = 0 ∧
    decode (at1000 ⟨0x17, 1, 25, 0⟩ []).fetched = .ok (.divXX 1 25) ∧
    (at1000 ⟨0x17, 1, 25, 0⟩ []).regVal 25 = 0 := by
  refine ⟨fun q hq => ?_, rfl, rfl, by decide, rfl, by decide⟩
  fin_cases hq <;> exact ⟨ready_of (by decide), by decide, ready_of (by decide), by decide⟩

/-- An Idle core with requests of the host. -/
def idleSt (cmds : List HostCmd) : State := { State.reset with hostCmds := cmds }

theorem witness_IdleExecutesNothing :
    (idleSt []).mode = .idle ∧ (idleSt []).ended = false ∧ (idleSt []).hostCmds = [] ∧
    (idleSt [.setDebug .step]).mode = .idle ∧ (idleSt [.setDebug .step]).hostCmds = .setDebug .step :: [] ∧
    (idleSt [.quit]).mode = .idle ∧ (idleSt [.quit]).hostCmds = .quit :: [] := by decide
/-- An image of one instruction, with a live and with a latched bound. -/
theorem witness_StartSequence :
    (idleSt [.start (some [0, 0, 0, 0])]).mode = .idle ∧
    (idleSt [.start (some [0, 0, 0, 0])]).ended = false ∧
    (idleSt [.start (some [0, 0, 0, 0])]).hostCmds = .start (some [0, 0, 0, 0]) :: [] ∧
    Image.wellFormed [0, 0, 0, 0] = true ∧ (idleSt []).cfg.wellFormed = true ∧
    Params.wellFormed { State.reset.cfg with eocMode := .latched } = true := by decide
theorem witness_RefusedStartChangesNothing :
    (∀ image ∈ [none, some [], some [0, 0, 0, 0, 0, 0]],
      (idleSt [.start image]).mode = .idle ∧ (idleSt [.start image]).ended = false ∧
      (idleSt [.start image]).hostCmds = .start image :: []) ∧
    ([0, 0, 0, 0, 0, 0] : Image).length % 4 ≠ 0 ∧ running.mode = .running ∧
    step (nopSt 8) = .next (after (step (nopSt 8))) ∧ (nopSt 8).mode = .running := by
  refine ⟨fun image h => ?_, by decide, by decide, next_after (by decide), by decide⟩
  fin_cases h <;> decide
/-- A failed allocation, the default length, and a requested length. -/
theorem witness_ConstructionReset :
    (State.construct { Construction.default with allocated := false }).cfg.memSize = 0 ∧
    (State.construct { Construction.default with allocated := false }).out = [.report .allocationFailed] ∧
    State.reset.out = [] ∧
    State.reset.cfg.memSize = 134217728 ∧
    (State.construct { Construction.default with request := 256 }).cfg.memSize = 256 := by decide

theorem inv_running {s : State} (hp : s.cfg.wellFormed = true) (hm : s.mem.wf = true)
    (hb : s.mem.below s.cfg.memSize = true)
    (h : s.mode = .running ∧ s.proc = some { started := true, aborted := false })
    (hc : s.code = .cont) (hw : s.wait ≠ .debugAnswer) (he : s.ended = false) : s.Inv where
  params := hp
  memWf := hm
  memBelow := hb
  running := by simp [h]
  idle := by simp [h]
  code _ := hc
  answer h' := absurd h' hw
  ended h' := by simp [he] at h'

/-- A Running core with code in memory that completes a step, and one that waits for a line. -/
theorem witness_StepKeepsInvariant :
    ((nopSt 8).Inv ∧ step (nopSt 8) = .next (after (step (nopSt 8)))) ∧
    (({ readSt 6 with wait := .line .char } : State).Inv ∧
      step { readSt 6 with wait := .line .char } =
        .next (after (step { readSt 6 with wait := .line .char }))) :=
  ⟨⟨inv_running (by decide) (by decide) (by decide) (by decide) (by decide) (by decide) (by decide),
      next_after (by decide)⟩,
    ⟨inv_running (by decide) (by decide) (by decide) (by decide) (by decide) (by decide) (by decide),
      next_after (by decide)⟩⟩
theorem witness_InstructionsWriteOnlyTheirRegisters :
    exec (.subXX 1 2) (nopSt 8) = .next (after (exec (.subXX 1 2) (nopSt 8))) ∧
    (2 : RegAddr) ∉ mayWrite (.subXX 1 2) := ⟨next_after (by decide), by decide⟩
/-- A store, and a push. -/
theorem witness_OnlyStoresAndPushesChangeMemory :
    (exec (.setV 7) (nopSt 8) = .next (after (exec (.setV 7) (nopSt 8))) ∧
      (after (exec (.setV 7) (nopSt 8))).memVal 0 ≠ (nopSt 8).memVal 0) ∧
    (exec (.excV 2) (trapSt 2 0xA [[0x61]]) = .next (after (exec (.excV 2) (trapSt 2 0xA [[0x61]]))) ∧
      (after (exec (.excV 2) (trapSt 2 0xA [[0x61]]))).memVal 1 ≠ (trapSt 2 0xA [[0x61]]).memVal 1) :=
  ⟨⟨next_after (by decide), by decide⟩, ⟨next_after (by decide), by decide⟩⟩
theorem witness_OnlyExitAndAbortChangeExitCode :
    step (exitSt .none []) = .next (after (step (exitSt .none []))) ∧
    (after (step (exitSt .none []))).ec ≠ (exitSt .none []).ec := ⟨next_after (by decide), by decide⟩
theorem witness_RunningEndsOnlyByHalt : (nopSt 4).mode = .running ∧
    step (nopSt 4) = .next (after (step (nopSt 4))) ∧ (after (step (nopSt 4))).mode = .idle :=
  ⟨by decide, next_after (by decide), by decide⟩
theorem witness_ReadyAfterRunningIsBelowBound : (nopSt 5).mode = .running ∧ (nopSt 5).ended = false ∧
    step (nopSt 5) = .next (after (step (nopSt 5))) ∧ (after (step (nopSt 5))).Ready :=
  ⟨by decide, by decide, next_after (by decide), ready_of (by decide)⟩
/-- The fault at once and after a wait. -/
theorem witness_StepFaultsOnlyOnConsoleInput :
    step { readSt 6 with lines := [[]] } = .fault .consoleInputUnspecified ∧
    step { readSt 6 with lines := [[]], wait := .line .char } = .fault .consoleInputUnspecified :=
  ⟨rfl, rfl⟩

end Sys2Proof.Tests
end

/-! PROOFS of the statements of 00_scope.md: the access primitives (R16, R17), and how Running ends. -/

namespace Sys2Proof.Machine

/-! ### The register accesses on both sides of the sink (R16) -/

theorem validReg_iff (a : RegAddr) : validReg a = true ↔ a.toNat < 25 := by simp [validReg]

theorem validReg_eq_false_iff (a : RegAddr) : validReg a = false ↔ 25 ≤ a.toNat := by simp [validReg]

/-- The slot that a register address selects holds what a read of it returns. -/
theorem State.rf_getElem?_of_validReg (s : State) {a : RegAddr} (h : validReg a = true) :
    s.rf[a.toNat]? = some (s.regVal a) := by
  have hslot : a.toNat < 25 := (validReg_iff a).mp h
  simp [State.regVal, RegFile.read, Vector.getElem?_eq_getElem hslot]

theorem State.noteReg_sink (s : State) {a : RegAddr} (h : validReg a = false) :
    s.noteReg a = s.report (.badRegister a) := by simp [State.noteReg, h]

theorem State.putReg_sink (v : Word) (s : State) {a : RegAddr} (h : validReg a = false) :
    s.putReg a v = s.report (.badRegister a) := by simp [State.putReg, h]

theorem State.sameMem_putReg (a : RegAddr) (v : Word) (s : State) : s.SameMem (s.putReg a v) :=
  fun b => State.memVal_putReg a v s b

theorem State.sameRest_putReg (a : RegAddr) (v : Word) (s : State) : s.SameRest (s.putReg a v) := by
  constructor <;> simp

/-- A write to a slot sends nothing out. -/
theorem State.putReg_out_of_validReg (v : Word) (s : State) {a : RegAddr} (h : validReg a = true) :
    (s.putReg a v).out = s.out := by simp [h]

/-- Settles O6: each access is the slot's below address 25, and the sink's from there on. -/
theorem registerAccessAndSink : Obligations.RegisterAccessAndSink := by
  intro s a v
  constructor
  · intro hslot
    have hv : validReg a = true := (validReg_iff a).mpr hslot
    refine ⟨s.rf_getElem?_of_validReg hv, s.noteReg_valid a hv, ?same, ?other,
      s.sameMem_putReg a v, s.sameRest_putReg a v, s.putReg_out_of_validReg v hv⟩
    case same => rw [State.regVal_putReg, if_pos ⟨rfl, hv⟩]
    case other =>
      intro b hba
      rw [State.regVal_putReg, if_neg (fun h => hba h.1)]
  · intro hsink
    have hv : validReg a = false := (validReg_eq_false_iff a).mpr hsink
    exact ⟨s.regVal_sink a hv, s.noteReg_sink hv, s.putReg_sink v hv⟩

/-! ### The memory accesses on both sides of MEM_SIZE (R17, R52) -/

theorem State.inMemory_iff (s : State) (a : Word) : s.inMemory a = true ↔ a.toNat < s.cfg.memSize := by
  simp [State.inMemory]

theorem State.inMemory_eq_false_iff (s : State) (a : Word) :
    s.inMemory a = false ↔ s.cfg.memSize ≤ a.toNat := by
  simp [State.inMemory]

theorem State.memVal_inside (s : State) {a : Word} (h : s.inMemory a = true) :
    s.memVal a = s.mem.read a.toNat := by simp [State.memVal, h]

theorem State.noteMem_outside (s : State) {a : Word} (h : s.inMemory a = false) :
    s.noteMem a = s.report (.badIndex a) := by simp [State.noteMem, h]

theorem State.putMem_outside (v : Byte) (s : State) {a : Word} (h : s.inMemory a = false) :
    s.putMem a v = s.report (.badIndex a) := by simp [State.putMem, h]

theorem State.sameRegs_putMem (a : Word) (v : Byte) (s : State) : s.SameRegs (s.putMem a v) :=
  fun b => State.regVal_putMem a v s b

theorem State.sameRest_putMem (a : Word) (v : Byte) (s : State) : s.SameRest (s.putMem a v) := by
  constructor <;> simp

/-- A store to a cell that exists sends nothing out. -/
theorem State.putMem_out_inside (v : Byte) (s : State) {a : Word} (h : s.inMemory a = true) :
    (s.putMem a v).out = s.out := by simp [outsideReports, h]

/-- Settles O7: each access is the cell's below MEM_SIZE, and from there on reads 0 or is discarded. -/
theorem memoryAccessAndSink : Obligations.MemoryAccessAndSink := by
  intro s a v
  constructor
  · intro hcell
    have hin : s.inMemory a = true := (s.inMemory_iff a).mpr hcell
    refine ⟨s.memVal_inside hin, s.noteMem_inside a hin, ?same, ?other,
      s.sameRegs_putMem a v, s.sameRest_putMem a v, s.putMem_out_inside v hin⟩
    case same => rw [State.memVal_putMem, if_pos ⟨rfl, hin⟩]
    case other =>
      intro b hba
      rw [State.memVal_putMem, if_neg (fun h => hba h.1)]
  · intro houtside
    have hin : s.inMemory a = false := (s.inMemory_eq_false_iff a).mpr houtside
    exact ⟨s.memVal_outside a hin, s.noteMem_outside hin, s.putMem_outside v hin⟩

/-! ### How Running ends (R228) -/

/-- The end of a step keeps the mode, or it is a halt. -/
theorem State.finish_keepsMode_or_halts (t : State) :
    t.finish.mode = t.mode ∨ ∃ r, t.finish.Halted r := by
  by_cases hw : t.wait = .none
  · rw [finish_completed hw]
    obtain ⟨hend, -⟩ := t.postIncrement.debugView_frame
    exact hend.running.imp_left And.left
  · exact .inl (by rw [finish_waiting hw])

/-- An executor in its frame, with what follows it, keeps the mode, or the process ends by a halt. -/
theorem afterExec_keepsMode_or_halts {o : Result} {s u : State}
    (hframe : ∀ t, o = .next t → ExecFrame s t) (h : afterExec o = .next u) :
    u.mode = s.mode ∨ ∃ r, u.Halted r := by
  obtain ⟨t, ho, rfl⟩ := afterExec_next h
  rw [← (hframe t ho).frame.mode]
  exact t.finish_keepsMode_or_halts

/-- A step of a waiting core keeps the mode, or the process ends by a halt. -/
theorem waitStep_keepsMode_or_halts {w : Wait} {s t : State} (h : waitStep w s = .next t) :
    t.mode = s.mode ∨ ∃ r, t.Halted r := by
  cases w with
  | none => cases h; exact .inl rfl
  | hung => cases h; exact .inl rfl
  | line svc =>
    unfold waitStep at h
    dsimp only at h
    split at h
    · cases h; exact .inl rfl
    · next rest _ =>
      exact afterExec_keepsMode_or_halts (s := { s with lines := rest, wait := .none })
        (fun _ => completeRead_frame) h
  | debugAnswer =>
    unfold waitStep at h
    dsimp only at h
    split at h
    · cases h; exact .inl rfl
    · cases h; exact (State.conclude_frame _ _).running.imp_left And.left

/-- A Running core stays Running over a step, or its process ends by a halt. -/
theorem step_staysRunning_or_halts {s t : State} (hrun : s.mode = .running) (h : step s = .next t) :
    t.mode = .running ∨ ∃ r, t.Halted r := by
  rcases step_cases h with ⟨-, hquit⟩ | ⟨-, hidle, -⟩ | ⟨-, hexec⟩ | ⟨-, -, -, hwait⟩
  · cases hquit; exact .inl hrun
  · simp [hrun] at hidle
  · have hmode : s.noteFetch.mode = .running := s.noteFetch_frame.mode.trans hrun
    rw [← hmode]
    exact afterExec_keepsMode_or_halts (fun _ => execute_frame) hexec.symm
  · rw [← hrun]
    exact waitStep_keepsMode_or_halts hwait.symm

/-- Settles O57: of the two ends of a Running step, only the halt is in Idle. -/
theorem runningEndsOnlyByHalt : Obligations.RunningEndsOnlyByHalt := by
  intro s t hrun hstep hidle
  rcases step_staysRunning_or_halts hrun hstep with hrunning | hhalted
  · simp [hidle] at hrunning
  · exact hhalted

end Sys2Proof.Machine

/-! PROOFS of the statements of 10_state.md: what changes the exit code (R33), and the invariant (d) of R43. -/

namespace Sys2Proof.Machine

/-! ### What a Running step ends with -/

/-- Everything a waiting core's step can do: nothing, complete the read on the host's line, or end the step on the host's answer. -/
theorem waitStep_cases {w : Wait} {s t : State} (h : waitStep w s = .next t) :
    t = s ∨
    (∃ svc L rest u, completeRead svc L { s with lines := rest, wait := .none } = .next u ∧
      t = u.finish) ∨
    (∃ ans rest, t = { s with answers := rest, wait := .none }.conclude (answerStops ans)) := by
  cases w with
  | none => cases h; exact .inl rfl
  | hung => cases h; exact .inl rfl
  | line svc =>
    unfold waitStep at h
    dsimp only at h
    split at h
    · cases h; exact .inl rfl
    · next L rest _ =>
      obtain ⟨u, hread, rfl⟩ := afterExec_next h
      exact .inr (.inl ⟨svc, L, rest, u, hread, rfl⟩)
  | debugAnswer =>
    unfold waitStep at h
    dsimp only at h
    split at h
    · cases h; exact .inl rfl
    · next ans rest _ => cases h; exact .inr (.inr ⟨ans, rest, rfl⟩)

/-! ### The end-of-code test before the next instruction (R226) -/

/-- A step that ends without a halt has passed the end-of-code test. -/
theorem State.conclude_ready_below_bound {stop : Bool} {s : State} (h : (s.conclude stop).Ready) :
    (s.conclude stop).ipx.toNat < (s.conclude stop).bound.toNat := by
  have halt_not_ready : ∀ r, ¬ (s.halt r).Ready := fun r hr => by cases hr.mode
  rcases conclude_cases stop s with ⟨r, -, hc⟩ | ⟨-, -, hc⟩ | ⟨-, -, -, hc⟩ | ⟨-, -, hlt, hc⟩ <;>
    rw [hc] at h ⊢
  · exact absurd h (halt_not_ready r)
  · exact absurd h (halt_not_ready _)
  · exact absurd h (halt_not_ready _)
  · exact hlt

/-- The debug view ends in the end-of-code test, or it leaves the core waiting for the host. -/
theorem State.debugView_ready_below_bound {s : State} (h : s.debugView.Ready) :
    s.debugView.ipx.toNat < s.debugView.bound.toNat := by
  rcases debugView_cases s with ⟨-, hv⟩ | ⟨-, -, hv⟩ | ⟨-, -, hv⟩ | ⟨-, ans, rest, -, hv⟩ <;>
    rw [hv] at h ⊢
  · exact conclude_ready_below_bound h
  · exact conclude_ready_below_bound h
  · cases h.wait
  · exact conclude_ready_below_bound h

/-- An instruction that is not completed leaves a core that waits, and a completed one ends in the debug view. -/
theorem State.finish_ready_below_bound {t : State} (h : t.finish.Ready) :
    t.finish.ipx.toNat < t.finish.bound.toNat := by
  by_cases hw : t.wait = .none
  · rw [finish_completed hw] at h ⊢
    exact debugView_ready_below_bound h
  · rw [finish_waiting hw] at h
    exact absurd h.wait hw

/-- Settles O58: every step to a ready state ends in the end-of-code test, for a core that waits in vain is not ready. -/
theorem readyAfterRunningIsBelowBound : Obligations.ReadyAfterRunningIsBelowBound := by
  intro s t hrun hlive hstep hready
  rcases step_cases hstep with ⟨hquit, -⟩ | ⟨-, hidle, -⟩ | ⟨-, hexec⟩ | ⟨-, -, hwaiting, hwait⟩
  · simp [hlive] at hquit
  · simp [hrun] at hidle
  · obtain ⟨u, -, rfl⟩ := afterExec_next hexec.symm
    exact State.finish_ready_below_bound hready
  · rcases waitStep_cases hwait.symm with rfl | ⟨_, _, _, u, -, rfl⟩ | ⟨_, _, rfl⟩
    · exact absurd hready.wait hwaiting
    · exact State.finish_ready_below_bound hready
    · exact State.conclude_ready_below_bound hready

/-! ### The exit code over the shared operations of the executors (R33) -/

theorem aluImm_ec {f : Word → Word → Word} {b : RegAddr} {imm : BitVec 16} {s t : State}
    (h : aluImm f b imm s = .next t) : t.ec = s.ec := by
  cases h; simp

theorem aluReg_ec {f : Word → Word → Word} {b c : RegAddr} {s t : State}
    (h : aluReg f b c s = .next t) : t.ec = s.ec := by
  cases h; simp

theorem divZero_ec {s t : State} (h : divZero s = .next t) : t.ec = s.ec := by
  cases h; simp

theorem jumpImm_ec {taken : Bool} {off : BitVec 16} {s t : State}
    (h : jumpImm taken off s = .next t) : t.ec = s.ec := by
  cases taken <;> cases h <;> simp

theorem jumpReg_ec {taken : Bool} {b : RegAddr} {s t : State}
    (h : jumpReg taken b s = .next t) : t.ec = s.ec := by
  cases taken <;> cases h <;> simp

@[simp] theorem State.rerollSsx_ec (s : State) : s.rerollSsx.ec = s.ec := by
  unfold State.rerollSsx
  split <;> simp

@[simp] theorem State.loadReg_ec (b : RegAddr) (v : Word) (s : State) : (s.loadReg b v).ec = s.ec := by
  unfold State.loadReg
  dsimp only
  split <;> simp

@[simp] theorem State.compare_ec (l r : Word) (s : State) : (s.compare l r).ec = s.ec := by
  simp [State.compare]

@[simp] theorem copyCode_ec (addr : Word) (img : Image) (s : State) : (copyCode addr img s).ec = s.ec := by
  obtain ⟨-, hframe, -⟩ := copyCode_spec addr img s
  exact (congrArg State.ec hframe :)

@[simp] theorem pushLine_ec (L : List Byte) (s : State) : (pushLine L s).ec = s.ec := by
  obtain ⟨-, -, hframe, -⟩ := pushLine_spec L s
  exact (congrArg State.ec hframe :)

@[simp] theorem noteString_ec (n : Nat) (addr : Word) (s : State) : (noteString n addr s).ec = s.ec := by
  obtain ⟨hframe, -⟩ := noteString_spec n addr s
  exact (congrArg State.ec hframe :)

@[simp] theorem State.noteFetch_ec (s : State) : s.noteFetch.ec = s.ec :=
  (congrArg State.ec s.noteFetch_eq :)

@[simp] theorem State.regVal_noteFetch (s : State) (a : RegAddr) : s.noteFetch.regVal a = s.regVal a := by
  simp [State.noteFetch]

/-! ### The exit code over the traps (R124, R125) -/

theorem trapNothing_ec {s t : State} (h : trapNothing s = .next t) : t.ec = s.ec := by
  cases h; simp

theorem consoleOut_ec {c : ConsoleEvent} {s t : State} (h : consoleOut c s = .next t) :
    t.ec = s.ec := by
  cases h; simp

theorem printString_ec {s t : State} (h : printString s = .next t) : t.ec = s.ec :=
  (consoleOut_ec h).trans (noteString_ec _ _ _)

theorem giveX0_ec {w : Word} {s t : State} (h : giveX0 w s = .next t) : t.ec = s.ec := by
  cases h; simp

theorem giveParsed_ec {w : Option Word} {s t : State} (h : giveParsed w s = .next t) :
    t.ec = s.ec := by
  cases w with
  | none => cases h
  | some v => exact giveX0_ec h

theorem completeRead_ec {svc : ReadService} {L : List Byte} {s t : State}
    (h : completeRead svc L s = .next t) : t.ec = s.ec := by
  cases svc with
  | char =>
    cases L with
    | nil => cases h
    | cons ch L => exact (giveX0_ec h).trans s.countDraw_ec
  | unsigned | signed | float => exact giveParsed_ec h
  | stackLine => cases h; simp

theorem readLine_ec {svc : ReadService} {s t : State} (h : readLine svc s = .next t) :
    t.ec = s.ec := by
  unfold readLine at h
  dsimp only at h
  split at h
  · cases h; simp
  · exact (completeRead_ec h :)

/-- No console service changes the exit code. -/
theorem consoleService_ec {s t : State} (h : consoleService s = .next t) : t.ec = s.ec := by
  unfold consoleService at h
  split at h
  -- The arms in the order of `sx` = 1 to 0xB, then every other number.
  case h_1 | h_2 | h_3 | h_4 | h_11 => exact consoleOut_ec h
  case h_5 => exact printString_ec h
  case h_6 | h_7 | h_8 | h_9 | h_10 => exact readLine_ec h
  case h_12 => exact trapNothing_ec h

/-- Trap 1 changes the exit code only by its services `sx` = 1 and 2. -/
theorem processControl_keepsEc_or_ends {s t : State} (h : processControl s = .next t) :
    t.ec = s.ec ∨ s.sx = 1 ∨ s.sx = 2 := by
  by_cases hexit : s.sx = 1
  · exact .inr (.inl hexit)
  by_cases habort : s.sx = 2
  · exact .inr (.inr habort)
  · rw [processControl, if_neg hexit, if_neg habort] at h
    exact .inl (trapNothing_ec h)

/-- A trap keeps the exit code, or it is trap 1 with the service exit or abort. -/
theorem trap_keepsEc_or_ends {n : Word} {s t : State} (h : trap n s = .next t) :
    t.ec = s.ec ∨ (n = 1 ∧ (s.sx = 1 ∨ s.sx = 2)) := by
  unfold trap at h
  split at h
  · next hn =>
    have hone : n = 1 := BitVec.eq_of_toNat_eq hn
    exact (processControl_keepsEc_or_ends h).imp_right (⟨hone, ·⟩)
  · exact .inl (consoleService_ec h)
  · exact .inl (trapNothing_ec h)
  · exact .inl (trapNothing_ec h)

/-! ### The exit code over an instruction -/

/-- A register that does not read 0 is no sink (R16). -/
theorem State.validReg_of_regVal_ne_zero {s : State} {b : RegAddr} (h : s.regVal b ≠ 0) :
    validReg b = true :=
  Bool.eq_true_of_not_eq_false fun hsink => h (s.regVal_sink b hsink)

/-- An instruction keeps the exit code, or it runs the exit or the abort service. -/
theorem exec_keepsEc_or_ends {i : Instr} {s t : State} (h : exec i s = .next t) :
    t.ec = s.ec ∨ (TrapsWith i s 1 ∧ (s.sx = 1 ∨ s.sx = 2)) := by
  cases i with
  | excV imm =>
    rcases trap_keepsEc_or_ends h with hec | ⟨hnum, hsx⟩
    · exact .inl hec
    · exact .inr ⟨.inl ⟨imm, rfl, hnum⟩, hsx⟩
  | excX b =>
    rcases trap_keepsEc_or_ends h with hec | ⟨hnum, hsx⟩
    · exact .inl (hec.trans (s.noteReg_ec b))
    · have hslot : validReg b = true := s.validReg_of_regVal_ne_zero (by simp [hnum])
      exact .inr ⟨.inr ⟨b, rfl, hslot, hnum⟩, by simpa [State.sx] using hsx⟩
  | addXV | mulXV | andXV | orXV | xorXV | shlXV | shrXV => exact .inl (aluImm_ec h)
  | addXX | mulXX | andXX | orXX | xorXX | shlXX | shrXX => exact .inl (aluReg_ec h)
  | jitVV | jifVV => exact .inl (jumpImm_ec h)
  | jitVX _ d | jifVX _ d => exact .inl ((jumpImm_ec h).trans (s.noteReg_ec d))
  | jitXV => exact .inl (jumpReg_ec h)
  | jitXX _ c | jifXV _ c | jifXX _ c => exact .inl ((jumpReg_ec h).trans (s.noteReg_ec c))
  | divXV =>
    simp only [exec, execDivXV] at h
    split at h
    · exact .inl (divZero_ec h)
    · exact .inl (aluImm_ec h)
  | divXX _ c =>
    simp only [exec, execDivXX] at h
    split at h
    · exact .inl ((divZero_ec h).trans (s.noteReg_ec c))
    · cases h; exact .inl (by simp)
  | nop | ldxXV | ldxXX | setV | setX | getX | subXV | subXX | notX | cmpXV | cmpXX =>
    cases h; exact .inl (by simp)

/-- `Execute` keeps the exit code, or the decoded instruction runs the exit or the abort service. -/
theorem execute_keepsEc_or_ends {q : Quad} {s t : State} (h : execute q s = .next t) :
    t.ec = s.ec ∨ ∃ i, decode q = .ok i ∧ TrapsWith i s 1 ∧ (s.sx = 1 ∨ s.sx = 2) := by
  unfold execute at h
  split at h
  · next i hdecode => exact (exec_keepsEc_or_ends h).imp_right (⟨i, hdecode, ·⟩)
  · cases h; exact .inl rfl

/-! ### The exit code over a step -/

@[simp] theorem State.conclude_ec (stop : Bool) (s : State) : (s.conclude stop).ec = s.ec :=
  (s.conclude_frame stop).ec

@[simp] theorem State.finish_ec (t : State) : t.finish.ec = t.ec := by
  by_cases hw : t.wait = .none
  · rw [finish_completed hw]
    exact t.postIncrement.debugView_frame.1.ec
  · rw [finish_waiting hw]

/-- No request of the host changes the exit code. -/
@[simp] theorem State.request_ec (c : HostCmd) (s : State) : (s.request c).ec = s.ec := by
  cases c with
  | start image =>
    cases image with
    | none => rfl
    | some img =>
      simp only [State.request, State.start]
      split <;> simp [State.startAt]
  | setDebug mode => simp only [State.request, State.setDebug]; split <;> rfl
  | quit => simp only [State.request, State.quit]; split <;> rfl

theorem State.idleStep_ec (s : State) : s.idleStep.ec = s.ec := by
  unfold State.idleStep
  split <;> simp

theorem waitStep_ec {w : Wait} {s t : State} (h : waitStep w s = .next t) : t.ec = s.ec := by
  rcases waitStep_cases h with rfl | ⟨_, _, _, u, hread, rfl⟩ | ⟨_, _, rfl⟩
  · rfl
  · exact u.finish_ec.trans (completeRead_ec hread :)
  · exact State.conclude_ec _ _

theorem TrapsWith.of_noteFetch {i : Instr} {s : State} {n : Word} (h : TrapsWith i s.noteFetch n) :
    TrapsWith i s n := by
  simpa [TrapsWith] using h

/-- Settles O56: of all that a step can do, only an instruction that runs the exit or the abort service changes `ec`. -/
theorem onlyExitAndAbortChangeExitCode : Obligations.OnlyExitAndAbortChangeExitCode := by
  intro s t hstep hchanged
  rcases step_cases hstep with ⟨-, hquit⟩ | ⟨-, -, hidle⟩ | ⟨hready, hexec⟩ | ⟨-, -, -, hwait⟩
  · cases hquit; exact absurd rfl hchanged
  · cases hidle; exact absurd s.idleStep_ec hchanged
  · obtain ⟨u, hu, rfl⟩ := afterExec_next hexec.symm
    rcases execute_keepsEc_or_ends hu with hec | ⟨i, hdecode, htrap, hsx⟩
    · exact absurd (by simp [hec]) hchanged
    · exact ⟨hready, i, hdecode, htrap.of_noteFetch, by simpa [State.sx] using hsx⟩
  · exact absurd (waitStep_ec hwait.symm) hchanged

end Sys2Proof.Machine

/-! PROOFS of the statements of 20_memory.md: the fetch outside memory (R52), and the invariant of the machine over a step. -/

namespace Sys2Proof.Machine

/-! ### The fetch outside memory (R52, R211) -/

/-- Every byte of a fetch wholly outside memory is 0. -/
theorem State.fetched_outside {s : State} (h0 : s.inMemory s.ipx = false)
    (h1 : s.inMemory (s.ipx + 1) = false) (h2 : s.inMemory (s.ipx + 2) = false)
    (h3 : s.inMemory (s.ipx + 3) = false) : s.fetched = ⟨0, 0, 0, 0⟩ := by
  rw [State.fetched, s.memVal_outside _ h0, s.memVal_outside _ h1, s.memVal_outside _ h2,
    s.memVal_outside _ h3]

@[simp] theorem State.inMemory_report (r : Report) (s : State) (a : Word) :
    (s.report r).inMemory a = s.inMemory a := rfl

/-- Each read of a fetch wholly outside memory gives its report. -/
theorem State.noteFetch_outside {s : State} (h0 : s.inMemory s.ipx = false)
    (h1 : s.inMemory (s.ipx + 1) = false) (h2 : s.inMemory (s.ipx + 2) = false)
    (h3 : s.inMemory (s.ipx + 3) = false) :
    s.noteFetch = (((s.report (.badIndex s.ipx)).report (.badIndex (s.ipx + 1))).report
      (.badIndex (s.ipx + 2))).report (.badIndex (s.ipx + 3)) := by
  simp only [State.noteFetch, State.noteMem_outside, State.inMemory_report, h0, h1, h2, h3]

/-- Settles O38: the four bytes are 0, the opcode of `nop`, and the four reads report in their order. -/
theorem fetchOutsideMemoryIsNop : Obligations.FetchOutsideMemoryIsNop := by
  intro s h0 h1 h2 h3
  constructor
  · rw [State.fetched_outside h0 h1 h2 h3]; rfl
  · rw [State.noteFetch_outside h0 h1 h2 h3]; rfl

/-! ### The invariant inside a Running step -/

/-- The invariant of a Running core between the fetch and the end of its step: the continuation code and the wait are left free. -/
structure State.LiveInv (s : State) : Prop where
  params : s.cfg.wellFormed = true
  memWf : s.mem.wf = true
  memBelow : s.mem.below s.cfg.memSize = true
  mode : s.mode = .running
  proc : s.proc = some { started := true, aborted := false }
  ended : s.ended = false

/-- A Running core with the invariant enters its step with it. -/
theorem State.Inv.live {s : State} (h : s.Inv) (hrun : s.mode = .running) : s.LiveInv where
  params := h.params
  memWf := h.memWf
  memBelow := h.memBelow
  mode := hrun
  proc := h.running.mp hrun
  ended := Bool.eq_false_iff.mpr fun he => by simpa [hrun] using h.ended he

/-- A core that stays Running leaves its step with the invariant if its code and its wait agree. -/
theorem State.LiveInv.inv {s : State} (h : s.LiveInv) (hcode : s.wait ≠ .debugAnswer → s.code = .cont)
    (hanswer : s.wait = .debugAnswer → s.dbg = .step) : s.Inv where
  params := h.params
  memWf := h.memWf
  memBelow := h.memBelow
  running := by simp [h.mode, h.proc]
  idle hidle := by simp [h.mode] at hidle
  code := hcode
  answer := hanswer
  ended he := by simp [h.ended] at he

/-- The frame of the executors keeps all that the invariant asks of a Running core. -/
theorem State.LiveInv.of_frame {s t : State} (h : s.LiveInv) (hf : s.Frame t) : t.LiveInv where
  params := by rw [hf.cfg]; exact h.params
  memWf := hf.memWf h.memWf
  memBelow := hf.memBelow h.memBelow
  mode := hf.mode.trans h.mode
  proc := hf.proc.trans h.proc
  ended := hf.ended.trans h.ended

/-! ### The invariant at the end of a Running step -/

theorem State.LiveInv.halt {s : State} (h : s.LiveInv) (r : HaltReason) : (s.halt r).Inv where
  params := h.params
  memWf := h.memWf
  memBelow := h.memBelow
  running := by simp
  idle _ := ⟨rfl, rfl⟩
  code _ := rfl
  answer hw := by simp at hw
  ended _ := rfl

/-- The tests at the end of a step halt the core or find the code CONTINUE. -/
theorem State.LiveInv.conclude {s : State} (h : s.LiveInv) (hw : s.wait = .none) (stop : Bool) :
    (s.conclude stop).Inv := by
  rcases conclude_cases stop s with ⟨r, -, hc⟩ | ⟨-, -, hc⟩ | ⟨-, -, -, hc⟩ | ⟨hcont, -, -, hc⟩ <;>
    rw [hc]
  · exact h.halt r
  · exact h.halt _
  · exact h.halt _
  · exact h.inv (fun _ => hcont) (by simp [hw])

theorem State.LiveInv.view {s : State} (h : s.LiveInv) : s.view.LiveInv :=
  ⟨h.params, h.memWf, h.memBelow, h.mode, h.proc, h.ended⟩

theorem State.LiveInv.answered {s : State} (h : s.LiveInv) (rest : List DebugAnswer) (w : Wait) :
    { s with answers := rest, wait := w }.LiveInv :=
  ⟨h.params, h.memWf, h.memBelow, h.mode, h.proc, h.ended⟩

/-- The debug view concludes the step, or it waits for an answer, in step mode alone. -/
theorem State.LiveInv.debugView {s : State} (h : s.LiveInv) (hw : s.wait = .none) :
    s.debugView.Inv := by
  rcases debugView_cases s with ⟨-, hv⟩ | ⟨-, -, hv⟩ | ⟨hstep, -, hv⟩ | ⟨-, ans, rest, -, hv⟩ <;>
    rw [hv]
  · exact h.conclude hw false
  · exact h.view.conclude hw false
  · exact (h.view.answered s.answers .debugAnswer).inv (fun hne => absurd rfl hne) (fun _ => hstep)
  · exact (h.view.answered rest s.wait).conclude hw (answerStops ans)

/-- What follows the executor: a completed instruction goes through the debug view, and one that hangs or is suspended has left the code CONTINUE. -/
theorem State.LiveInv.finish {s t : State} (h : s.LiveInv) (hw : s.wait = .none)
    (hf : ExecFrame s t) : t.finish.Inv := by
  have hlive : t.LiveInv := h.of_frame hf.frame
  rcases hf.wait with hsame | ⟨hcont, hwaits⟩
  · have hdone : t.wait = .none := hsame.trans hw
    rw [finish_completed hdone]
    exact (hlive.of_frame (State.frame_putReg _ _ _)).debugView hdone
  · have hne : t.wait ≠ .none ∧ t.wait ≠ .debugAnswer := by
      rcases hwaits with hhung | ⟨svc, hline⟩
      · simp [hhung]
      · simp [hline]
    rw [finish_waiting hne.1]
    exact hlive.inv (fun _ => hcont) (fun hans => absurd hans hne.2)

/-! ### The invariant over a request of the host (R8) -/

/-- The code copy and the start values make a Running core that waits for nothing (R254). -/
theorem State.Inv.startAt {s : State} (h : s.Inv) (hlive : s.ended = false) (base : Word)
    (img : Image) : (s.startAt base img).Inv := by
  have hcopy := copyCode_frame base img { s with proc := some { started := true, aborted := false } }
  have hstarted : (s.startAt base img).LiveInv :=
    { params := by simpa only [State.startAt, hcopy.cfg] using h.params
      memWf := hcopy.memWf h.memWf
      memBelow := hcopy.memBelow h.memBelow
      mode := rfl
      proc := hcopy.proc
      ended := hcopy.ended.trans hlive }
  exact hstarted.inv (fun _ => rfl) (fun hans => by simp [State.startAt] at hans)

theorem State.Inv.countDraw {s : State} (h : s.Inv) : s.countDraw.Inv :=
  ⟨h.params, h.memWf, h.memBelow, h.running, h.idle, h.code, h.answer, h.ended⟩

theorem State.Inv.requestTaken {s : State} (h : s.Inv) (rest : List HostCmd) :
    { s with hostCmds := rest }.Inv :=
  ⟨h.params, h.memWf, h.memBelow, h.running, h.idle, h.code, h.answer, h.ended⟩

/-- A request is served in Idle alone, where no wait asks for step mode. -/
theorem State.Inv.request {s : State} (h : s.Inv) (hlive : s.ended = false) (c : HostCmd) :
    (s.request c).Inv := by
  cases c with
  | start image =>
    cases image with
    | none => exact h
    | some img =>
      simp only [State.request, State.start]
      split
      · exact h.countDraw.startAt hlive _ img
      · exact h
  | setDebug mode =>
    simp only [State.request, State.setDebug]
    split
    · next hidle =>
      have hnone : s.wait = .none := (h.idle hidle).2
      exact { h with answer := fun hans => by simp [hnone] at hans }
    · exact h
  | quit =>
    simp only [State.request, State.quit]
    split
    · next hidle =>
      exact ⟨h.params, h.memWf, h.memBelow, h.running, h.idle, h.code, h.answer, fun _ => hidle⟩
    · exact h

theorem State.Inv.idleStep {s : State} (h : s.Inv) (hlive : s.ended = false) : s.idleStep.Inv := by
  unfold State.idleStep
  split
  · exact h
  · next c rest _ => exact (h.requestTaken rest).request hlive c

/-! ### The invariant over a step -/

/-- A waiting core stays as it is, completes its read, or concludes the step that the host has answered. -/
theorem State.Inv.waitStep {s t : State} (h : s.Inv) (hrun : s.mode = .running) {w : Wait}
    (hstep : waitStep w s = .next t) : t.Inv := by
  have hlive : s.LiveInv := h.live hrun
  rcases waitStep_cases hstep with rfl | ⟨_, _, rest, u, hread, rfl⟩ | ⟨ans, rest, rfl⟩
  · exact h
  · have hresumed : { s with lines := rest, wait := .none }.LiveInv :=
      hlive.of_frame (s.frame_update s.rf s.ec s.code .none rest s.draws)
    exact hresumed.finish rfl (completeRead_frame hread)
  · exact (hlive.answered rest .none).conclude rfl (answerStops ans)

/-- Settles O53: the invariant over each of the four things a step can do. -/
theorem stepKeepsInvariant : Obligations.StepKeepsInvariant := by
  intro s t h hstep
  rcases step_cases hstep with ⟨-, hquit⟩ | ⟨hlive, -, hidle⟩ | ⟨hready, hexec⟩ | ⟨-, hrun, -, hwait⟩
  · cases hquit; exact h
  · cases hidle; exact h.idleStep hlive
  · obtain ⟨u, hu, rfl⟩ := afterExec_next hexec.symm
    have hfetched : s.noteFetch.LiveInv := (h.live hready.mode).of_frame s.noteFetch_frame
    have hwaits : s.noteFetch.wait = .none := by rw [s.noteFetch_eq]; exact hready.wait
    exact hfetched.finish hwaits (execute_frame hu)
  · exact h.waitStep hrun hwait.symm

end Sys2Proof.Machine

/-! PROOFS of the statements of 30_encoding.md: the opcode map, and that the decoder and the encoder undo each other. -/

namespace Sys2Proof

/-! ### A field assembled from its bytes, and split into them again (R82, R87) -/

@[simp] theorem formatRI_a (op : Byte) (b : RegAddr) (imm : BitVec 16) :
    (formatRI op b imm).a = op := rfl

@[simp] theorem formatRI_b (op : Byte) (b : RegAddr) (imm : BitVec 16) :
    (formatRI op b imm).b = b := rfl

@[simp] theorem formatI24_a (op : Byte) (imm : BitVec 24) : (formatI24 op imm).a = op := rfl

@[simp] theorem formatJ_a (op : Byte) (off : BitVec 16) (d : Byte) :
    (formatJ op off d).a = op := rfl

@[simp] theorem formatJ_d (op : Byte) (off : BitVec 16) (d : Byte) :
    (formatJ op off d).d = d := rfl

theorem imm16_formatRI (op : Byte) (b : RegAddr) (imm : BitVec 16) :
    (formatRI op b imm).imm16 = imm := hiByte_append_loByte imm

theorem imm24_formatI24 (op : Byte) (imm : BitVec 24) : (formatI24 op imm).imm24 = imm :=
  bytes24_append imm

theorem off16_formatJ (op : Byte) (off : BitVec 16) (d : Byte) : (formatJ op off d).off16 = off :=
  hiByte_append_loByte off

theorem formatRI_imm16 (q : Quad) : formatRI q.a q.b q.imm16 = q := by
  simp [formatRI, Quad.imm16]

theorem formatI24_imm24 (q : Quad) : formatI24 q.a q.imm24 = q := by
  simp [formatI24, Quad.imm24]

theorem formatJ_off16 (q : Quad) : formatJ q.a q.off16 q.d = q := by
  simp [formatJ, Quad.off16]

/-! ### What the decoder answers (R85, R86, R88) -/

/-- An instruction comes only from its own opcode, which the map defines. -/
theorem opcode_of_decode {q : Quad} {i : Instr} (h : decode q = .ok i) :
    i.opcode = q.a ∧ opcodeDefined q.a = true := by
  unfold decode at h
  split at h
  case h_38 => cases h
  all_goals
    next hrow =>
      cases h
      exact ⟨BitVec.eq_of_toNat_eq hrow.symm, by simp [opcodeDefined, hrow]⟩

/-- The decoder's only error is the invalid instruction, and no defined opcode gives it. -/
theorem not_opcodeDefined_of_decode_error {q : Quad} {e : DecodeError} (h : decode q = .error e) :
    opcodeDefined q.a = false ∧ e = .invalidInstruction q := by
  unfold decode at h
  split at h
  case h_38 =>
    cases h
    exact ⟨by grind [opcodeDefined], rfl⟩
  all_goals cases h

/-- Everything the decoder can answer: the instruction of the opcode, or the invalid instruction. -/
theorem decode_by_opcode (q : Quad) :
    (opcodeDefined q.a = true ∧ ∃ i, decode q = .ok i ∧ i.opcode = q.a) ∨
    (opcodeDefined q.a = false ∧ decode q = .error (.invalidInstruction q)) := by
  cases hdecode : decode q with
  | ok i =>
    obtain ⟨hop, hdef⟩ := opcode_of_decode hdecode
    exact .inl ⟨hdef, i, rfl, hop⟩
  | error e =>
    obtain ⟨hdef, rfl⟩ := not_opcodeDefined_of_decode_error hdecode
    exact .inr ⟨hdef, rfl⟩

theorem decode_undefined {q : Quad} (h : 0x25 ≤ q.a.toNat) :
    decode q = .error (.invalidInstruction q) := by
  rcases decode_by_opcode q with ⟨hdef, -⟩ | ⟨-, hinvalid⟩
  · have hle : q.a.toNat ≤ 0x24 := of_decide_eq_true hdef
    omega
  · exact hinvalid

/-! ### The statements -/

/-- Settles O1: the opcode selects the constructor's row, and the row's field is assembled from the bytes that its format split it into. -/
theorem decodeInvertsEncode : Obligations.DecodeInvertsEncode := by
  rintro i -
  cases i
  case excV imm => simp [encode, decode, Instr.opcode, imm24_formatI24]
  case jitVV off d | jitVX off d | jifVV off d | jifVX off d =>
    simp [encode, decode, Instr.opcode, off16_formatJ]
  case ldxXV b imm | jitXV b imm | addXV b imm | subXV b imm | mulXV b imm | divXV b imm |
      andXV b imm | orXV b imm | xorXV b imm | shlXV b imm | shrXV b imm | cmpXV b imm =>
    simp [encode, decode, Instr.opcode, imm16_formatRI]
  -- The formats N, R, I8 and RR hold their bytes as they are: no field is assembled.
  all_goals rfl

/-- Settles O2: the opcode of the bytes is the instruction's own, and its format splits the field that the row assembled. -/
theorem encodeInvertsDecodeUpToIgnoredBytes : Obligations.EncodeInvertsDecodeUpToIgnoredBytes := by
  rintro ⟨a, b, c, d⟩ i h
  have hop : i.opcode = a := (opcode_of_decode h).1
  cases i <;> (dsimp only [Instr.opcode] at hop; subst hop; cases h)
  case excV => exact formatI24_imm24 ⟨_, b, c, d⟩
  case jitVV | jitVX | jifVV | jifVX => exact formatJ_off16 ⟨_, b, c, d⟩
  case ldxXV | jitXV | addXV | subXV | mulXV | divXV | andXV | orXV | xorXV | shlXV | shrXV | cmpXV =>
    exact formatRI_imm16 ⟨_, b, c, d⟩
  -- The formats N, R, I8 and RR hold their bytes as they are: no field is assembled.
  all_goals rfl

/-- Settles O3: the bytes of a word, of which the decoder looks at the opcode. -/
theorem decodeLooksAtOpcodeAlone : Obligations.DecodeLooksAtOpcodeAlone :=
  fun w => decode_by_opcode (Quad.ofWord w)

/-- Settles O4: a defined row is one branch of the decoder, and the flag register of `sub x,v` is the high byte of its immediate. -/
theorem opcodeMapRows : Obligations.OpcodeMapRows := fun b c d =>
  ⟨rfl, rfl, rfl, rfl, rfl, rfl, rfl, rfl, rfl, rfl, rfl, rfl, rfl, rfl, rfl, rfl,
   rfl, rfl, rfl, hiByte_append c d, rfl, rfl, rfl, rfl, rfl, rfl, rfl, rfl, rfl, rfl, rfl, rfl, rfl,
   rfl, rfl, rfl, rfl, rfl, fun a ha => decode_undefined (q := ⟨a, b, c, d⟩) ha⟩

/-- Settles O5: each word's opcode byte selects the row that its instruction stands in. -/
theorem writtenOutWordsDecode : Obligations.WrittenOutWordsDecode :=
  ⟨rfl, rfl, rfl, rfl, rfl, rfl, rfl⟩

end Sys2Proof

/-! PROOFS of the statements of 40_data_transfer.md: loads, stores, and the re-roll of `ssx`. -/

namespace Sys2Proof.Machine

/-! ### The values that are written -/

/-- The extended immediate or byte of R83, written as the statements write it: by its number. -/
theorem zext_eq_ofNat_toNat {n : Nat} (v : BitVec n) : zext v = BitVec.ofNat 32 v.toNat :=
  (BitVec.ofNat_toNat 32 v).symm

/-- The low byte of a word is its number modulo 256 (R107). -/
theorem lowByte_eq_ofNat_mod (w : Word) : w.setWidth 8 = BitVec.ofNat 8 (w.toNat % 256) := by
  apply BitVec.eq_of_toNat_eq
  simp

/-! ### The read of a register changes nothing but the output (R16) -/

theorem State.sameRegs_noteReg (a : RegAddr) (s : State) : s.SameRegs (s.noteReg a) :=
  s.regVal_noteReg a

theorem State.sameMem_noteReg (a : RegAddr) (s : State) : s.SameMem (s.noteReg a) :=
  s.memVal_noteReg a

theorem State.sameRest_noteReg (a : RegAddr) (s : State) : s.SameRest (s.noteReg a) := by
  constructor <;> simp

/-! ### The executors that write a value, with the number it has -/

theorem exec_ldxXV (b : RegAddr) (imm : BitVec 16) (s : State) :
    exec (.ldxXV b imm) s = .next ((s.loadReg b (BitVec.ofNat 32 imm.toNat)).ret .cont) := by
  rw [← zext_eq_ofNat_toNat]; rfl

theorem exec_ldxXX (b c : RegAddr) (s : State) :
    exec (.ldxXX b c) s = .next (((s.noteReg c).loadReg b (s.regVal c)).ret .cont) := rfl

theorem exec_setX (b : RegAddr) (s : State) :
    exec (.setX b) s =
      .next (((s.noteReg b).putMem s.ax (BitVec.ofNat 8 ((s.regVal b).toNat % 256))).ret .cont) := by
  have hax : (s.noteReg b).ax = s.ax := s.regVal_noteReg b Reg.ax
  rw [← lowByte_eq_ofNat_mod, ← hax]; rfl

/-! ### The reports of single accesses, one after another -/

/-- What two stretches of execution report is what either reports. -/
theorem State.Reports.trans {s t u : State} {P Q : Report → Prop} (hst : s.Reports t P)
    (htu : t.Reports u Q) : s.Reports u (fun r => P r ∨ Q r) := by
  obtain ⟨ps, hps, hP⟩ := hst
  obtain ⟨qs, hqs, hQ⟩ := htu
  refine ⟨qs ++ ps, by simp [hqs, hps], fun r => ?_⟩
  rw [List.mem_append, hQ, hP, or_comm]

theorem State.noteMem_reports (s : State) (addr : Word) :
    s.Reports (s.noteMem addr) (badAddr s addr) := by
  cases hin : s.inMemory addr with
  | true => exact ⟨[], by simp [hin], fun r => by simp [badAddr, hin]⟩
  | false => exact ⟨[.badIndex addr], by simp [State.noteMem, hin], fun r => by simp [badAddr, hin]⟩

theorem State.putReg_reports (s : State) (b : RegAddr) (v : Word) :
    s.Reports (s.putReg b v) (badRegs [b]) :=
  State.reports_of_sink (s.putReg_out b v) (by simp)

/-! ### `nop`, `set` and `get` -/

/-- Settles O8: the opcode byte 0x00 alone selects the executor that returns CONTINUE at once. -/
theorem nopEffect : Obligations.NopEffect :=
  fun s => ⟨trapNothing_does s, fun _ _ _ => trapNothing_does s⟩

/-- Settles O14: both forms end in the one store, `set x` after the read of its register. -/
theorem setEffect : Obligations.SetEffect := by
  intro s v b
  constructor
  · exact putMem_stores s s s.ax v [] (fun _ => rfl) (fun _ => rfl) s.sameRest_refl rfl
  · rw [exec_setX]
    exact putMem_stores s (s.noteReg b) s.ax _ [b] (s.sameRegs_noteReg b) (s.sameMem_noteReg b)
      (s.sameRest_noteReg b) (s.noteReg_out b)

/-- Settles O15: the read of memory, then the write of the register, each with its own report. -/
theorem getEffect : Obligations.GetEffect := by
  intro s b
  have hreports := (s.noteMem_reports s.ax).trans ((s.noteMem s.ax).putReg_reports b (zext (s.memVal s.ax)))
  refine ⟨_, rfl, fun a => ?value, fun a => ?mem, ?rest, rfl, hreports⟩
  case value => simp [State.regVal_putReg, zext_eq_ofNat_toNat]
  case mem => simp
  case rest => constructor <;> simp

/-! ### The load of a register other than `slx` (R102, R103) -/

/-- Only a load of `slx` re-rolls. -/
theorem State.loadReg_ne_slx {b : RegAddr} (hb : b ≠ Reg.slx) (v : Word) (s : State) :
    s.loadReg b v = s.putReg b v := if_neg hb

theorem exec_ldxXV_writes (s : State) {b : RegAddr} (hb : b ≠ Reg.slx) (imm : BitVec 16) :
    WritesReg (exec (.ldxXV b imm) s) s b (BitVec.ofNat 32 imm.toNat) [b] := by
  rw [exec_ldxXV, State.loadReg_ne_slx hb]
  exact putReg_writes s s b _ [] [b] (fun _ => rfl) (fun _ => rfl) s.sameRest_refl rfl (by simp)

theorem exec_ldxXX_writes (s : State) {b : RegAddr} (hb : b ≠ Reg.slx) (c : RegAddr) :
    WritesReg (exec (.ldxXX b c) s) s b (s.regVal c) [c, b] := by
  rw [exec_ldxXX, State.loadReg_ne_slx hb]
  exact putReg_writes s (s.noteReg c) b _ [c] [c, b] (s.sameRegs_noteReg c) (s.sameMem_noteReg c)
    (s.sameRest_noteReg c) (s.noteReg_out c) (by simp [or_comm])

/-! ### The load of `slx` (R102 to R104) -/

/-- What a load of `slx` with `v` does: it re-rolls `ssx` when there is a solution, and hangs when there is none (D8). -/
structure LoadsSlx (o : Result) (s : State) (v : Word) (used : List RegAddr) : Prop where
  rerolls : (∃ x, s.RerollSolution v x) → RerollsSsx o s v used
  hangs : (¬ ∃ x, s.RerollSolution v x) → HangsInReroll o s v used

/-- A load that hangs has not re-rolled, so it had no solution. -/
theorem LoadsSlx.hangs_iff {o : Result} {s : State} {v : Word} {used : List RegAddr}
    (h : LoadsSlx o s v used) : HangsInReroll o s v used ↔ ¬ ∃ x, s.RerollSolution v x :=
  ⟨fun hhang hsol => rerollsSsx_not_hangs (h.rerolls hsol) hhang, h.hangs⟩

/-- The immediate form; `used` may name `slx`, which is no sink, or nothing. -/
theorem exec_ldxXV_slx (s : State) (imm : BitVec 16) {used : List RegAddr}
    (hused : ∀ a ∈ used, validReg a = true) :
    LoadsSlx (exec (.ldxXV Reg.slx imm) s) s (BitVec.ofNat 32 imm.toNat) used := by
  have hsinks : ∀ a, validReg a = false → (a ∈ [] ↔ a ∈ used) := by grind
  obtain ⟨hrerolls, hhangs⟩ := loadReg_slx s s (BitVec.ofNat 32 imm.toNat) [] used (fun _ => rfl)
    (fun _ => rfl) s.sameRest_refl rfl hsinks
  rw [exec_ldxXV]
  exact ⟨hrerolls, hhangs⟩

/-- The register form reads `c` first; besides it `used` may name registers that are no sink. -/
theorem exec_ldxXX_slx (s : State) (c : RegAddr) {used : List RegAddr}
    (hused : ∀ a ∈ used, validReg a = true) :
    LoadsSlx (exec (.ldxXX Reg.slx c) s) s (s.regVal c) (c :: used) := by
  have hsinks : ∀ a, validReg a = false → (a ∈ [c] ↔ a ∈ c :: used) := by grind
  obtain ⟨hrerolls, hhangs⟩ := loadReg_slx s (s.noteReg c) (s.regVal c) [c] (c :: used)
    (s.sameRegs_noteReg c) (s.sameMem_noteReg c) (s.sameRest_noteReg c) (s.noteReg_out c) hsinks
  rw [exec_ldxXX]
  exact ⟨hrerolls, hhangs⟩

/-- Settles O9: the plain write, and the re-roll of `slx` under its premise. -/
theorem ldxImmediateEffect : Obligations.LdxImmediateEffect := by
  intro s b imm
  refine ⟨fun hb => exec_ldxXV_writes s hb imm, ?_⟩
  rintro rfl
  exact (exec_ldxXV_slx s imm (by simp)).rerolls

/-- Settles O10: as the immediate form, after the read of the source. -/
theorem ldxRegisterEffect : Obligations.LdxRegisterEffect := by
  intro s b c
  refine ⟨fun hb => exec_ldxXX_writes s hb c, ?_⟩
  rintro rfl
  exact (exec_ldxXX_slx s c (by simp)).rerolls

/-! ### The hang (R104, R240) -/

/-- A hung core's step is the wait that nothing ends. -/
theorem step_hung {s : State} (hrun : s.mode = .running) (hlive : s.ended = false)
    (hhung : s.wait = .hung) : step s = .next s := by
  simp [step, runSequencer, hrun, hlive, hhung, waitStep]

/-- Settles O11: the hang of both forms, and the steps after it. -/
theorem rerollWithoutSolutionHangs : Obligations.RerollWithoutSolutionHangs :=
  ⟨fun s imm => (exec_ldxXV_slx s imm (by simp)).hangs,
    fun s c => (exec_ldxXX_slx s c (by simp)).hangs,
    fun _ => step_hung⟩

/-! ### The solutions of the re-roll (R104, R105) -/

/-- The drawn index reaches every member of the set. -/
theorem drawFrom_reaches {ivs : List Interval} {v : Nat} (h : inRange ivs v = true) :
    ∃ k, drawFrom ivs k = some v := by
  obtain ⟨k, hk, rfl⟩ := nthOf_surjective ivs v h
  have hne : rangeSize ivs ≠ 0 := by omega
  exact ⟨k, by rw [drawFrom, if_neg hne, Nat.mod_eq_of_lt hk]⟩

/-- Settles O13: what a draw selects is in the set, each member of the set is selected, and the set holds the solutions. -/
theorem rerollReachesEverySolution : Obligations.RerollReachesEverySolution := by
  intro s v
  rw [← s.inRange_rerollSet v]
  exact ⟨fun ⟨_, hk⟩ => drawFrom_some hk, drawFrom_reaches⟩

/-- In the default SSX_RANGE a solution is any 32-bit value that is disjoint from the code. -/
theorem State.rerollSolution_fullRange {s : State} (hfull : s.cfg.ssxRange = Config.fullRange)
    (l : Word) (x : Nat) : s.RerollSolution l x ↔ x < 2 ^ 32 ∧
      (l.toNat = 0 ∨ s.clx.toNat = 0 ∨ x + l.toNat ≤ s.csx.toNat ∨
        s.csx.toNat + s.clx.toNat ≤ x) := by
  simp [State.RerollSolution, hfull, Config.fullRange, inRange]

/-- The two candidates are the lowest address, for a stack below the code, and the end of the code, for a stack above it. -/
theorem State.no_rerollSolution_iff {s : State} (hfull : s.cfg.ssxRange = Config.fullRange)
    (l : Word) : (¬ ∃ x, s.RerollSolution l x) ↔ s.NoStackRoom l := by
  constructor
  · intro hnone
    have hlow : ¬ s.RerollSolution l 0 := fun h => hnone ⟨_, h⟩
    have hhigh : ¬ s.RerollSolution l (s.csx.toNat + s.clx.toNat) := fun h => hnone ⟨_, h⟩
    rw [State.rerollSolution_fullRange hfull] at hlow hhigh
    unfold State.NoStackRoom
    omega
  · rintro ⟨hl, hn, hend, hroom⟩ ⟨x, hsol⟩
    rw [State.rerollSolution_fullRange hfull] at hsol
    omega

/-- Settles O12: a load hangs when it has no solution, and in the default range that is the lack of room. -/
theorem defaultRangeRerollHangCondition : Obligations.DefaultRangeRerollHangCondition := by
  intro s hfull
  have hroom := State.no_rerollSolution_iff hfull
  exact ⟨fun imm => (exec_ldxXV_slx s imm (by simp)).hangs_iff.trans (hroom _),
    fun c => (exec_ldxXX_slx s c (by simp)).hangs_iff.trans (hroom _), hroom⟩

end Sys2Proof.Machine

/-! PROOFS of the statements of 41_traps.md: the services of the traps, the console output and input, and the read that is suspended. -/

namespace Sys2Proof.Machine

/-! ### The numbers that select (R122) -/

/-- A trap number other than 1 and 2 selects a service that does nothing (R140, R141). -/
theorem trap_eq_trapNothing {n : Word} (h1 : n ≠ 1) (h2 : n ≠ 2) (s : State) :
    trap n s = trapNothing s := by
  unfold trap
  split
  · next hn => exact absurd (BitVec.eq_of_toNat_eq hn) h1
  · next hn => exact absurd (BitVec.eq_of_toNat_eq hn) h2
  · rfl
  · rfl

theorem processControl_exit {s : State} (hsx : s.sx = 1) : processControl s = trapExit s :=
  if_pos hsx

theorem processControl_abort {s : State} (hsx : s.sx = 2) : processControl s = trapAbort s := by
  have hexit : s.sx ≠ 1 := by simp [hsx]
  rw [processControl, if_neg hexit, if_pos hsx]

theorem processControl_eq_trapNothing {s : State} (hexit : s.sx ≠ 1) (habort : s.sx ≠ 2) :
    processControl s = trapNothing s := by
  rw [processControl, if_neg hexit, if_neg habort]

/-- Outside 1 to 0xB no console service is selected (R139). -/
theorem consoleService_eq_trapNothing {s : State} (hsx : s.sx.toNat = 0 ∨ 0xC ≤ s.sx.toNat) :
    consoleService s = trapNothing s := by
  unfold consoleService
  split
  case h_12 => rfl
  all_goals omega

/-- Trap 1 runs process control, by either trap form. -/
theorem exec_trapsWith_one {i : Instr} {s : State} (h : TrapsWith i s 1) :
    exec i s = processControl s := trapsWith_exec h

/-- Trap 2 runs the console, by either trap form. -/
theorem exec_trapsWith_two {i : Instr} {s : State} (h : TrapsWith i s 2) :
    exec i s = consoleService s := trapsWith_exec h

/-! ### Process control and the services that do nothing (R124 to R126, R139 to R141) -/

/-- Settles O16: each of the two services is one update of `ec` and the code. -/
theorem exitAndAbortServices : Obligations.ExitAndAbortServices := by
  intro s i htrap
  rw [exec_trapsWith_one htrap]
  constructor
  · intro hsx
    rw [processControl_exit hsx]
    exact ⟨_, rfl, rfl, rfl, fun _ => rfl, fun _ => rfl, by constructor <;> rfl, rfl⟩
  · intro hsx
    rw [processControl_abort hsx]
    exact ⟨_, rfl, rfl, rfl, fun _ => rfl, fun _ => rfl, by constructor <;> rfl, rfl⟩

/-- Settles O17: trap 3 selects nothing, before `sx` is looked at. -/
theorem fileTrapDoesNothing : Obligations.FileTrapDoesNothing := by
  intro s i htrap
  rw [trapsWith_exec htrap, trap_eq_trapNothing (by decide) (by decide)]
  exact trapNothing_does s

/-- `exc x` on the sink reads 0, which selects nothing, and reports the read. -/
theorem excX_sink_does {s : State} {b : RegAddr} (hsink : validReg b = false) :
    DoesNothing (exec (.excX b) s) s [b] := by
  have hzero : exec (.excX b) s = trap 0 (s.noteReg b) := by
    simp only [exec, execExcX, s.regVal_sink b hsink]
  rw [hzero, trap_eq_trapNothing (by decide) (by decide)]
  exact ⟨_, rfl, s.sameRegs_noteReg b, s.sameMem_noteReg b, by constructor <;> simp, rfl,
    State.reports_of_sink (l := [b]) (s.noteReg_out b) (fun _ => Iff.rfl)⟩

/-- Settles O18: without a service each dispatch ends in the one that does nothing. -/
theorem trapWithoutServiceDoesNothing : Obligations.TrapWithoutServiceDoesNothing := by
  refine ⟨?processControl, ?console, ?number, fun s b => excX_sink_does⟩
  case processControl =>
    intro s i htrap hexit habort
    rw [exec_trapsWith_one htrap, processControl_eq_trapNothing hexit habort]
    exact trapNothing_does s
  case console =>
    intro s i htrap hsx
    rw [exec_trapsWith_two htrap, consoleService_eq_trapNothing hsx]
    exact trapNothing_does s
  case number =>
    intro s i n htrap hn
    have hone : n ≠ 1 := by rintro rfl; simp at hn
    have htwo : n ≠ 2 := by rintro rfl; simp at hn
    rw [trapsWith_exec htrap, trap_eq_trapNothing hone htwo]
    exact trapNothing_does s

/-! ### Console output (R128 to R132, R138) -/

/-- A console service that is one output sends it, by either trap form. -/
theorem exec_sendsConsole {i : Instr} {s : State} {c : ConsoleEvent} (htrap : TrapsWith i s 2)
    (hout : consoleService s = consoleOut c s) : SendsConsole (exec i s) s c := by
  rw [exec_trapsWith_two htrap, hout]
  exact consoleOut_sends c s

/-- Settles O19: each `sx` selects the output service of its event. -/
theorem consoleWordOutputEffect : Obligations.ConsoleWordOutputEffect := by
  intro s i htrap
  refine ⟨fun hsx => ?_, fun hsx => ?_, fun hsx => ?_⟩ <;>
    exact exec_sendsConsole htrap (by simp [consoleService, hsx])

/-- Settles O20: as the word output, with the low byte as a number modulo 256. -/
theorem consoleCharAndFloatOutputEffect : Obligations.ConsoleCharAndFloatOutputEffect := by
  intro s i htrap
  constructor
  · intro hsx
    rw [← lowByte_eq_ofNat_mod]
    exact exec_sendsConsole htrap (by simp [consoleService, hsx])
  · intro hsx
    exact exec_sendsConsole htrap (by simp [consoleService, hsx])

theorem State.SameRest.trans {s t u : State} (hst : s.SameRest t) (htu : t.SameRest u) :
    s.SameRest u where
  cfg := htu.cfg.trans hst.cfg
  ec := htu.ec.trans hst.ec
  mode := htu.mode.trans hst.mode
  proc := htu.proc.trans hst.proc
  dbg := htu.dbg.trans hst.dbg
  eoc := htu.eoc.trans hst.eoc
  wait := htu.wait.trans hst.wait
  ended := htu.ended.trans hst.ended
  hostCmds := htu.hostCmds.trans hst.hostCmds
  lines := htu.lines.trans hst.lines
  answers := htu.answers.trans hst.answers
  draws := htu.draws.trans hst.draws

/-- Reading a string changes nothing but what is sent out, so all else is as before. -/
theorem noteString_frame (n : Nat) (addr : Word) (s : State) :
    s.SameRegs (noteString n addr s) ∧ s.SameMem (noteString n addr s) ∧
      s.SameRest (noteString n addr s) := by
  obtain ⟨hframe, -⟩ := noteString_spec n addr s
  rw [hframe]
  exact ⟨fun _ => rfl, fun _ => rfl, by constructor <;> rfl⟩

/-- The service 5 is the loop over the string and then one output. -/
theorem exec_printString {i : Instr} {s : State} (htrap : TrapsWith i s 2) (hsx : s.sx = 5) :
    exec i s =
      consoleOut (.writeBytes (stringBytes (s.regVal Reg.x1).toNat (s.regVal Reg.x0) s))
        (noteString (s.regVal Reg.x1).toNat (s.regVal Reg.x0) s) := by
  rw [exec_trapsWith_two htrap]
  simp [consoleService, hsx, printString]

/-- Settles O21: the loop over the string gives the bytes and the reports, and one event sends them. -/
theorem printStringEffect : Obligations.PrintStringEffect := by
  intro s i htrap hsx
  obtain ⟨-, rs, hout, hreports⟩ := noteString_spec (s.regVal Reg.x1).toNat (s.regVal Reg.x0) s
  obtain ⟨hregs, hmem, hrest⟩ := noteString_frame (s.regVal Reg.x1).toNat (s.regVal Reg.x0) s
  obtain ⟨t, hnext, hsent, hregs', hmem', hrest', hcode⟩ := consoleOut_sends
    (.writeBytes (stringBytes (s.regVal Reg.x1).toNat (s.regVal Reg.x0) s))
    (noteString (s.regVal Reg.x1).toNat (s.regVal Reg.x0) s)
  refine ⟨t, _, rs, (exec_printString htrap hsx).trans hnext, stringBytes_length _ _ s,
    stringBytes_get _ _ s, ?sent, hreports, fun a => (hregs' a).trans (hregs a),
    fun a => (hmem' a).trans (hmem a), hrest.trans hrest', hcode⟩
  case sent => rw [hsent, hout]

/-! ### Console input (R127, R133 to R137) -/

/-- A read service runs `ReadLine`, by either trap form. -/
theorem exec_read {i : Instr} {s : State} {svc : ReadService} (htrap : TrapsWith i s 2)
    (hsx : s.sx = serviceNumber svc) : exec i s = readLine svc s := by
  rw [exec_trapsWith_two htrap, consoleService_read hsx]

/-- The state that a read service without a line leaves (R127). -/
def State.suspendedIn (svc : ReadService) (s : State) : State :=
  { s.console .readLine with wait := .line svc }.ret .cont

/-- Without a line the core is suspended (R127). -/
theorem readLine_noLine {s : State} (hlines : s.lines = []) (svc : ReadService) :
    readLine svc s = .next (s.suspendedIn svc) := by
  simp only [readLine, State.console_lines, hlines, State.suspendedIn]

/-- With a line the service completes on it. -/
theorem readLine_line {s : State} {L : List Byte} {rest : List (List Byte)}
    (hlines : s.lines = L :: rest) (svc : ReadService) :
    readLine svc s = completeRead svc L { s.console .readLine with lines := rest } := by
  simp only [readLine, State.console_lines, hlines]

/-- A read service on a waiting line, by either trap form. -/
theorem exec_read_line {i : Instr} {s : State} {svc : ReadService} {L : List Byte}
    {rest : List (List Byte)} (htrap : TrapsWith i s 2) (hsx : s.sx = serviceNumber svc)
    (hlines : s.lines = L :: rest) :
    exec i s = completeRead svc L { s.console .readLine with lines := rest } := by
  rw [exec_read htrap hsx, readLine_line hlines]

/-- A suspended core without a line stays as it is (R238). -/
theorem step_suspended_noLine {s : State} {svc : ReadService} (hrun : s.mode = .running)
    (hlive : s.ended = false) (hwait : s.wait = .line svc) (hlines : s.lines = []) :
    step s = .next s := by
  simp [step, runSequencer, hrun, hlive, hwait, waitStep, hlines]

/-- A suspended core with a line completes the read (R238). -/
theorem step_suspended_line {s : State} {svc : ReadService} {L : List Byte}
    {rest : List (List Byte)} (hrun : s.mode = .running) (hlive : s.ended = false)
    (hwait : s.wait = .line svc) (hlines : s.lines = L :: rest) :
    step s = afterExec (completeRead svc L { s with lines := rest, wait := .none }) := by
  simp [step, runSequencer, hrun, hlive, hwait, waitStep, hlines]

/-- Settles O22: the suspension, and the steps of the suspended core. -/
theorem readServiceWaitsForLine : Obligations.ReadServiceWaitsForLine := by
  refine ⟨fun s i svc htrap hsx hlines => ?_, fun s svc => step_suspended_noLine⟩
  rw [exec_read htrap hsx, readLine_noLine hlines]
  exact ⟨_, rfl, fun _ => rfl, fun _ => rfl, by constructor <;> rfl, rfl⟩

/-- The write to `x0` that ends a read into a register, after the line and the draws it used up. -/
theorem giveX0_reads (s : State) (rest : List (List Byte)) (draws : Nat) (w : Word) :
    ReadsIntoX0 (giveX0 w { s.console .readLine with lines := rest, draws := s.draws + draws })
      s rest draws w := by
  refine ⟨_, rfl, fun a => ?_, fun a => ?_, by constructor <;> simp, rfl, by simp⟩
  · simp only [State.regVal_ret, State.regVal_putReg, validReg_x0, and_true]
    rfl
  · rw [State.memVal_ret, State.memVal_putReg]
    rfl

/-- The two readings of a character (R133). -/
theorem charValue_cases (ch : Byte) (k : Nat) :
    charValue ch k = BitVec.ofNat 32 ch.toNat ∨
      (0x80 ≤ ch.toNat ∧ charValue ch k = BitVec.ofNat 32 (0xFFFFFF00 + ch.toNat)) := by
  unfold charValue
  split
  · next h =>
    obtain ⟨hmsb, -⟩ := Bool.and_eq_true_iff.mp h
    refine .inr ⟨by simpa [BitVec.msb_eq_decide] using hmsb, BitVec.eq_of_toNat_eq ?_⟩
    have hlt := ch.isLt
    simp only [sext8, BitVec.toNat_signExtend, hmsb, if_true, BitVec.toNat_setWidth,
      BitVec.toNat_ofNat]
    omega
  · exact .inl (zext_eq_ofNat_toNat ch)

/-- Settles O23: the first character is given with the reading that the draw selects. -/
theorem readCharEffect : Obligations.ReadCharEffect := by
  intro s i rest htrap hsx
  constructor
  · intro ch L hlines
    rw [exec_read_line (svc := .char) htrap hsx hlines]
    exact ⟨charValue ch s.drawn, giveX0_reads s rest 1 _, charValue_cases ch s.drawn⟩
  · intro hlines
    rw [exec_read_line (svc := .char) htrap hsx hlines]
    rfl

/-- What a conversion gives goes to `x0`, and where it fails the read faults (R134 to R136). -/
theorem giveParsed_reads (s : State) (rest : List (List Byte)) (parsed : Option Word) :
    ReadsParsed (giveParsed parsed { s.console .readLine with lines := rest }) s rest parsed := by
  cases parsed with
  | none => exact rfl
  | some w => exact giveX0_reads s rest 0 w

/-- Settles O24: each numeric service gives what its own conversion says of the line. -/
theorem readNumberEffect : Obligations.ReadNumberEffect := by
  intro s i L rest htrap hlines
  refine ⟨fun hsx => ?unsigned, fun hsx => ?signed, fun hsx => ?float⟩
  case unsigned =>
    rw [exec_read_line (svc := .unsigned) htrap hsx hlines]
    exact giveParsed_reads s rest _
  case signed =>
    rw [exec_read_line (svc := .signed) htrap hsx hlines]
    exact giveParsed_reads s rest _
  case float =>
    rw [exec_read_line (svc := .float) htrap hsx hlines]
    exact giveParsed_reads s rest _

/-- The pushes of a line change nothing but registers, memory and what is sent out. -/
theorem pushLine_sameRest (L : List Byte) (s : State) : s.SameRest (pushLine L s) := by
  obtain ⟨-, -, hframe, -⟩ := pushLine_spec L s
  rw [hframe]
  constructor <;> rfl

/-- Which bytes are stored is a matter of the reads of memory before and after. -/
theorem StoredFrom.congr {s s' t t' : State} {addr : Word} {bytes : List Byte}
    (h : StoredFrom s t addr bytes) (hin : ∀ a, s'.inMemory a = s.inMemory a)
    (hs : s'.SameMem s) (ht : t.SameMem t') : StoredFrom s' t' addr bytes := by
  obtain ⟨hstored, hother⟩ := h
  refine ⟨fun j v hj hlast => ?_, fun a ha => ?_⟩
  · rw [ht, hin]
    exact hstored j v hj hlast
  · rw [ht, ← hs]
    exact hother a ha

/-- Service 0xA on its line: the length in `x0`, which is not `spx`, and then the pushes (R137). -/
theorem completeRead_stackLine (L : List Byte) (s : State) :
    ∃ t, ∃ rs : List Report, completeRead .stackLine L s = .next t ∧
      (∀ a, t.regVal a =
        if a = Reg.x0 then BitVec.ofNat 32 L.length
        else if a = Reg.spx then s.spx + BitVec.ofNat 32 L.length else s.regVal a) ∧
      StoredFrom s t (s.spx + 1) L ∧ s.SameRest t ∧ t.code = .cont ∧
      t.out = rs.map Event.report ++ s.out ∧
      (∀ r, r ∈ rs ↔ ∃ j, j < L.length ∧ badAddr s (s.spx + 1 + BitVec.ofNat 32 j) r) := by
  have hspx : (s.putReg Reg.x0 (BitVec.ofNat 32 L.length)).spx = s.spx := by
    simp [State.spx, State.regVal_putReg, Reg.spx, Reg.x0]
  have hrest := (s.sameRest_putReg Reg.x0 (BitVec.ofNat 32 L.length)).trans
    (pushLine_sameRest L _)
  obtain ⟨hstored, hregs, -, rs, hout, hreports⟩ :=
    pushLine_spec L (s.putReg Reg.x0 (BitVec.ofNat 32 L.length))
  rw [hspx] at hstored hregs hreports
  refine ⟨_, rs, rfl, fun a => ?regs, hstored.congr (fun _ => by simp) (s.sameMem_putReg _ _)
    (fun _ => rfl), hrest.trans (by constructor <;> rfl), rfl, by simp [hout],
    by simpa [badAddr] using hreports⟩
  case regs =>
    rw [State.regVal_ret, hregs, State.regVal_putReg]
    by_cases hx0 : a = Reg.x0
    · have hne : Reg.x0 ≠ Reg.spx := by decide
      simp [hx0, hne]
    · simp [hx0]

/-- Settles O25: the service runs on the state in which the line is used up. -/
theorem readLineOntoStackEffect : Obligations.ReadLineOntoStackEffect := by
  intro s i L rest htrap hsx hlines
  obtain ⟨t, rs, hnext, hregs, hstored, hrest, hcode, hout, hreports⟩ :=
    completeRead_stackLine L { s.console .readLine with lines := rest }
  have hline : { s with lines := rest }.SameRest { s.console .readLine with lines := rest } := by
    constructor <;> rfl
  rw [exec_read_line (svc := .stackLine) htrap hsx hlines]
  exact ⟨t, rs, hnext, hregs, hstored, hline.trans hrest, hcode, hout, hreports⟩

/-! ### The suspended read (R127, R238) -/

/-- A load hangs, or it waits for nothing new. -/
theorem State.loadReg_wait (b : RegAddr) (v : Word) (s : State) :
    (s.loadReg b v).wait = s.wait ∨ (s.loadReg b v).wait = .hung := by
  unfold State.loadReg State.rerollSsx
  dsimp only
  split
  · split
    · exact .inl (by simp)
    · exact .inr rfl
  · exact .inl (by simp)

theorem jumpImm_wait {taken : Bool} {off : BitVec 16} {s t : State}
    (h : jumpImm taken off s = .next t) : t.wait = s.wait := by
  cases taken <;> cases h <;> simp

theorem jumpReg_wait {taken : Bool} {b : RegAddr} {s t : State}
    (h : jumpReg taken b s = .next t) : t.wait = s.wait := by
  cases taken <;> cases h <;> simp

/-- A read service completes on its line, or it suspends the core for itself. -/
theorem readLine_wait {svc : ReadService} {s t : State} (h : readLine svc s = .next t)
    (hs : s.wait = .none) : t.wait = .none ∨ t.wait = .line svc := by
  cases hlines : s.lines with
  | nil => rw [readLine_noLine hlines] at h; cases h; exact .inr rfl
  | cons L rest => rw [readLine_line hlines] at h; exact .inl (completeRead_wait h hs)

/-- A console service that leaves the core waiting is a read service, for which it waits. -/
theorem consoleService_wait {s t : State} (h : consoleService s = .next t) (hs : s.wait = .none) :
    t.wait = .none ∨ ∃ svc, s.sx = serviceNumber svc ∧ t.wait = .line svc := by
  have hread : ∀ svc, s.sx.toNat = (serviceNumber svc).toNat →
      t.wait = .none ∨ ∃ svc, s.sx = serviceNumber svc ∧ t.wait = .line svc := by
    intro svc hnum
    have hsx : s.sx = serviceNumber svc := BitVec.eq_of_toNat_eq hnum
    rw [consoleService_read hsx] at h
    exact (readLine_wait h hs).imp_right (⟨svc, hsx, ·⟩)
  unfold consoleService at h
  split at h
  -- The arms in the order of `sx` = 1 to 0xB, then every other number.
  case h_1 | h_2 | h_3 | h_4 | h_11 | h_12 => cases h; exact .inl hs
  case h_5 => cases h; exact .inl ((noteString_frame _ _ s).2.2.wait.trans hs)
  case h_6 hsx => exact hread .char hsx
  case h_7 hsx => exact hread .unsigned hsx
  case h_8 hsx => exact hread .signed hsx
  case h_9 hsx => exact hread .float hsx
  case h_10 hsx => exact hread .stackLine hsx

/-- A trap that leaves the core waiting is a read service of trap 2. -/
theorem trap_wait {n : Word} {s t : State} (h : trap n s = .next t) (hs : s.wait = .none) :
    t.wait = .none ∨ (n = 2 ∧ ∃ svc, s.sx = serviceNumber svc ∧ t.wait = .line svc) := by
  by_cases htwo : n = 2
  · subst htwo
    exact (consoleService_wait h hs).imp_right (⟨rfl, ·⟩)
  by_cases hone : n = 1
  · subst hone
    rw [show trap 1 s = processControl s from rfl, processControl] at h
    split_ifs at h <;> cases h <;> exact .inl hs
  · rw [trap_eq_trapNothing hone htwo] at h
    cases h; exact .inl hs

/-- An instruction completes, hangs, or is a read service that suspends the core. -/
theorem exec_wait {i : Instr} {s t : State} (h : exec i s = .next t) (hs : s.wait = .none) :
    t.wait = .none ∨ t.wait = .hung ∨
      ∃ svc, TrapsWith i s 2 ∧ s.sx = serviceNumber svc ∧ t.wait = .line svc := by
  cases i with
  | excV imm =>
    rcases trap_wait h hs with hnone | ⟨hnum, svc, hsx, hwait⟩
    · exact .inl hnone
    · exact .inr (.inr ⟨svc, .inl ⟨imm, rfl, hnum⟩, hsx, hwait⟩)
  | excX b =>
    rcases trap_wait h ((s.noteReg_wait b).trans hs) with hnone | ⟨hnum, svc, hsx, hwait⟩
    · exact .inl hnone
    · have hslot : validReg b = true := s.validReg_of_regVal_ne_zero (by simp [hnum])
      exact .inr (.inr ⟨svc, .inr ⟨b, rfl, hslot, hnum⟩, by simpa [State.sx] using hsx, hwait⟩)
  | ldxXV b imm =>
    cases h
    exact (s.loadReg_wait b (zext imm)).imp (·.trans hs) .inl
  | ldxXX b c =>
    cases h
    exact ((s.noteReg c).loadReg_wait b (s.regVal c)).imp
      (·.trans ((s.noteReg_wait c).trans hs)) .inl
  | jitVV | jifVV => exact .inl ((jumpImm_wait h).trans hs)
  | jitVX _ d | jifVX _ d => exact .inl ((jumpImm_wait h).trans ((s.noteReg_wait d).trans hs))
  | jitXV => exact .inl ((jumpReg_wait h).trans hs)
  | jitXX _ c | jifXV _ c | jifXX _ c =>
    exact .inl ((jumpReg_wait h).trans ((s.noteReg_wait c).trans hs))
  | divXV =>
    simp only [exec, execDivXV] at h
    split at h <;> cases h <;> exact .inl (by simp [hs])
  | divXX =>
    simp only [exec, execDivXX] at h
    split at h <;> cases h <;> exact .inl (by simp [hs])
  | nop | setV | setX | getX | notX | addXV | mulXV | andXV | orXV | xorXV | shlXV | shrXV | addXX
    | mulXX | andXX | orXX | xorXX | shlXX | shrXX | subXV | subXX | cmpXV | cmpXX =>
    cases h; exact .inl (by simp [State.compare, hs])

/-- The end of a step that had no wait before leaves none, or the wait for the host's answer. -/
theorem State.debugView_wait {s : State} (hs : s.wait = .none) :
    s.debugView.wait = .none ∨ s.debugView.wait = .debugAnswer := by
  have hconclude : ∀ (stop : Bool) (v : State), v.wait = .none → (v.conclude stop).wait = .none := by
    intro stop v hv
    rcases conclude_cases stop v with ⟨r, -, h⟩ | ⟨-, -, h⟩ | ⟨-, -, -, h⟩ | ⟨-, -, -, h⟩ <;> rw [h]
    case inr.inr.inr => exact hv
    all_goals rfl
  rcases debugView_cases s with ⟨-, h⟩ | ⟨-, -, h⟩ | ⟨-, -, h⟩ | ⟨-, ans, rest, -, h⟩ <;> rw [h]
  · exact .inl (hconclude _ _ hs)
  · exact .inl (hconclude _ _ hs)
  · exact .inr rfl
  · exact .inl (hconclude _ _ hs)

/-- Only an instruction that is not completed leaves the core suspended, and nothing follows it. -/
theorem State.finish_suspended {t : State} {svc : ReadService} (h : t.finish.wait = .line svc) :
    t.finish = t := by
  refine finish_waiting fun hnone => ?_
  rw [finish_completed hnone] at h
  rcases State.debugView_wait (s := t.postIncrement) hnone with hw | hw <;> simp [hw] at h

@[simp] theorem State.noteFetch_wait (s : State) : s.noteFetch.wait = s.wait :=
  (congrArg State.wait s.noteFetch_eq :)

@[simp] theorem State.noteFetch_lines (s : State) : s.noteFetch.lines = s.lines :=
  (congrArg State.lines s.noteFetch_eq :)

/-- A step that suspends the core runs a read service and sends `read_line` (R127). -/
theorem step_suspends {s t : State} {svc : ReadService} (hready : s.Ready) (hlines : s.lines = [])
    (hstep : step s = .next t) (hwait : t.wait = .line svc) :
    (∃ i, decode s.fetched = .ok i ∧ TrapsWith i s 2) ∧ s.sx = serviceNumber svc ∧
      t = s.noteFetch.suspendedIn svc := by
  rw [step_ready hready] at hstep
  obtain ⟨u, hexec, rfl⟩ := afterExec_next hstep
  have hfinish := State.finish_suspended hwait
  rw [hfinish] at hwait ⊢
  have hnone := s.noteFetch_wait.trans hready.wait
  unfold execute at hexec
  split at hexec
  · next i hdecode =>
    rcases exec_wait hexec hnone with hw | hw | ⟨svc', htrap, hsx, hw⟩
    · simp [hw] at hwait
    · simp [hw] at hwait
    · obtain rfl : svc' = svc := by simpa [hw] using hwait
      rw [exec_read htrap hsx, readLine_noLine (s.noteFetch_lines.trans hlines)] at hexec
      cases hexec
      exact ⟨⟨i, hdecode, htrap.of_noteFetch⟩, by simpa [State.sx] using hsx, rfl⟩
  · cases hexec
    simp [hready.wait] at hwait

/-! ### The same step with the line there at once (R127, R238) -/

theorem State.putReg_ret (a : RegAddr) (v : Word) (c : Code) (s : State) :
    (s.ret c).putReg a v = (s.putReg a v).ret c := by
  unfold State.putReg; split <;> rfl

theorem State.putMem_ret (a : Word) (v : Byte) (c : Code) (s : State) :
    (s.ret c).putMem a v = (s.putMem a v).ret c := by
  have hin : (s.ret c).inMemory a = s.inMemory a := rfl
  unfold State.putMem; rw [hin]; split <;> rfl

theorem pushLine_ret (L : List Byte) (c : Code) (s : State) :
    pushLine L (s.ret c) = (pushLine L s).ret c := by
  induction L generalizing s with
  | nil => rfl
  | cons ch rest ih => rw [pushLine, State.putReg_ret, State.putMem_ret, ih]; rfl

theorem giveX0_ret (w : Word) (c : Code) (s : State) : giveX0 w (s.ret c) = giveX0 w s := by
  rw [giveX0, State.putReg_ret]; rfl

theorem giveParsed_ret (w : Option Word) (c : Code) (s : State) :
    giveParsed w (s.ret c) = giveParsed w s := by
  cases w with
  | none => rfl
  | some v => exact giveX0_ret v c s

/-- A read service does not look at the continuation code, and it ends by writing one. -/
theorem completeRead_ret (svc : ReadService) (L : List Byte) (c : Code) (s : State) :
    completeRead svc L (s.ret c) = completeRead svc L s := by
  cases svc with
  | char =>
    cases L with
    | nil => rfl
    | cons ch L => exact giveX0_ret _ c s.countDraw
  | unsigned | signed | float => exact giveParsed_ret _ c s
  | stackLine => rw [completeRead, State.putReg_ret, pushLine_ret]; rfl

theorem State.noteMem_withLines (a : Word) (ls : List (List Byte)) (s : State) :
    { s with lines := ls }.noteMem a = { s.noteMem a with lines := ls } := by
  have hin : { s with lines := ls }.inMemory a = s.inMemory a := rfl
  unfold State.noteMem; rw [hin]; split <;> rfl

/-- The fetch does not look at the host's lines. -/
theorem State.noteFetch_withLines (ls : List (List Byte)) (s : State) :
    { s with lines := ls }.noteFetch = { s.noteFetch with lines := ls } := by
  have hipx : { s with lines := ls }.ipx = s.ipx := rfl
  simp only [State.noteFetch, hipx, State.noteMem_withLines]

theorem TrapsWith.noteFetch {i : Instr} {s : State} {n : Word} (h : TrapsWith i s n) :
    TrapsWith i s.noteFetch n := by
  simpa [TrapsWith] using h

/-- A read service on the line that it is given, whatever lines the host had before. -/
theorem exec_read_withLines {i : Instr} {s : State} {svc : ReadService} (htrap : TrapsWith i s 2)
    (hsx : s.sx = serviceNumber svc) (L : List Byte) (rest : List (List Byte)) :
    exec i { s with lines := L :: rest } =
      completeRead svc L { s.console .readLine with lines := rest } :=
  exec_read_line (s := { s with lines := L :: rest }) htrap hsx rfl

/-- The step of a read service whose line is there: fetch, `read_line`, and the completion. -/
theorem step_read_line {s : State} {i : Instr} {svc : ReadService} (L : List Byte)
    (rest : List (List Byte)) (hready : s.Ready) (hdecode : decode s.fetched = .ok i)
    (htrap : TrapsWith i s 2) (hsx : s.sx = serviceNumber svc) :
    step { s with lines := L :: rest } =
      afterExec (completeRead svc L { s.noteFetch.console .readLine with lines := rest }) := by
  have hfetched : { s with lines := L :: rest }.fetched = s.fetched := rfl
  have hsxFetch : s.noteFetch.sx = serviceNumber svc := (s.regVal_noteFetch Reg.sx).trans hsx
  have hready' : { s with lines := L :: rest }.Ready := ⟨hready.mode, hready.ended, hready.wait⟩
  rw [step_ready hready', State.noteFetch_withLines, hfetched, execute]
  simp only [hdecode, exec_read_withLines htrap.noteFetch hsxFetch]

/-- The step that resumes a suspended read is the completion on the state before the wait. -/
theorem step_resumed {s : State} (svc : ReadService) (L : List Byte) (rest : List (List Byte))
    (hrun : s.mode = .running) (hlive : s.ended = false) (hnone : s.wait = .none) :
    step { s.suspendedIn svc with lines := L :: rest } =
      afterExec (completeRead svc L { s.console .readLine with lines := rest }) := by
  have hresume : { s.suspendedIn svc with lines := rest, wait := .none } =
      { s.console .readLine with lines := rest }.ret .cont := by
    simp [State.suspendedIn, State.ret, hnone]
  have hstep := step_suspended_line (s := { s.suspendedIn svc with lines := L :: rest })
    (svc := svc) hrun hlive rfl rfl
  rw [hstep, hresume, completeRead_ret]

/-- Settles O26: after the same fetch both steps complete the same read. -/
theorem suspendedReadCompletesAlike : Obligations.SuspendedReadCompletesAlike := by
  intro s t svc L rest hready hlines hstep hwait
  obtain ⟨⟨i, hdecode, htrap⟩, hsx, rfl⟩ := step_suspends hready hlines hstep hwait
  have hresumed := step_resumed (s := s.noteFetch) svc L rest
    (s.noteFetch_frame.mode.trans hready.mode) (s.noteFetch_frame.ended.trans hready.ended)
    (s.noteFetch_wait.trans hready.wait)
  rw [hresumed, step_read_line L rest hready hdecode htrap hsx]

end Sys2Proof.Machine

/-! PROOFS of the statements of 42_control_transfer.md: the conditional jumps on `fx`. -/

namespace Sys2Proof.Machine

/-! ### The condition on all 32 bits of `fx` (R150) -/

/-- A flag literal is compared by its number: zero-extension to 32 bits keeps it (R83). -/
theorem eq_zext_iff {n : Nat} (hn : n ≤ 32) (w : Word) (v : BitVec n) :
    w = zext v ↔ w.toNat = v.toNat := by
  rw [zext, ← BitVec.toNat_inj, BitVec.toNat_setWidth_of_le hn]

theorem beq_zext_iff {n : Nat} (hn : n ≤ 32) (w : Word) (v : BitVec n) :
    (w == zext v) = true ↔ w.toNat = v.toNat :=
  beq_iff_eq.trans (eq_zext_iff hn w v)

theorem bne_zext_iff {n : Nat} (hn : n ≤ 32) (w : Word) (v : BitVec n) :
    (w != zext v) = true ↔ w.toNat ≠ v.toNat :=
  bne_iff_ne.trans (eq_zext_iff hn w v).not

/-! ### The jump by how it gets its target and its flag (R150, R159) -/

section
variable {taken : Bool} {P : Prop} (h : taken = true ↔ P) (s : State)
include h

/-- Target and flag are immediate: no register is read. -/
theorem jumpImm_jumps_of_literal (off : BitVec 16) :
    Jumps (jumpImm taken off s) s P (BitVec.ofNat 32 off.toNat) [] := by
  have hjump := jumpImm_jumps taken off s s [] (fun _ => rfl) (fun _ => rfl) s.sameRest_refl rfl
  rwa [zext_eq_ofNat_toNat, propext h] at hjump

/-- The flag is the register `c`, read whether the jump is taken or not. -/
theorem jumpImm_jumps_of_register (off : BitVec 16) (c : RegAddr) :
    Jumps (jumpImm taken off (s.noteReg c)) s P (BitVec.ofNat 32 off.toNat) [c] := by
  have hjump := jumpImm_jumps taken off s (s.noteReg c) [c] (s.sameRegs_noteReg c)
    (s.sameMem_noteReg c) (s.sameRest_noteReg c) (s.noteReg_out c)
  rwa [zext_eq_ofNat_toNat, propext h] at hjump

/-- The target is the register `b`, read only when the jump is taken (D24). -/
theorem jumpReg_jumps_of_literal [Decidable P] (b : RegAddr) :
    Jumps (jumpReg taken b s) s P (s.regVal b) (if P then [b] else []) := by
  have hjump := jumpReg_jumps taken b s s [] (fun _ => rfl) (fun _ => rfl) s.sameRest_refl rfl
  simpa only [h, List.nil_append] using hjump

/-- The flag register `c` is read first, the target register `b` only when the jump is taken (D24). -/
theorem jumpReg_jumps_of_register [Decidable P] (b c : RegAddr) :
    Jumps (jumpReg taken b (s.noteReg c)) s P (s.regVal b) (if P then [c, b] else [c]) := by
  have hjump := jumpReg_jumps taken b s (s.noteReg c) [c] (s.sameRegs_noteReg c)
    (s.sameMem_noteReg c) (s.sameRest_noteReg c) (s.noteReg_out c)
  simpa only [h, List.singleton_append] using hjump

end

/-! ### The statements -/

/-- Settles O27: one jump per form, with the condition that `fx` equals the flag operand. -/
theorem jitEffect : Obligations.JitEffect := by
  intro s b c d off imm
  refine ⟨?vv, ?vx, ?xv, ?xx⟩
  case vv => exact jumpImm_jumps_of_literal (beq_zext_iff (by decide) s.fx d) s off
  case vx => exact jumpImm_jumps_of_register beq_iff_eq s off d
  case xv => exact jumpReg_jumps_of_literal (beq_zext_iff (by decide) s.fx imm) s b
  case xx => exact jumpReg_jumps_of_register beq_iff_eq s b c

/-- Settles O28: as for `jit`, with the condition that `fx` differs; 0x0E and 0x0F are one jump (R157, C7). -/
theorem jifEffect : Obligations.JifEffect := by
  intro s b c d off
  have hxx := jumpReg_jumps_of_register (bne_iff_ne (a := s.fx) (b := s.regVal c)) s b c
  refine ⟨?vv, ?vx, hxx, hxx⟩
  case vv => exact jumpImm_jumps_of_literal (bne_zext_iff (by decide) s.fx d) s off
  case vx => exact jumpImm_jumps_of_register bne_iff_ne s off d

end Sys2Proof.Machine

/-! PROOFS of the statements of 43_alu.md: arithmetic, logic, shift, not and compare. -/

namespace Sys2Proof.Machine

/-! ### The operations on words as operations on numbers -/

/-- An immediate has the same number after its extension to 32 bits (R83). -/
theorem toNat_zext_imm16 (imm : BitVec 16) : (zext imm).toNat = imm.toNat :=
  (eq_zext_iff (by decide) (zext imm) imm).mp rfl

theorem udiv_eq_ofNat_div (l r : Word) : l / r = BitVec.ofNat 32 (l.toNat / r.toNat) := by
  have hlt : l.toNat / r.toNat < 2 ^ 32 := (Nat.div_le_self _ _).trans_lt l.isLt
  apply BitVec.eq_of_toNat_eq
  rw [BitVec.toNat_udiv, BitVec.toNat_ofNat, Nat.mod_eq_of_lt hlt]

/-- A left shift multiplies by a power of 2, modulo 2^32 (R186, R187, D20). -/
theorem shl_eq_ofNat_mul (l n : Word) :
    shl l n = BitVec.ofNat 32 (l.toNat * 2 ^ (n.toNat % 32)) := by
  apply BitVec.eq_of_toNat_eq
  rw [shl, shiftCount, BitVec.toNat_shiftLeft, Nat.shiftLeft_eq, BitVec.toNat_ofNat]

/-- A right shift divides by a power of 2: it is logical (R188, R189, D20). -/
theorem shr_eq_ofNat_div (l n : Word) :
    shr l n = BitVec.ofNat 32 (l.toNat / 2 ^ (n.toNat % 32)) := by
  have hlt : l.toNat / 2 ^ (n.toNat % 32) < 2 ^ 32 := (Nat.div_le_self _ _).trans_lt l.isLt
  apply BitVec.eq_of_toNat_eq
  rw [shr, shiftCount, BitVec.toNat_ushiftRight, Nat.shiftRight_eq_div_pow, BitVec.toNat_ofNat,
    Nat.mod_eq_of_lt hlt]

theorem not_eq_ofNat_sub (v : Word) : ~~~v = BitVec.ofNat 32 (2 ^ 32 - 1 - v.toNat) := by
  have hlt : 2 ^ 32 - 1 - v.toNat < 2 ^ 32 := by omega
  apply BitVec.eq_of_toNat_eq
  rw [BitVec.toNat_not, BitVec.toNat_ofNat, Nat.mod_eq_of_lt hlt]

/-- The model's comparison is the one of R170 on the numbers of its operands (D4). -/
theorem cmpflag_eq_flagOf (l r : Word) : cmpflag l r = flagOf l.toNat r.toNat := rfl

/-- The flag register of `sub x,v` by its number (R174). -/
theorem flagRegOf_eq_ofNat_div (imm : BitVec 16) :
    flagRegOf imm = BitVec.ofNat 8 (imm.toNat / 256) := by
  apply BitVec.eq_of_toNat_eq
  rw [flagRegOf, hiByte, BitVec.extractLsb'_toNat, Nat.shiftRight_eq_div_pow, BitVec.toNat_ofNat]

/-! ### The two operand forms of an operation on numbers (R171) -/

section
variable {f : Word → Word → Word} {g : Nat → Nat → Nat}
  (hfg : ∀ l r : Word, f l r = BitVec.ofNat 32 (g l.toNat r.toNat)) (s : State)
include hfg

theorem aluImm_writes_number (b : RegAddr) (imm : BitVec 16) :
    WritesReg (aluImm f b imm s) s b (BitVec.ofNat 32 (g (s.regVal b).toNat imm.toNat)) [b] := by
  have hwrite := aluImm_writes f b imm s
  rwa [hfg, toNat_zext_imm16] at hwrite

theorem aluReg_writes_number (b c : RegAddr) :
    WritesReg (aluReg f b c s) s b
      (BitVec.ofNat 32 (g (s.regVal b).toNat (s.regVal c).toNat)) [c, b] := by
  have hwrite := aluReg_writes f b c s
  rwa [hfg] at hwrite

end

/-! ### `add`, `mul`, `div`, logic and shifts -/

/-- Settles O29: word addition is the sum of the numbers modulo 2^32, in both forms. -/
theorem addEffect : Obligations.AddEffect := by
  intro s b c imm
  have hadd : ∀ l r : Word, l + r = BitVec.ofNat 32 (l.toNat + r.toNat) := fun l r => by
    simp [BitVec.ofNat_add]
  exact ⟨aluImm_writes_number hadd s b imm, aluReg_writes_number hadd s b c⟩

/-- Settles O30: word multiplication is the product of the numbers modulo 2^32, in both forms. -/
theorem mulEffect : Obligations.MulEffect := by
  intro s b c imm
  have hmul : ∀ l r : Word, l * r = BitVec.ofNat 32 (l.toNat * r.toNat) := fun l r => by
    simp [BitVec.ofNat_mul]
  exact ⟨aluImm_writes_number hmul s b imm, aluReg_writes_number hmul s b c⟩

theorem exec_divXV_of_ne_zero {imm : BitVec 16} (himm : imm ≠ 0) (b : RegAddr) (s : State) :
    exec (.divXV b imm) s = aluImm (· / ·) b imm s := if_neg himm

theorem exec_divXV_zero (b : RegAddr) (s : State) : exec (.divXV b 0) s = divZero s := rfl

/-- A nonzero divisor: the dividend is read and written as by the other operations. -/
theorem exec_divXX_of_ne_zero {s : State} {c : RegAddr} (hc : s.regVal c ≠ 0) (b : RegAddr) :
    exec (.divXX b c) s = aluReg (· / ·) b c s := if_neg hc

/-- A zero divisor: only its register has been read (D24). -/
theorem exec_divXX_of_eq_zero {s : State} {c : RegAddr} (hc : s.regVal c = 0) (b : RegAddr) :
    exec (.divXX b c) s = divZero (s.noteReg c) := if_pos hc

/-- Settles O32: the immediate alone decides between the quotient and the termination. -/
theorem divImmediateEffect : Obligations.DivImmediateEffect := by
  intro s b imm
  constructor
  · intro hne
    have himm : imm ≠ 0 := fun h => hne (by simp [h])
    rw [exec_divXV_of_ne_zero himm]
    exact aluImm_writes_number udiv_eq_ofNat_div s b imm
  · intro hzero
    obtain rfl : imm = 0 := BitVec.eq_of_toNat_eq hzero
    rw [exec_divXV_zero]
    exact divZero_terminates s s [] (fun _ => rfl) (fun _ => rfl) s.sameRest_refl rfl

/-- Settles O33: as O32, after the read of the divisor. -/
theorem divRegisterEffect : Obligations.DivRegisterEffect := by
  intro s b c
  constructor
  · intro hne
    have hc : s.regVal c ≠ 0 := fun h => hne (by simp [h])
    rw [exec_divXX_of_ne_zero hc]
    exact aluReg_writes_number udiv_eq_ofNat_div s b c
  · intro hzero
    have hc : s.regVal c = 0 := BitVec.eq_of_toNat_eq hzero
    rw [exec_divXX_of_eq_zero hc]
    exact divZero_terminates s (s.noteReg c) [c] (s.sameRegs_noteReg c) (s.sameMem_noteReg c)
      (s.sameRest_noteReg c) (s.noteReg_out c)

/-- `not x` reads and writes its one register (R190). -/
theorem exec_notX_writes (s : State) (b : RegAddr) :
    WritesReg (exec (.notX b) s) s b (~~~(s.regVal b)) [b] :=
  putReg_writes s (s.noteReg b) b _ [b] [b] (s.sameRegs_noteReg b) (s.sameMem_noteReg b)
    (s.sameRest_noteReg b) (s.noteReg_out b) (by simp)

/-- Settles O34: the bitwise operations on words are those on their numbers, in all seven forms. -/
theorem logicEffect : Obligations.LogicEffect := by
  intro s b c imm
  have hand : ∀ l r : Word, l &&& r = BitVec.ofNat 32 (l.toNat &&& r.toNat) := fun l r => by
    simp [BitVec.ofNat_and]
  have hor : ∀ l r : Word, l ||| r = BitVec.ofNat 32 (l.toNat ||| r.toNat) := fun l r => by
    simp [BitVec.ofNat_or]
  have hxor : ∀ l r : Word, l ^^^ r = BitVec.ofNat 32 (l.toNat ^^^ r.toNat) := fun l r => by
    simp [BitVec.ofNat_xor]
  refine ⟨aluImm_writes_number hand s b imm, aluReg_writes_number hand s b c,
    aluImm_writes_number hor s b imm, aluReg_writes_number hor s b c,
    aluImm_writes_number hxor s b imm, aluReg_writes_number hxor s b c, ?not⟩
  case not =>
    rw [← not_eq_ofNat_sub]
    exact exec_notX_writes s b

/-- Settles O35: a shift multiplies or divides by a power of 2, in both forms. -/
theorem shiftEffect : Obligations.ShiftEffect := by
  intro s b c imm
  refine ⟨?shlXV, ?shlXX, ?shrXV, ?shrXX⟩
  case shlXV => exact aluImm_writes_number (g := fun l n => l * 2 ^ (n % 32)) shl_eq_ofNat_mul s b imm
  case shlXX => exact aluReg_writes_number (g := fun l n => l * 2 ^ (n % 32)) shl_eq_ofNat_mul s b c
  case shrXV => exact aluImm_writes_number (g := fun l n => l / 2 ^ (n % 32)) shr_eq_ofNat_div s b imm
  case shrXX => exact aluReg_writes_number (g := fun l n => l / 2 ^ (n % 32)) shr_eq_ofNat_div s b c

/-! ### The flag write (R170) -/

/-- An address that selects a register adds no report. -/
theorem badRegs_cons_valid {a : RegAddr} (ha : validReg a = true) (used : List RegAddr) :
    badRegs (a :: used) = badRegs used := by
  funext r
  simp [badRegs, ha]

/-- `fx` is a register, so its write reports nothing. -/
theorem compare_writes (s s1 : State) (l r : Word) (reads used : List RegAddr)
    (hregs : s.SameRegs s1) (hmem : s.SameMem s1) (hrest : s.SameRest s1)
    (hout : s1.out = sinkReports reads ++ s.out) (hreads : ∀ a, a ∈ reads ↔ a ∈ used) :
    WritesReg (.next ((s1.compare l r).ret .cont)) s Reg.fx (flagOf l.toNat r.toNat) used := by
  have hwrite := putReg_writes s s1 Reg.fx (cmpflag l r) reads (Reg.fx :: used) hregs hmem hrest hout
    (by simp [hreads])
  rwa [WritesReg, badRegs_cons_valid validReg_fx, cmpflag_eq_flagOf] at hwrite

/-- The registers `b` and `c` read one after the other and compared: all that `cmp x,x` does, and the state between the flag write of `sub` and its subtraction. -/
def State.flagged (b c : RegAddr) (s : State) : State :=
  ((s.noteReg b).noteReg c).compare (s.regVal b) (s.regVal c)

theorem State.regVal_flagged (b c : RegAddr) (s : State) (a : RegAddr) :
    (s.flagged b c).regVal a =
      if a = Reg.fx then flagOf (s.regVal b).toNat (s.regVal c).toNat else s.regVal a := by
  simp [State.flagged, State.compare, State.regVal_putReg, cmpflag_eq_flagOf]

theorem State.flagged_writes (s : State) (b c : RegAddr) :
    WritesReg (.next ((s.flagged b c).ret .cont)) s Reg.fx
      (flagOf (s.regVal b).toNat (s.regVal c).toNat) [b, c] :=
  compare_writes s ((s.noteReg b).noteReg c) (s.regVal b) (s.regVal c) [c, b] [b, c] (fun _ => by simp)
    (fun _ => by simp) ((s.sameRest_noteReg b).trans ((s.noteReg b).sameRest_noteReg c)) (by simp)
    (by simp [or_comm])

theorem exec_cmpXX (b c : RegAddr) (s : State) :
    exec (.cmpXX b c) s = .next ((s.flagged b c).ret .cont) := by
  rw [State.flagged, ← s.regVal_noteReg b c]; rfl

/-- Settles O36: the comparison is the only write of both forms. -/
theorem cmpEffect : Obligations.CmpEffect := by
  intro s b c imm
  constructor
  · rw [← toNat_zext_imm16]
    exact compare_writes s (s.noteReg b) (s.regVal b) (zext imm) [b] [b] (s.sameRegs_noteReg b)
      (s.sameMem_noteReg b) (s.sameRest_noteReg b) (s.noteReg_out b) (fun _ => Iff.rfl)
  · rw [exec_cmpXX]
    exact s.flagged_writes b c

/-! ### `sub`: the comparison, then the subtraction (R174, R175, D5) -/

/-- What follows the flag write reports nothing new when it reads and writes only the registers that were read before it. -/
theorem writesFlagThenReg_of_flagged {s : State} {o : Result} {b c d : RegAddr} {v : Word}
    {used : List RegAddr} (hused : ∀ a ∈ used, a = b ∨ a = c)
    (hwrite : WritesReg o (s.flagged b c) d v used) :
    WritesFlagThenReg o s (flagOf (s.regVal b).toNat (s.regVal c).toNat) d v [b, c] := by
  obtain ⟨t, ho, hval, hmem, hrest, hcode, hreports⟩ := hwrite
  obtain ⟨u, hu, -, hmemFlag, hrestFlag, -, hreportsFlag⟩ := s.flagged_writes b c
  cases hu
  have hback : ((s.flagged b c).ret .cont).SameRest (s.flagged b c) := by constructor <;> rfl
  refine ⟨t, ho, fun a => ?value, fun a => (hmem a).trans (hmemFlag a),
    (hrestFlag.trans hback).trans hrest, hcode, ?reports⟩
  case value => rw [hval, State.regVal_flagged]
  case reports =>
    have hboth : s.Reports t (fun r => badRegs [b, c] r ∨ badRegs used r) :=
      State.Reports.trans hreportsFlag hreports
    obtain ⟨rs, hout, hrs⟩ := hboth
    have hsub : ∀ r, badRegs used r → badRegs [b, c] r := fun r ⟨a, ha, hbad⟩ =>
      ⟨a, by simpa using hused a ha, hbad⟩
    exact ⟨rs, hout, fun r => (hrs r).trans (or_iff_left_of_imp (hsub r))⟩

/-- `sub x,v` is a comparison of two registers and then an operation with its immediate. -/
theorem exec_subXV (b : RegAddr) (imm : BitVec 16) (s : State) :
    exec (.subXV b imm) s = aluImm (· - ·) b imm (s.flagged b (flagRegOf imm)) := by
  rw [State.flagged, ← s.regVal_noteReg b (flagRegOf imm)]; rfl

/-- The subtraction of `sub x,x` reads `b` before `c`, unlike the other operations (R175). -/
theorem exec_subXX (b c : RegAddr) (s : State) :
    exec (.subXX b c) s =
      .next (((((s.flagged b c).noteReg b).noteReg c).putReg b
        ((s.flagged b c).regVal b - (s.flagged b c).regVal c)).ret .cont) := by
  rw [← (s.flagged b c).regVal_noteReg b c, State.flagged, ← s.regVal_noteReg b c]; rfl

theorem exec_subXX_writes (b c : RegAddr) (s : State) :
    WritesReg (exec (.subXX b c) s) (s.flagged b c) b
      ((s.flagged b c).regVal b - (s.flagged b c).regVal c) [b, c] := by
  rw [exec_subXX]
  generalize s.flagged b c = t
  exact putReg_writes t ((t.noteReg b).noteReg c) b _ [c, b] [b, c] (fun _ => by simp) (fun _ => by simp)
    ((t.sameRest_noteReg b).trans ((t.noteReg b).sameRest_noteReg c)) (by simp) (by simp; tauto)

/-- Settles O31: the operands of the subtraction are those of the state after the flag write. -/
theorem subEffect : Obligations.SubEffect := by
  intro s b c imm
  constructor
  · have hwrite := aluImm_writes (· - ·) b imm (s.flagged b (flagRegOf imm))
    rw [← exec_subXV, State.regVal_flagged, zext_eq_ofNat_toNat] at hwrite
    rw [← flagRegOf_eq_ofNat_div]
    exact writesFlagThenReg_of_flagged (by simp) hwrite
  · have hwrite := exec_subXX_writes b c s
    rw [State.regVal_flagged, State.regVal_flagged] at hwrite
    exact writesFlagThenReg_of_flagged (by simp) hwrite

end Sys2Proof.Machine

/-! PROOFS of the statements of 60_exceptions.md: the step around the executor, its end by the debug view, the end-of-code test and the halt, and where it faults. -/

namespace Sys2Proof.Machine

/-! ### The executor inside the step (R210 to R213) -/

theorem execute_of_decode {q : Quad} {i : Instr} (h : decode q = .ok i) (s : State) :
    execute q s = exec i s := by
  simp only [execute, h]

theorem execute_undefined {q : Quad} (h : 0x25 ≤ q.a.toNat) (s : State) :
    execute q s = execInvalid q s := by
  simp only [execute, decode_undefined h]

/-- After an executor that answers a next state comes the end of the step. -/
theorem step_of_execute {s t : State} (hready : s.Ready)
    (hexec : execute s.fetched s.noteFetch = .next t) : step s = .next t.finish := by
  rw [step_ready hready, hexec, afterExec]

/-- A fetch wholly inside memory reports nothing. -/
theorem State.noteFetch_inside {s : State} (h0 : s.inMemory s.ipx = true)
    (h1 : s.inMemory (s.ipx + 1) = true) (h2 : s.inMemory (s.ipx + 2) = true)
    (h3 : s.inMemory (s.ipx + 3) = true) : s.noteFetch = s := by
  simp only [State.noteFetch, State.noteMem_inside, h0, h1, h2, h3]

theorem State.sameRegs_noteFetch (s : State) : s.SameRegs s.noteFetch := s.regVal_noteFetch

theorem State.sameMem_noteFetch (s : State) : s.SameMem s.noteFetch := by
  rw [s.noteFetch_eq]
  exact fun _ => rfl

theorem State.sameRest_noteFetch (s : State) : s.SameRest s.noteFetch := by
  rw [s.noteFetch_eq]
  constructor <;> rfl

/-- Settles O37: the step is the executor of the decoded instruction and what `finish` adds to its outcome. -/
theorem stepRunsDecodedInstruction : Obligations.StepRunsDecodedInstruction := by
  intro s i hready _ hdecode
  have hexecute : execute s.fetched s.noteFetch = exec i s.noteFetch :=
    execute_of_decode hdecode s.noteFetch
  refine ⟨?completed, ?waiting, ?faulted, State.noteFetch_inside⟩
  case completed =>
    intro t hexec hwait
    rw [step_of_execute hready (hexecute.trans hexec), finish_completed hwait]
  case waiting =>
    intro t hexec hwait
    rw [step_of_execute hready (hexecute.trans hexec), finish_waiting hwait]
  case faulted =>
    intro f hexec
    rw [step_ready hready, hexecute, hexec, afterExec]

/-! ### The bound, the halt and Idle (R227, R228, R215) -/

/-- Settles O41: the sum of words is the sum modulo 2^32. -/
theorem boundByEocMode : Obligations.BoundByEocMode := by
  intro s
  constructor
  · intro hlive
    apply BitVec.eq_of_toNat_eq
    simp [State.bound, hlive]
  · intro hlatched
    simp only [State.bound, hlatched]

/-- Settles O42: a halt is one update of the mode, the process, the code, the wait and the output. -/
theorem haltSequence : Obligations.HaltSequence := by
  intro s r
  exact ⟨s.halt_halted r, s.halt_out r, s.regVal_halt r, s.memVal_halt r, s.halt_ec r, s.halt_dbg r⟩

/-- In Idle a step serves the host. -/
theorem step_idle {s : State} (hidle : s.mode = .idle) (hlive : s.ended = false) :
    step s = .next s.idleStep := by
  simp only [step, runSequencer, hlive, hidle, Bool.false_eq_true, if_false]

theorem State.idleStep_noRequest {s : State} (h : s.hostCmds = []) : s.idleStep = s := by
  simp only [State.idleStep, h]

theorem State.idleStep_request {s : State} {c : HostCmd} {rest : List HostCmd}
    (h : s.hostCmds = c :: rest) : s.idleStep = { s with hostCmds := rest }.request c := by
  simp only [State.idleStep, h]

theorem State.idleStep_setDebug {s : State} (hidle : s.mode = .idle) {mode : DebugMode}
    {rest : List HostCmd} (h : s.hostCmds = .setDebug mode :: rest) :
    s.idleStep = { s with hostCmds := rest, dbg := mode } := by
  rw [State.idleStep_request h]
  exact if_pos hidle

theorem State.idleStep_quit {s : State} (hidle : s.mode = .idle) {rest : List HostCmd}
    (h : s.hostCmds = .quit :: rest) :
    s.idleStep = { s with hostCmds := rest, ended := true, out := .ended s.exitCode :: s.out } := by
  rw [State.idleStep_request h]
  exact if_pos hidle

/-- Settles O48: the step is the host's request, and each of the two requests is one update. -/
theorem idleExecutesNothing : Obligations.IdleExecutesNothing := by
  intro s hidle hlive
  rw [step_idle hidle hlive]
  refine ⟨fun hnone => ?_, fun mode rest hcmds => ?_, fun rest hcmds => ?_⟩
  · rw [State.idleStep_noRequest hnone]
  · rw [State.idleStep_setDebug hidle hcmds]
  · rw [State.idleStep_quit hidle hcmds]

/-! ### What the end of a completed step keeps (R212, R228) -/

theorem State.EndFrame.sameRegs {s u : State} (h : s.EndFrame u) : s.SameRegs u :=
  fun _ => by simp only [State.regVal, h.rf]

theorem State.EndFrame.sameMem {s u : State} (h : s.EndFrame u) : s.SameMem u :=
  fun _ => by simp [State.memVal, State.inMemory, h.mem, h.cfg]

/-- The end of a completed step is the post-increment, and what keeps all its registers and memory. -/
theorem State.finish_endFrame {t : State} (hwait : t.wait = .none) :
    t.postIncrement.EndFrame t.finish := by
  rw [finish_completed hwait]
  exact t.postIncrement.debugView_frame.1

theorem State.ipx_finish {t : State} (hwait : t.wait = .none) : t.finish.ipx = t.ipx + 4 :=
  ((State.finish_endFrame hwait).sameRegs Reg.ipx).trans
    ((t.regVal_postIncrement Reg.ipx).trans (if_pos rfl))

theorem State.regVal_finish {t : State} (hwait : t.wait = .none) {a : RegAddr} (ha : a ≠ Reg.ipx) :
    t.finish.regVal a = t.regVal a :=
  ((State.finish_endFrame hwait).sameRegs a).trans ((t.regVal_postIncrement a).trans (if_neg ha))

theorem State.sameMem_finish {t : State} (hwait : t.wait = .none) : t.SameMem t.finish :=
  (State.finish_endFrame hwait).sameMem

/-! ### What the end of a completed step sends (R237, R228, D19) -/

/-- After the view the tests send `halted` exactly where they halt. -/
theorem State.conclude_sentAfter {v : State} {before : List Event} (stop : Bool)
    (hrun : v.mode = .running)
    (hout : v.out = if v.dbg = .none then before else .debugView v.rf v.mem :: before) :
    (v.conclude stop).SentAfter before := by
  have hhalt : ∀ r, (v.halt r).SentAfter before := fun r =>
    .inr ⟨r, v.halt_halted r, congrArg (Event.halted r v.exitCode :: ·) hout⟩
  rcases conclude_cases stop v with ⟨r, -, h⟩ | ⟨-, -, h⟩ | ⟨-, -, -, h⟩ | ⟨-, -, -, h⟩ <;> rw [h]
  · exact hhalt r
  · exact hhalt _
  · exact hhalt _
  · exact .inl ⟨hrun, hout⟩

/-- Each debug mode but none sends one view; the wait for an answer sends nothing besides. -/
theorem State.debugView_sentAfter {s : State} (hrun : s.mode = .running) :
    s.debugView.SentAfter s.out := by
  rcases debugView_cases s with ⟨hd, h⟩ | ⟨hd, -, h⟩ | ⟨hd, -, h⟩ | ⟨hd, ans, rest, -, h⟩ <;> rw [h]
  · exact State.conclude_sentAfter false hrun (by simp [hd])
  · exact State.conclude_sentAfter false hrun (by simp [hd])
  · exact .inl ⟨hrun, by simp [hd]⟩
  · exact State.conclude_sentAfter _ hrun (by simp [hd])

theorem State.finish_sentAfter {t : State} (hwait : t.wait = .none) (hrun : t.mode = .running) :
    t.finish.SentAfter t.out := by
  rw [finish_completed hwait]
  exact State.debugView_sentAfter (s := t.postIncrement) hrun

/-- The fetch and the executor in one frame. -/
theorem executed_frame {s t : State} (hexec : execute s.fetched s.noteFetch = .next t) : s.Frame t :=
  s.noteFetch_frame.trans (execute_frame hexec).frame

/-- Settles O39: what the end of a completed step keeps, and what it sends. -/
theorem postIncrementOnEveryCompletedStep : Obligations.PostIncrementOnEveryCompletedStep := by
  intro s t hready hexec hwait
  have hrun : t.mode = .running := (executed_frame hexec).mode.trans hready.mode
  have hend := State.finish_endFrame hwait
  refine ⟨t.finish, step_of_execute hready hexec, State.ipx_finish hwait,
    fun a => State.regVal_finish hwait, State.sameMem_finish hwait, hend.ec, hend.cfg, hend.dbg,
    hend.eoc, hend.ended, hend.hostCmds, hend.lines, hend.draws, hend.running, ?_,
    State.finish_sentAfter hwait hrun⟩
  rw [finish_completed hwait]
  exact fun hmode => t.postIncrement.debugView_frame.2 hmode hwait

/-- The end of a read service, as of an instruction: the step, and what the executor did before it. -/
theorem step_completes {s t : State} (hrun : s.mode = .running) (hlive : s.ended = false)
    (h : (s.wait = .none ∧ execute s.fetched s.noteFetch = .next t ∧ t.wait = .none) ∨
      (∃ svc L rest, s.wait = .line svc ∧ s.lines = L :: rest ∧
        completeRead svc L { s with lines := rest, wait := .none } = .next t)) :
    step s = .next t.finish ∧ s.Frame t ∧ t.wait = .none := by
  rcases h with ⟨hnone, hexec, hwait⟩ | ⟨svc, L, rest, hline, hlines, hread⟩
  · have hready : s.Ready := ⟨hrun, hlive, hnone⟩
    exact ⟨step_of_execute hready hexec, executed_frame hexec, hwait⟩
  · have hresumed : s.Frame { s with lines := rest, wait := .none } :=
      s.frame_update s.rf s.ec s.code .none rest s.draws
    refine ⟨?_, hresumed.trans (completeRead_frame hread).frame, completeRead_wait hread rfl⟩
    rw [step_suspended_line hrun hlive hline hlines, hread, afterExec]

/-- Settles O60: the executor sends its own events, and the end of the step the view and `halted`. -/
theorem completedStepSendsOneView : Obligations.CompletedStepSendsOneView := by
  intro s t hrun hlive hcompletes
  obtain ⟨hstep, hframe, hwait⟩ := step_completes hrun hlive hcompletes
  obtain ⟨es, hout, hes⟩ := hframe.out
  exact ⟨t.finish, es, hstep, hout, hes, State.ipx_finish hwait, fun a => State.regVal_finish hwait,
    State.sameMem_finish hwait, (State.finish_endFrame hwait).dbg.trans hframe.dbg,
    State.finish_sentAfter hwait (hframe.mode.trans hrun)⟩

/-! ### The tests after the view, and which comes first (R225, R226, D25) -/

theorem State.conclude_stop {s : State} (hcode : s.code = .cont) :
    s.conclude true = s.halt .debugStop := by
  simp only [State.conclude, hcode, if_true]

/-- With CONTINUE and no stop the tests are the end-of-code test (R226), read off the state they leave. -/
theorem State.conclude_continue {s : State} (hcode : s.code = .cont) :
    ((s.conclude false).bound.toNat ≤ (s.conclude false).ipx.toNat →
      s.conclude false = s.halt .endOfCode) ∧
    ((s.conclude false).ipx.toNat < (s.conclude false).bound.toNat → s.conclude false = s) := by
  rcases conclude_cases false s with ⟨r, hterm, -⟩ | ⟨-, hstop, -⟩ | ⟨-, -, hle, h⟩ | ⟨-, -, hlt, h⟩
  · simp [hcode] at hterm
  · simp at hstop
  · rw [h]
    exact ⟨fun _ => rfl, fun hlt => absurd hle (Nat.not_le.mpr hlt)⟩
  · rw [h]
    exact ⟨fun hle => absurd hle (Nat.not_le.mpr hlt), fun _ => rfl⟩

/-- Unless the core waits for an answer, the debug view ends in the tests, which a stop of the host alone can turn. -/
theorem State.debugView_concludes {s : State} (hasked : s.dbg = .step → s.answers ≠ []) :
    ∃ (v : State) (stop : Bool), s.debugView = v.conclude stop ∧ v.code = s.code ∧ v.mode = s.mode ∧
      v.proc = s.proc ∧ v.wait = s.wait ∧
      (stop = true → s.dbg = .step ∧ s.answers.head? = some .stop) := by
  rcases debugView_cases s with ⟨-, h⟩ | ⟨-, -, h⟩ | ⟨hd, hnil, -⟩ | ⟨hd, ans, rest, hans, h⟩
  · exact ⟨s, false, h, rfl, rfl, rfl, rfl, by simp⟩
  · exact ⟨s.view, false, h, rfl, rfl, rfl, rfl, by simp⟩
  · exact absurd hnil (hasked hd)
  · refine ⟨_, answerStops ans, h, rfl, rfl, rfl, rfl, fun hstop => ⟨hd, ?_⟩⟩
    cases ans
    · cases hstop
    · simp [hans]

/-- Settles O40: without a stop the debug view ends in the end-of-code test. -/
theorem endOfCodeTest : Obligations.EndOfCodeTest := by
  intro s t u hready hexec hwait hcode hanswer hstep
  rw [step_of_execute hready hexec, finish_completed hwait] at hstep
  obtain ⟨v, stop, hview, hvcode, hvmode, hvproc, hvwait, hstop⟩ :=
    State.debugView_concludes (s := t.postIncrement) fun hmode => by
      obtain ⟨rest, hans⟩ := hanswer hmode
      simp [hans]
  have hgoes : stop = false := Bool.eq_false_iff.mpr fun h => by
    obtain ⟨hmode, hhead⟩ := hstop h
    obtain ⟨rest, hans⟩ := hanswer hmode
    simp [hans] at hhead
  subst hgoes
  obtain ⟨hends, hgoesOn⟩ := State.conclude_continue (hvcode.trans hcode)
  rw [hview] at hstep
  cases hstep
  constructor
  · intro hle
    rw [hends hle]
    exact v.halt_halted _
  · intro hlt
    rw [hgoesOn hlt]
    exact ⟨hvmode, hvproc, hvwait.trans hwait⟩

/-- The executor's reason ends a completed step, whatever the host has answered. -/
theorem State.finish_terminate {t : State} {r : HaltReason} (hwait : t.wait = .none)
    (hcode : t.code = .terminate r) (hasked : t.dbg = .step → t.answers ≠ []) :
    t.finish.Halted r := by
  obtain ⟨v, stop, hview, hvcode, -⟩ := State.debugView_concludes (s := t.postIncrement) hasked
  rw [finish_completed hwait, hview, State.conclude_terminate (hvcode.trans hcode)]
  exact v.halt_halted r

/-! ### The wait for the host's answer (R237, R238) -/

/-- The state that waits for the host's answer after its view. -/
def State.asking (s : State) : State := { s.view with wait := .debugAnswer }

/-- The state on which the tests run once the host has answered, with the answers still to come. -/
def State.answered (rest : List DebugAnswer) (s : State) : State :=
  { s with answers := rest, wait := .none }

theorem State.finish_unanswered {t : State} (hwait : t.wait = .none) (hmode : t.dbg = .step)
    (hans : t.answers = []) : t.finish = t.postIncrement.asking := by
  rw [finish_completed hwait]
  simp only [State.debugView, State.postIncrement_dbg, hmode, State.postIncrement_answers, hans,
    State.asking]

theorem State.finish_answered {t : State} {ans : DebugAnswer} {rest : List DebugAnswer}
    (hwait : t.wait = .none) (hmode : t.dbg = .step) (hans : t.answers = ans :: rest) :
    t.finish = (t.postIncrement.view.answered rest).conclude (answerStops ans) := by
  rw [finish_completed hwait]
  simp [State.debugView, State.answered, hmode, hans, hwait]

/-- A core that asks and gets no answer stays as it is (R238). -/
theorem State.step_asking {s : State} (hrun : s.mode = .running) (hlive : s.ended = false)
    (hans : s.answers = []) : step s.asking = .next s.asking := by
  simp [step, runSequencer, State.asking, hrun, hlive, waitStep, hans]

/-- The answer ends the wait, and the step with it. -/
theorem State.step_asking_answered {s : State} (hrun : s.mode = .running) (hlive : s.ended = false)
    (ans : DebugAnswer) (rest : List DebugAnswer) :
    step { s.asking with answers := ans :: rest } =
      .next ((s.view.answered rest).conclude (answerStops ans)) := by
  simp [step, runSequencer, State.asking, State.answered, hrun, hlive, waitStep]

/-- Settles O43: the tests look at the executor's code first, when the answer is there and when it comes later. -/
theorem executorsReasonWins : Obligations.ExecutorsReasonWins := by
  intro s t r hready hexec hwait hcode
  have hframe := executed_frame hexec
  have hstep := step_of_execute hready hexec
  refine ⟨?notAsked, ?answered, ?unanswered⟩
  case notAsked =>
    intro hmode
    exact ⟨_, hstep, State.finish_terminate hwait hcode (absurd · hmode)⟩
  case answered =>
    intro _ ans rest hans
    exact ⟨_, hstep, State.finish_terminate hwait hcode fun _ => by simp [hans]⟩
  case unanswered =>
    intro hmode hans
    have hrun : t.mode = .running := hframe.mode.trans hready.mode
    have hlive : t.ended = false := hframe.ended.trans hready.ended
    rw [State.finish_unanswered hwait hmode hans] at hstep
    refine ⟨_, hstep, rfl, fun ans rest => 
      ⟨_, State.step_asking_answered (s := t.postIncrement) hrun hlive ans rest, ?_⟩⟩
    rw [State.conclude_terminate (s := t.postIncrement.view.answered rest) hcode]
    exact State.halt_halted _ r

/-- A stop ends the process at once, whether the answer was there or came later. -/
theorem State.answered_stop {v : State} (hcode : v.code = .cont) (rest : List DebugAnswer) :
    (v.answered rest).conclude (answerStops .stop) = (v.answered rest).halt .debugStop :=
  State.conclude_stop (s := v.answered rest) hcode

@[simp] theorem State.conclude_answers (stop : Bool) (s : State) :
    (s.conclude stop).answers = s.answers := by
  rcases conclude_cases stop s with ⟨r, -, h⟩ | ⟨-, -, h⟩ | ⟨-, -, -, h⟩ | ⟨-, -, -, h⟩ <;> rw [h] <;> rfl

/-- A continue leads to the end-of-code test, whether the answer was there or came later. -/
theorem State.answered_continue {v : State} (hcode : v.code = .cont) (rest : List DebugAnswer) :
    ∃ w, w = (v.answered rest).conclude (answerStops .continue) ∧ w.rf = v.rf ∧ w.mem = v.mem ∧
      w.answers = rest ∧
      (w.bound.toNat ≤ w.ipx.toNat →
        w.Halted .endOfCode ∧ w.out = .halted .endOfCode w.exitCode :: v.out) ∧
      (w.ipx.toNat < w.bound.toNat → w.mode = v.mode ∧ w.wait = .none ∧ w.out = v.out) := by
  have hframe := (v.answered rest).conclude_frame (answerStops .continue)
  obtain ⟨hends, hgoesOn⟩ := State.conclude_continue (s := v.answered rest) hcode
  refine ⟨_, rfl, hframe.rf, hframe.mem, State.conclude_answers _ _, fun hle => ?_, fun hlt => ?_⟩
  · rw [answerStops, hends hle]
    exact ⟨State.halt_halted _ _, rfl⟩
  · rw [answerStops, hgoesOn hlt]
    exact ⟨rfl, rfl, rfl⟩

/-- Settles O44: the state that the answer meets is the same when it is there and when it comes later. -/
theorem stepModeAsksTheHost : Obligations.StepModeAsksTheHost := by
  intro s t hready hexec hwait hcode hmode
  have hframe := executed_frame hexec
  have hrun : t.mode = .running := hframe.mode.trans hready.mode
  have hlive : t.ended = false := hframe.ended.trans hready.ended
  have hstep := step_of_execute hready hexec
  have hviewed : t.postIncrement.view.code = .cont := hcode
  refine ⟨?stopped, ?continued, ?unanswered⟩
  case stopped =>
    intro rest hans
    rw [State.finish_answered hwait hmode hans, State.answered_stop hviewed] at hstep
    exact ⟨_, hstep, State.halt_halted _ _, rfl, rfl, rfl⟩
  case continued =>
    intro rest hans
    rw [State.finish_answered hwait hmode hans] at hstep
    obtain ⟨w, hw, hrf, hmem, hrest, htest⟩ := State.answered_continue hviewed rest
    refine ⟨w, hw ▸ hstep, hrest, ?_⟩
    rw [hrf, hmem]
    exact htest
  case unanswered =>
    intro hans
    rw [State.finish_unanswered hwait hmode hans] at hstep
    have hanswer := State.step_asking_answered (s := t.postIncrement) hrun hlive
    refine ⟨_, hstep, rfl, rfl, rfl, State.step_asking hrun hlive hans, fun rest => ?_, fun rest => ?_⟩
    · have hstop := hanswer .stop rest
      rw [State.answered_stop hviewed] at hstop
      exact ⟨_, hstop, State.halt_halted _ _, rfl, rfl, rfl⟩
    · obtain ⟨w, hw, -, -, hrest, htest⟩ := State.answered_continue hviewed rest
      exact ⟨w, hw ▸ hanswer .continue rest, hrest, htest⟩

/-! ### The executors that report and terminate (R218, R219) -/

/-- What a terminated process has sent: nothing can stand between the view and `halted`. -/
theorem State.SentAfter.of_halted {u : State} {before : List Event} {r : HaltReason}
    (h : u.SentAfter before) (hhalted : u.Halted r) :
    u.out = .halted r u.exitCode :: if u.dbg = .none then before else .debugView u.rf u.mem :: before := by
  rcases h with ⟨hrun, -⟩ | ⟨r', hhalted', hout⟩
  · simp [hhalted.mode] at hrun
  · have hsent := hhalted.sent
    rw [hhalted'.sent] at hsent
    cases hsent
    exact hout

/-- An executor that reads, reports and terminates: the step ends the process after the view, in every debug mode. -/
theorem step_reports_and_terminates {s before : State} {rep : Report} {reason : HaltReason}
    (hready : s.Ready) (hasked : s.dbg = .step → s.answers ≠ []) (hregs : s.SameRegs before)
    (hmem : s.SameMem before) (hrest : s.SameRest before)
    (hexec : execute s.fetched s.noteFetch = .next ((before.report rep).terminate reason)) :
    ∃ u, step s = .next u ∧ u.Halted reason ∧ u.ec = s.ec ∧ u.ipx = s.ipx + 4 ∧
      (∀ a, a ≠ Reg.ipx → u.regVal a = s.regVal a) ∧ s.SameMem u ∧
      u.out = .halted reason s.exitCode ::
        ((if s.dbg = .none then [] else [.debugView u.rf u.mem]) ++ .report rep :: before.out) := by
  generalize ht : (before.report rep).terminate reason = t at hexec
  have hwait : t.wait = .none := by subst ht; exact hrest.wait.trans hready.wait
  have hhalted : t.finish.Halted reason := State.finish_terminate hwait (by subst ht; rfl) <| by
    subst ht
    intro hmode
    rw [State.terminate_answers, State.report_answers, hrest.answers]
    exact hasked (hrest.dbg.symm.trans hmode)
  have hend := State.finish_endFrame hwait
  have hec : t.finish.ec = s.ec := by rw [hend.ec]; subst ht; exact hrest.ec
  have hdbg : t.finish.dbg = s.dbg := by rw [hend.dbg]; subst ht; exact hrest.dbg
  have hsent := (State.finish_sentAfter hwait
    ((executed_frame hexec).mode.trans hready.mode)).of_halted hhalted
  refine ⟨t.finish, step_of_execute hready hexec, hhalted, hec, ?ipx, ?regs, ?mem, ?out⟩
  case ipx =>
    rw [State.ipx_finish hwait]; subst ht
    exact congrArg (· + 4) (hregs Reg.ipx)
  case regs =>
    intro a ha
    rw [State.regVal_finish hwait ha]; subst ht
    exact hregs a
  case mem =>
    intro a
    rw [State.sameMem_finish hwait a]; subst ht
    exact hmem a
  case out =>
    rw [hsent, State.exitCode, hec, hdbg, ← State.exitCode]
    split <;> subst ht <;> rfl

/-- Settles O46: no opcode from 0x25 on is defined, and its executor reports and terminates. -/
theorem invalidOpcodeTerminates : Obligations.InvalidOpcodeTerminates := by
  intro s hready hasked hop
  exact step_reports_and_terminates hready hasked s.sameRegs_noteFetch s.sameMem_noteFetch
    s.sameRest_noteFetch (execute_undefined hop s.noteFetch)

/-- Settles O47: the immediate form reports after the fetch, the register form after the read of its divisor. -/
theorem divisionByZeroTerminates : Obligations.DivisionByZeroTerminates := by
  rintro s before b c hready hasked (⟨hdecode, rfl⟩ | ⟨hdecode, hzero, rfl⟩)
  · refine step_reports_and_terminates hready hasked s.sameRegs_noteFetch s.sameMem_noteFetch
      s.sameRest_noteFetch ?_
    rw [execute_of_decode hdecode, exec_divXV_zero, divZero]
  · have hdivisor : s.noteFetch.regVal c = 0 := (s.regVal_noteFetch c).trans hzero
    refine step_reports_and_terminates hready hasked (fun a => by simp)
      (fun a => (s.noteFetch.sameMem_noteReg c a).trans (s.sameMem_noteFetch a))
      (s.sameRest_noteFetch.trans (s.noteFetch.sameRest_noteReg c)) ?_
    rw [execute_of_decode hdecode, exec_divXX_of_eq_zero hdivisor, divZero]

/-! ### Where a step faults (R133 to R136, R220) -/

/-- The outcome is a next state or, only under `P`, the fault of the console input; it is never a refusal. -/
def NextOrFault (P : Prop) (o : Result) : Prop :=
  (∃ t, o = .next t) ∨ (P ∧ o = .fault .consoleInputUnspecified)

theorem nextOrFault_next {P : Prop} (t : State) : NextOrFault P (.next t) := .inl ⟨t, rfl⟩

theorem NextOrFault.mono {P Q : Prop} {o : Result} (h : NextOrFault P o) (hPQ : P → Q) :
    NextOrFault Q o :=
  h.imp_right (And.imp_left hPQ)

/-- The end of the step keeps a fault a fault. -/
theorem NextOrFault.afterExec {P : Prop} {o : Result} (h : NextOrFault P o) :
    NextOrFault P (afterExec o) := by
  rcases h with ⟨t, rfl⟩ | ⟨hP, rfl⟩
  · exact nextOrFault_next t.finish
  · exact .inr ⟨hP, rfl⟩

theorem NextOrFault.not_refused {P : Prop} {o : Result} (h : NextOrFault P o) (r : Refusal) :
    o ≠ .refused r := by
  rcases h with ⟨t, rfl⟩ | ⟨-, rfl⟩ <;> simp

theorem NextOrFault.of_fault {P : Prop} {o : Result} (h : NextOrFault P o) {f : Fault}
    (hf : o = .fault f) : f = .consoleInputUnspecified ∧ P := by
  rcases h with ⟨t, rfl⟩ | ⟨hP, rfl⟩
  · simp at hf
  · cases hf
    exact ⟨rfl, hP⟩

theorem giveParsed_nextOrFault {P : Prop} (hP : P) (w : Option Word) (s : State) :
    NextOrFault P (giveParsed w s) := by
  cases w with
  | none => exact .inr ⟨hP, rfl⟩
  | some v => exact nextOrFault_next _

/-- A line can always be pushed; it cannot always be converted. -/
theorem completeRead_nextOrFault (svc : ReadService) (L : List Byte) (s : State) :
    NextOrFault (svc ≠ .stackLine) (completeRead svc L s) := by
  cases svc with
  | char =>
    cases L with
    | nil => exact .inr ⟨by simp, rfl⟩
    | cons ch L => exact nextOrFault_next _
  | unsigned | signed | float => exact giveParsed_nextOrFault (by simp) _ s
  | stackLine => exact nextOrFault_next _

theorem readLine_nextOrFault (svc : ReadService) (s : State) :
    NextOrFault (svc ≠ .stackLine) (readLine svc s) := by
  cases hlines : s.lines with
  | nil => rw [readLine_noLine hlines]; exact nextOrFault_next _
  | cons L rest => rw [readLine_line hlines]; exact completeRead_nextOrFault svc L _

theorem consoleService_nextOrFault (s : State) :
    NextOrFault (6 ≤ s.sx.toNat ∧ s.sx.toNat ≤ 9) (consoleService s) := by
  unfold consoleService
  split
  -- The arms in the order of `sx` = 1 to 0xB, then every other number.
  case h_1 | h_2 | h_3 | h_4 | h_5 | h_11 | h_12 => exact nextOrFault_next _
  case h_6 hsx | h_7 hsx | h_8 hsx | h_9 hsx =>
    exact (readLine_nextOrFault _ s).mono fun _ => by omega
  case h_10 => exact (readLine_nextOrFault .stackLine s).mono (absurd rfl)

theorem trap_nextOrFault (n : Word) (s : State) :
    NextOrFault (n = 2 ∧ 6 ≤ s.sx.toNat ∧ s.sx.toNat ≤ 9) (trap n s) := by
  by_cases htwo : n = 2
  · subst htwo
    exact (consoleService_nextOrFault s).mono fun h => ⟨rfl, h⟩
  by_cases hone : n = 1
  · subst hone
    rw [show trap 1 s = processControl s from rfl, processControl]
    split_ifs <;> exact nextOrFault_next _
  · rw [trap_eq_trapNothing hone htwo]
    exact nextOrFault_next _

theorem jumpImm_nextOrFault {P : Prop} (taken : Bool) (off : BitVec 16) (s : State) :
    NextOrFault P (jumpImm taken off s) := by
  cases taken <;> exact nextOrFault_next _

theorem jumpReg_nextOrFault {P : Prop} (taken : Bool) (b : RegAddr) (s : State) :
    NextOrFault P (jumpReg taken b s) := by
  cases taken <;> exact nextOrFault_next _

/-- Of all instructions only a trap to the services 6 to 9 can fault, and none is refused. -/
theorem exec_nextOrFault (i : Instr) (s : State) :
    NextOrFault (TrapsWith i s 2 ∧ 6 ≤ s.sx.toNat ∧ s.sx.toNat ≤ 9) (exec i s) := by
  cases i with
  | excV imm =>
    exact (trap_nextOrFault (zext imm) s).mono fun ⟨hnum, hsx⟩ => ⟨.inl ⟨imm, rfl, hnum⟩, hsx⟩
  | excX b =>
    refine (trap_nextOrFault (s.regVal b) (s.noteReg b)).mono fun ⟨hnum, hsx⟩ => ⟨?_, ?_⟩
    · exact .inr ⟨b, rfl, s.validReg_of_regVal_ne_zero (by simp [hnum]), hnum⟩
    · simpa [State.sx] using hsx
  | jitVV | jitVX | jifVV | jifVX => exact jumpImm_nextOrFault _ _ _
  | jitXV | jitXX | jifXV | jifXX => exact jumpReg_nextOrFault _ _ _
  | divXV =>
    simp only [exec, execDivXV]
    split <;> exact nextOrFault_next _
  | divXX =>
    simp only [exec, execDivXX]
    split <;> exact nextOrFault_next _
  | nop | ldxXV | ldxXX | setV | setX | getX | notX | addXV | mulXV | andXV | orXV | xorXV | shlXV
    | shrXV | addXX | mulXX | andXX | orXX | xorXX | shlXX | shrXX | subXV | subXX | cmpXV | cmpXX =>
    exact nextOrFault_next _

theorem execute_nextOrFault (q : Quad) (s : State) :
    NextOrFault (∃ i, decode q = .ok i ∧ TrapsWith i s 2 ∧ 6 ≤ s.sx.toNat ∧ s.sx.toNat ≤ 9)
      (execute q s) := by
  unfold execute
  split
  · next i hdecode => exact (exec_nextOrFault i s).mono fun h => ⟨i, hdecode, h⟩
  · exact nextOrFault_next _

/-- A wait faults only where it completes a read of a character or a number. -/
theorem waitStep_nextOrFault (w : Wait) (s : State) :
    NextOrFault (∃ svc, w = .line svc ∧ svc ≠ .stackLine) (waitStep w s) := by
  cases w with
  | none | hung => exact nextOrFault_next s
  | line svc =>
    unfold waitStep
    dsimp only
    split
    · exact nextOrFault_next s
    · exact (completeRead_nextOrFault svc _ _).afterExec.mono fun h => ⟨svc, rfl, h⟩
  | debugAnswer =>
    unfold waitStep
    dsimp only
    split <;> exact nextOrFault_next _

theorem step_nextOrFault (s : State) :
    NextOrFault (s.mode = .running ∧
      ((∃ svc, s.wait = .line svc ∧ svc ≠ .stackLine) ∨
       (s.wait = .none ∧ ∃ i, decode s.fetched = .ok i ∧ TrapsWith i s 2 ∧
         6 ≤ s.sx.toNat ∧ s.sx.toNat ≤ 9))) (step s) := by
  rcases step_cases (s := s) rfl with ⟨-, h⟩ | ⟨-, -, h⟩ | ⟨hready, h⟩ | ⟨-, hrun, -, h⟩ <;> rw [h]
  · exact nextOrFault_next _
  · exact nextOrFault_next _
  · refine (execute_nextOrFault s.fetched s.noteFetch).afterExec.mono ?_
    rintro ⟨i, hdecode, htrap, hsx⟩
    exact ⟨hready.mode, .inr ⟨hready.wait, i, hdecode, htrap.of_noteFetch,
      by simpa [State.sx] using hsx⟩⟩
  · exact (waitStep_nextOrFault s.wait s).mono fun hline => ⟨hrun, .inl hline⟩

/-- Settles O59: the one fault is that of the conversions, which a trap or a resumed read reaches. -/
theorem stepFaultsOnlyOnConsoleInput : Obligations.StepFaultsOnlyOnConsoleInput := by
  intro s
  exact ⟨(step_nextOrFault s).not_refused, fun _ => (step_nextOrFault s).of_fault⟩

/-! ### No executor looks at the debug mode (R237) -/

/-- The same state in another debug mode. -/
def State.withDbg (d : DebugMode) (s : State) : State := { s with dbg := d }

/-- A change of the next state, where there is one. -/
def onNext (f : State → State) : Result → Result
  | .next t => .next (f t)
  | .fault r => .fault r
  | .refused r => .refused r

@[simp] theorem onNext_next (f : State → State) (t : State) : onNext f (.next t) = .next (f t) := rfl

section
variable (d : DebugMode) (s : State)

@[simp] theorem State.regVal_withDbg (a : RegAddr) : (s.withDbg d).regVal a = s.regVal a := rfl
@[simp] theorem State.memVal_withDbg (a : Word) : (s.withDbg d).memVal a = s.memVal a := rfl
@[simp] theorem State.fx_withDbg : (s.withDbg d).fx = s.fx := rfl
@[simp] theorem State.sx_withDbg : (s.withDbg d).sx = s.sx := rfl
@[simp] theorem State.ax_withDbg : (s.withDbg d).ax = s.ax := rfl
@[simp] theorem State.spx_withDbg : (s.withDbg d).spx = s.spx := rfl
@[simp] theorem State.target_withDbg (t : Word) : (s.withDbg d).target t = s.target t := rfl
@[simp] theorem State.ret_withDbg (c : Code) : (s.withDbg d).ret c = (s.ret c).withDbg d := rfl

@[simp] theorem State.noteReg_withDbg (a : RegAddr) :
    (s.withDbg d).noteReg a = (s.noteReg a).withDbg d := by
  unfold State.noteReg; split <;> rfl

@[simp] theorem State.putReg_withDbg (a : RegAddr) (v : Word) :
    (s.withDbg d).putReg a v = (s.putReg a v).withDbg d := by
  unfold State.putReg; split <;> rfl

@[simp] theorem State.noteMem_withDbg (a : Word) :
    (s.withDbg d).noteMem a = (s.noteMem a).withDbg d := by
  have hin : (s.withDbg d).inMemory a = s.inMemory a := rfl
  unfold State.noteMem; rw [hin]; split <;> rfl

@[simp] theorem State.putMem_withDbg (a : Word) (v : Byte) :
    (s.withDbg d).putMem a v = (s.putMem a v).withDbg d := by
  have hin : (s.withDbg d).inMemory a = s.inMemory a := rfl
  unfold State.putMem; rw [hin]; split <;> rfl

@[simp] theorem State.compare_withDbg (l r : Word) :
    (s.withDbg d).compare l r = (s.compare l r).withDbg d := s.putReg_withDbg d Reg.fx (cmpflag l r)

theorem State.rerollSsx_withDbg : (s.withDbg d).rerollSsx = s.rerollSsx.withDbg d := by
  have hset : (s.withDbg d).rerollSet = s.rerollSet := rfl
  have hdraw : (s.withDbg d).drawn = s.drawn := rfl
  unfold State.rerollSsx
  rw [hset, hdraw]
  split
  · exact s.countDraw.putReg_withDbg d _ _
  · rfl

@[simp] theorem State.loadReg_withDbg (b : RegAddr) (v : Word) :
    (s.withDbg d).loadReg b v = (s.loadReg b v).withDbg d := by
  unfold State.loadReg
  rw [State.putReg_withDbg]
  dsimp only
  split
  · exact State.rerollSsx_withDbg d _
  · rfl

theorem aluImm_withDbg (f : Word → Word → Word) (b : RegAddr) (imm : BitVec 16) :
    aluImm f b imm (s.withDbg d) = onNext (State.withDbg d) (aluImm f b imm s) := by
  simp [aluImm]

theorem aluReg_withDbg (f : Word → Word → Word) (b c : RegAddr) :
    aluReg f b c (s.withDbg d) = onNext (State.withDbg d) (aluReg f b c s) := by
  simp [aluReg]

theorem jumpImm_withDbg (taken : Bool) (off : BitVec 16) :
    jumpImm taken off (s.withDbg d) = onNext (State.withDbg d) (jumpImm taken off s) := by
  cases taken <;> simp [jumpImm]

theorem jumpReg_withDbg (taken : Bool) (b : RegAddr) :
    jumpReg taken b (s.withDbg d) = onNext (State.withDbg d) (jumpReg taken b s) := by
  cases taken <;> simp [jumpReg]

theorem pushLine_withDbg (L : List Byte) :
    pushLine L (s.withDbg d) = (pushLine L s).withDbg d := by
  induction L generalizing s with
  | nil => rfl
  | cons ch rest ih => simp [pushLine, ih]

theorem stringBytes_withDbg (n : Nat) (addr : Word) :
    stringBytes n addr (s.withDbg d) = stringBytes n addr s := by
  induction n generalizing addr with
  | zero => rfl
  | succ n ih => simp [stringBytes, ih]

theorem noteString_withDbg (n : Nat) (addr : Word) :
    noteString n addr (s.withDbg d) = (noteString n addr s).withDbg d := by
  induction n generalizing addr s with
  | zero => rfl
  | succ n ih => simp [noteString, ih]

theorem consoleOut_withDbg (c : ConsoleEvent) :
    consoleOut c (s.withDbg d) = onNext (State.withDbg d) (consoleOut c s) := rfl

theorem printString_withDbg : printString (s.withDbg d) = onNext (State.withDbg d) (printString s) := by
  simp only [printString, State.regVal_withDbg, stringBytes_withDbg, noteString_withDbg,
    consoleOut_withDbg]

theorem giveX0_withDbg (w : Word) :
    giveX0 w (s.withDbg d) = onNext (State.withDbg d) (giveX0 w s) := by
  simp [giveX0]

theorem giveParsed_withDbg (w : Option Word) :
    giveParsed w (s.withDbg d) = onNext (State.withDbg d) (giveParsed w s) := by
  cases w with
  | none => rfl
  | some v => exact giveX0_withDbg d s v

theorem completeRead_withDbg (svc : ReadService) (L : List Byte) :
    completeRead svc L (s.withDbg d) = onNext (State.withDbg d) (completeRead svc L s) := by
  cases svc with
  | char =>
    cases L with
    | nil => rfl
    | cons ch L => exact giveX0_withDbg d s.countDraw _
  | unsigned | signed | float => exact giveParsed_withDbg d s _
  | stackLine => simp [completeRead, pushLine_withDbg]

theorem readLine_withDbg (svc : ReadService) :
    readLine svc (s.withDbg d) = onNext (State.withDbg d) (readLine svc s) := by
  cases hlines : s.lines with
  | nil => rw [readLine_noLine (s := s.withDbg d) hlines, readLine_noLine hlines]; rfl
  | cons L rest =>
    rw [readLine_line (s := s.withDbg d) hlines, readLine_line hlines]
    exact completeRead_withDbg d { s.console .readLine with lines := rest } svc L

theorem consoleService_withDbg :
    consoleService (s.withDbg d) = onNext (State.withDbg d) (consoleService s) := by
  unfold consoleService
  rw [State.sx_withDbg]
  split
  -- The arms in the order of `sx` = 1 to 0xB, then every other number.
  case h_1 | h_2 | h_3 | h_4 | h_11 => exact consoleOut_withDbg d s _
  case h_5 => exact printString_withDbg d s
  case h_6 | h_7 | h_8 | h_9 | h_10 => exact readLine_withDbg d s _
  case h_12 => rfl

theorem processControl_withDbg :
    processControl (s.withDbg d) = onNext (State.withDbg d) (processControl s) := by
  unfold processControl
  rw [State.sx_withDbg]
  split_ifs <;> rfl

theorem trap_withDbg (n : Word) :
    trap n (s.withDbg d) = onNext (State.withDbg d) (trap n s) := by
  unfold trap
  split
  · exact processControl_withDbg d s
  · exact consoleService_withDbg d s
  · rfl
  · rfl

/-- Every instruction does in one debug mode what it does in another. -/
theorem exec_withDbg (i : Instr) :
    exec i (s.withDbg d) = onNext (State.withDbg d) (exec i s) := by
  cases i with
  | nop => rfl
  | excV imm => exact trap_withDbg d s _
  | excX b => simp [exec, execExcX, trap_withDbg]
  | jitVV off d' => exact jumpImm_withDbg d s _ _
  | jifVV off d' => exact jumpImm_withDbg d s _ _
  | jitXV b imm => exact jumpReg_withDbg d s _ _
  | jitVX | jitXX | jifVX | jifXV | jifXX =>
    simp [exec, execJitVX, execJitXX, execJifVX, execJifXV, execJifXX, jumpImm_withDbg, jumpReg_withDbg]
  | addXV | mulXV | andXV | orXV | xorXV | shlXV | shrXV => exact aluImm_withDbg d s _ _ _
  | addXX | mulXX | andXX | orXX | xorXX | shlXX | shrXX => exact aluReg_withDbg d s _ _ _
  | divXV =>
    simp only [exec, execDivXV]
    split
    · rfl
    · exact aluImm_withDbg d s _ _ _
  | divXX b c =>
    simp only [exec, execDivXX, State.regVal_withDbg, State.noteReg_withDbg]
    split
    · rfl
    · simp
  | ldxXV | ldxXX | setV | setX | getX | subXV | subXX | notX | cmpXV | cmpXX =>
    simp [exec, execLdxXV, execLdxXX, execSetV, execSetX, execGetX, execSubXV, execSubXX, execNotX,
      execCmpXV, execCmpXX]

theorem execute_withDbg (q : Quad) :
    execute q (s.withDbg d) = onNext (State.withDbg d) (execute q s) := by
  unfold execute
  split
  · exact exec_withDbg d s _
  · rfl

theorem State.noteFetch_withDbg : (s.withDbg d).noteFetch = s.noteFetch.withDbg d := by
  have hipx : (s.withDbg d).ipx = s.ipx := rfl
  simp only [State.noteFetch, hipx, State.noteMem_withDbg]

end

/-! ### A view only watches (R237) -/

/-- The tests at the end of a step look neither at the debug mode nor at what was sent out. -/
theorem State.conclude_withDbg_out (stop : Bool) (s : State) (d : DebugMode) (es : List Event) :
    { s with dbg := d, out := es }.conclude stop =
      { s.conclude stop with
        dbg := d, out := ({ s with dbg := d, out := es }.conclude stop).out } := by
  have hbound : { s with dbg := d, out := es }.bound = s.bound := rfl
  have hipx : { s with dbg := d, out := es }.ipx = s.ipx := rfl
  unfold State.conclude
  simp only [hbound, hipx]
  split
  · rfl
  · split_ifs <;> rfl

/-- Without a wait for an answer, the end of a step is the one without a debug mode but for what is sent. -/
theorem State.finish_watched {t : State} (hmode : t.dbg ≠ .step) :
    t.finish = { (t.withDbg .none).finish with dbg := t.dbg, out := t.finish.out } := by
  by_cases hwait : t.wait = .none
  · have hplain : (t.withDbg .none).finish = (t.postIncrement.withDbg .none).conclude false :=
      finish_completed hwait
    have hview : ∃ es, t.finish = { t.postIncrement with dbg := t.dbg, out := es }.conclude false := by
      rw [finish_completed hwait]
      rcases debugView_cases t.postIncrement with ⟨-, h⟩ | ⟨-, -, h⟩ | ⟨hd, -⟩ | ⟨hd, -⟩
      · exact ⟨_, h⟩
      · exact ⟨_, h⟩
      · exact absurd hd hmode
      · exact absurd hd hmode
    obtain ⟨es, hes⟩ := hview
    rw [hplain, hes]
    exact State.conclude_withDbg_out false (t.postIncrement.withDbg .none) t.dbg es
  · rw [finish_waiting hwait, finish_waiting (t := t.withDbg .none) hwait]
    rfl

/-- Settles O45: the executor does not look at the debug mode, and the end of the step only watches. -/
theorem debugViewChangesNoState : Obligations.DebugViewChangesNoState := by
  intro s u hready hwatch hstep
  rw [step_ready hready] at hstep
  obtain ⟨t, hexec, rfl⟩ := afterExec_next hstep
  have hdbg : t.dbg = s.dbg := (executed_frame hexec).dbg
  have hmode : t.dbg ≠ .step := by
    rw [hdbg]
    rcases hwatch with h | h | h <;> simp [h]
  have hready' : (s.withDbg .none).Ready := ⟨hready.mode, hready.ended, hready.wait⟩
  have hexec' : execute (s.withDbg .none).fetched (s.withDbg .none).noteFetch =
      .next (t.withDbg .none) := by
    rw [State.noteFetch_withDbg, execute_withDbg]
    exact congrArg (onNext (State.withDbg .none)) hexec
  refine ⟨_, step_of_execute hready' hexec', ?_⟩
  rw [← hdbg]
  exact State.finish_watched hmode

end Sys2Proof.Machine

/-! PROOFS of the statements of 70_reset_and_hazards.md: construction reset, and the start of a process. -/

namespace Sys2Proof.Machine

/-! ### Construction reset (R250, R251) -/

/-- INIT_MEM cut to the cells below a bound reads as before below it, and as the background from it on. -/
theorem Memory.read_filter_below (m : Memory) (n k : Nat) :
    Memory.read (m.filter (fun cell => cell.1 < n)) k =
      if k < n then m.read k else Memory.background := by
  induction m with
  | nil => simp [Memory.read]
  | cons cell rest ih =>
    obtain ⟨a, v⟩ := cell
    by_cases hak : a = k
    · subst hak
      by_cases han : a < n
      · simp [Memory.read, han]
      · simp [han, ih]
    · by_cases han : a < n <;> simp [Memory.read, han, hak, ih]

theorem RegFile.read_zero (a : RegAddr) : RegFile.read (Vector.replicate 25 0) a = 0 := by
  by_cases h : a.toNat < 25
  · simp [RegFile.read, h]
  · simp [RegFile.read, Vector.getElem?_eq_none (Nat.not_lt.mp h)]

theorem State.memVal_construct (c : Construction) (a : Word) :
    (State.construct c).memVal a = if a.toNat < c.memSize then c.initMem.read a.toNat else 0 := by
  have hmem : (State.construct c).mem.read a.toNat =
      if a.toNat < c.memSize then c.initMem.read a.toNat else 0 :=
    Memory.read_filter_below c.initMem c.memSize a.toNat
  have hsize : (State.construct c).cfg.memSize = c.memSize := rfl
  by_cases hin : a.toNat < c.memSize
  · rw [State.memVal_inside _ ((State.inMemory_iff _ a).mpr hin), hmem]
  · rw [State.memVal_outside _ a ((State.inMemory_eq_false_iff _ a).mpr (Nat.not_lt.mp hin)),
      if_neg hin]

/-- Settles O51: the constructed state field by field, its memory read through the cut to MEM_SIZE. -/
theorem constructionReset : Obligations.ConstructionReset := by
  intro c
  exact ⟨rfl, State.memVal_construct c, RegFile.read_zero, rfl, rfl, rfl, rfl, rfl, rfl⟩

/-- Settles O52: the default parameters are within their bounds, the memory list is empty, and the core is Idle with nothing pending. -/
theorem resetSatisfiesInvariant : Obligations.ResetSatisfiesInvariant where
  params := by decide
  memWf := State.reset_mem_wf
  memBelow := rfl
  running := by decide
  idle _ := ⟨rfl, rfl⟩
  code _ := rfl
  answer hans := by cases hans
  ended _ := rfl

/-! ### The registers and the base of a start (R253, R254) -/

theorem startRegs_eq (base len : Word) :
    startRegs base len = (((RegFile.write (Vector.replicate 25 0) Reg.csx base).write Reg.ipx base).write
      Reg.clx len) := rfl

theorem RegFile.read_startRegs (base len : Word) (a : RegAddr) :
    (startRegs base len).read a =
      if a = Reg.clx then len else if a = Reg.ipx then base else if a = Reg.csx then base else 0 := by
  simp only [startRegs_eq, RegFile.read_write, RegFile.read_zero, validReg_csx, validReg_ipx,
    validReg_clx, and_true]

/-- The draw modulo MAX_BASE is below MAX_BASE, and its 32-bit word is no larger than it (R253, D9). -/
theorem State.drawBase_lt {s : State} (h : s.cfg.wellFormed = true) :
    s.drawBase.toNat < s.cfg.maxBase := by
  simp only [Params.wellFormed, Bool.and_eq_true, decide_eq_true_eq] at h
  obtain ⟨⟨⟨-, hpos⟩, -⟩, -⟩ := h
  calc s.drawBase.toNat ≤ s.drawn % s.cfg.maxBase := by
        rw [State.drawBase, BitVec.toNat_ofNat]; exact Nat.mod_le _ _
    _ < s.cfg.maxBase := Nat.mod_lt _ hpos

/-! ### The start sequence (R254, R255) -/

/-- The state the code copy of a start runs on: the process exists and has STARTED set. -/
def State.withProcess (s : State) : State :=
  { s with proc := some { started := true, aborted := false } }

theorem copyCode_lines (addr : Word) (img : Image) (s : State) :
    (copyCode addr img s).lines = s.lines := by
  obtain ⟨-, hframe, -⟩ := copyCode_spec addr img s
  exact (congrArg State.lines hframe :)

theorem copyCode_draws (addr : Word) (img : Image) (s : State) :
    (copyCode addr img s).draws = s.draws := by
  obtain ⟨-, hframe, -⟩ := copyCode_spec addr img s
  exact (congrArg State.draws hframe :)

section

variable (base : Word) (img : Image) (s : State)

theorem State.startAt_cfg : (s.startAt base img).cfg = s.cfg :=
  (copyCode_frame base img s.withProcess).cfg
theorem State.startAt_ec : (s.startAt base img).ec = s.ec :=
  copyCode_ec base img s.withProcess
theorem State.startAt_proc : (s.startAt base img).proc = some { started := true, aborted := false } :=
  (copyCode_frame base img s.withProcess).proc
theorem State.startAt_dbg : (s.startAt base img).dbg = s.dbg :=
  (copyCode_frame base img s.withProcess).dbg
theorem State.startAt_ended : (s.startAt base img).ended = s.ended :=
  (copyCode_frame base img s.withProcess).ended
theorem State.startAt_hostCmds : (s.startAt base img).hostCmds = s.hostCmds :=
  (copyCode_frame base img s.withProcess).hostCmds
theorem State.startAt_lines : (s.startAt base img).lines = s.lines :=
  copyCode_lines base img s.withProcess
theorem State.startAt_answers : (s.startAt base img).answers = s.answers :=
  (copyCode_frame base img s.withProcess).answers
theorem State.startAt_draws : (s.startAt base img).draws = s.draws :=
  copyCode_draws base img s.withProcess
theorem State.startAt_code : (s.startAt base img).code = .cont := rfl

theorem State.startAt_ready (hlive : s.ended = false) : (s.startAt base img).Ready :=
  ⟨rfl, (s.startAt_ended base img).trans hlive, rfl⟩

theorem State.regVal_startAt (a : RegAddr) :
    (s.startAt base img).regVal a =
      if a = Reg.clx then BitVec.ofNat 32 img.length
      else if a = Reg.ipx then base else if a = Reg.csx then base else 0 :=
  RegFile.read_startRegs base _ a

theorem State.csx_startAt : (s.startAt base img).csx = base :=
  s.regVal_startAt base img Reg.csx

theorem State.ipx_startAt : (s.startAt base img).ipx = base :=
  s.regVal_startAt base img Reg.ipx

theorem State.clx_startAt : (s.startAt base img).clx = BitVec.ofNat 32 img.length :=
  s.regVal_startAt base img Reg.clx

theorem State.regVal_startAt_zero {a : RegAddr} (hcsx : a ≠ Reg.csx) (hipx : a ≠ Reg.ipx)
    (hclx : a ≠ Reg.clx) : (s.startAt base img).regVal a = 0 := by
  rw [s.regVal_startAt base img a, if_neg hclx, if_neg hipx, if_neg hcsx]

theorem State.startAt_stores : StoredFrom s (s.startAt base img) base img := by
  obtain ⟨hstored, -, -⟩ := copyCode_spec base img s.withProcess
  exact hstored

/-- The code copy reports exactly its bytes outside memory, and nothing else is sent. -/
theorem State.startAt_reports :
    s.Reports (s.startAt base img)
      (fun r => ∃ j, j < img.length ∧ badAddr s (base + BitVec.ofNat 32 j) r) := by
  obtain ⟨-, -, hreports⟩ := copyCode_spec base img s.withProcess
  exact hreports

/-- The latch is left alone where the bound is live, and set to the end of the image where it is latched (R227, D7). -/
theorem State.startAt_eoc :
    (s.startAt base img).eoc =
      if s.cfg.eocMode = .live then s.eoc else base + BitVec.ofNat 32 img.length := by
  have hcopy := copyCode_frame base img s.withProcess
  unfold State.withProcess at hcopy
  cases hmode : s.cfg.eocMode with
  | live => simp [State.startAt, hcopy.cfg, hcopy.eoc, hmode]
  | latched => simp [State.startAt, hcopy.cfg, hmode]

end

theorem State.start_wellFormed {s : State} {img : Image} (hidle : s.mode = .idle)
    (himg : Image.wellFormed img = true) :
    s.start (some img) = s.countDraw.startAt s.drawBase img :=
  if_pos ⟨hidle, himg⟩

/-- A start in Idle begins with the request off the queue and a draw used up. -/
theorem step_start {s : State} {img : Image} {rest : List HostCmd} (hidle : s.mode = .idle)
    (hlive : s.ended = false) (hcmds : s.hostCmds = .start (some img) :: rest)
    (himg : Image.wellFormed img = true) :
    step s = .next ({ s with hostCmds := rest }.countDraw.startAt s.drawBase img) := by
  rw [step_idle hidle hlive, State.idleStep_request hcmds]
  exact congrArg Host.Outcome.next (State.start_wellFormed hidle himg)

/-- Settles O49: the step is the start at the drawn base, whose registers, memory, reports and other fields the lemmas above give. -/
theorem startSequence : Obligations.StartSequence := by
  intro s img rest hidle hlive hcmds himg hcfg
  obtain ⟨rs, hout, hreports⟩ :=
    { s with hostCmds := rest }.countDraw.startAt_reports s.drawBase img
  refine ⟨_, rs, step_start hidle hlive hcmds himg, ?_⟩
  have heoc := { s with hostCmds := rest }.countDraw.startAt_eoc s.drawBase img
  have hlatched (h : s.cfg.eocMode = .latched) := heoc.trans (if_neg (by simp [h]))
  have hlivebound (h : s.cfg.eocMode = .live) := heoc.trans (if_pos h)
  rw [State.csx_startAt, State.ipx_startAt, State.clx_startAt]
  exact ⟨State.drawBase_lt hcfg, rfl, rfl, fun _ => State.regVal_startAt_zero _ _ _,
    State.startAt_stores _ _ _, State.startAt_ready _ _ _ hlive, State.startAt_proc _ _ _,
    State.startAt_code _ _ _, hlatched, hlivebound, State.startAt_ec _ _ _, State.startAt_dbg _ _ _,
    State.startAt_cfg _ _ _, State.startAt_hostCmds _ _ _, State.startAt_lines _ _ _,
    State.startAt_answers _ _ _, State.startAt_draws _ _ _, hout, hreports⟩

/-! ### The refused start (R252, D27) -/

theorem image_wellFormed_iff (img : Image) :
    Image.wellFormed img = true ↔ img ≠ [] ∧ img.length % 4 = 0 := by
  simp [Image.wellFormed]

theorem State.start_malformed {s : State} {img : Image} (himg : Image.wellFormed img = false) :
    s.start (some img) = s :=
  if_neg fun h => by simp [himg] at h

theorem State.start_running {s : State} (hrun : s.mode = .running) (image : Option Image) :
    s.start image = s := by
  cases image with
  | none => rfl
  | some img => exact if_neg fun h => by simp [hrun] at h

/-- From `s` to `u` no request was taken and no process was started: the process is the one of `s`, or it has ended. -/
structure State.StartsNothing (s u : State) : Prop where
  hostCmds : u.hostCmds = s.hostCmds
  eoc : u.eoc = s.eoc
  process : (u.mode = s.mode ∧ u.proc = s.proc) ∨ ∃ r, u.Halted r

theorem State.StartsNothing.refl (s : State) : s.StartsNothing s := ⟨rfl, rfl, .inl ⟨rfl, rfl⟩⟩

theorem State.EndFrame.startsNothing {s u : State} (h : s.EndFrame u) : s.StartsNothing u :=
  ⟨h.hostCmds, h.eoc, h.running⟩

/-- An executor before the end of its step changes nothing of this. -/
theorem State.StartsNothing.of_frame {s t u : State} (hf : s.Frame t) (h : t.StartsNothing u) :
    s.StartsNothing u where
  hostCmds := h.hostCmds.trans hf.hostCmds
  eoc := h.eoc.trans hf.eoc
  process := h.process.imp_left fun ⟨hmode, hproc⟩ => ⟨hmode.trans hf.mode, hproc.trans hf.proc⟩

theorem State.finish_startsNothing (t : State) : t.StartsNothing t.finish := by
  by_cases hwait : t.wait = .none
  · exact (State.finish_endFrame hwait).startsNothing.of_frame (t.frame_putReg _ _)
  · rw [finish_waiting hwait]
    exact .refl t

theorem waitStep_startsNothing {w : Wait} {s u : State} (h : waitStep w s = .next u) :
    s.StartsNothing u := by
  rcases waitStep_cases h with rfl | ⟨_, _, rest, t, hread, rfl⟩ | ⟨ans, rest, rfl⟩
  · exact .refl u
  · have hresumed : s.Frame { s with lines := rest, wait := .none } :=
      s.frame_update s.rf s.ec s.code .none rest s.draws
    exact t.finish_startsNothing.of_frame (hresumed.trans (completeRead_frame hread).frame)
  · obtain ⟨hcmds, heoc, hprocess⟩ := (State.conclude_frame (answerStops ans)
      { s with answers := rest, wait := .none }).startsNothing
    exact ⟨hcmds, heoc, hprocess⟩

theorem step_running_startsNothing {s u : State} (hrun : s.mode = .running)
    (h : step s = .next u) : s.StartsNothing u := by
  rcases step_cases h with ⟨-, hquit⟩ | ⟨-, hidle, -⟩ | ⟨-, hexec⟩ | ⟨-, -, -, hwait⟩
  · cases hquit; exact .refl s
  · simp [hrun] at hidle
  · obtain ⟨t, ht, rfl⟩ := afterExec_next hexec.symm
    exact t.finish_startsNothing.of_frame (executed_frame ht)
  · exact waitStep_startsNothing hwait.symm

/-- Settles O50: in Idle the request is dropped for each precondition it breaks, and a Running core's step serves no request. -/
theorem refusedStartChangesNothing : Obligations.RefusedStartChangesNothing := by
  refine ⟨fun s image rest hidle hlive hcmds hbroken => ?_,
    fun s image hrun => s.start_running hrun image, fun s u hrun hstep => ?_⟩
  · rw [step_idle hidle hlive, State.idleStep_request hcmds]
    refine congrArg Host.Outcome.next ?_
    rcases hbroken with rfl | rfl | ⟨img, rfl, hlen⟩
    · rfl
    · exact State.start_malformed rfl
    · refine State.start_malformed (Bool.eq_false_iff.mpr fun himg => ?_)
      obtain ⟨-, hmultiple⟩ := (image_wellFormed_iff img).mp himg
      exact hlen hmultiple
  · obtain ⟨hcmds, heoc, hprocess⟩ := step_running_startsNothing hrun hstep
    rw [hrun] at hprocess
    exact ⟨hcmds, heoc, hprocess⟩

end Sys2Proof.Machine

/-! PROOFS of the statements about all instructions at once: which registers and which bytes of memory an instruction can change. -/

namespace Sys2Proof.Machine

/-! ### The registers and the memory between two states -/

/-- If the outcome is a next state, it differs from `s` in no register but those of `regs`, and in no byte of memory unless `store` holds. -/
def ChangesOnly (o : Result) (s : State) (regs : List RegAddr) (store : Prop) : Prop :=
  ∀ t, o = .next t → (∀ a, a ∉ regs → t.regVal a = s.regVal a) ∧ (store ∨ s.SameMem t)

section
variable {o : Result} {s t : State} {b : RegAddr} {v : Word} {used regs : List RegAddr} {store : Prop}

theorem changesOnly_next (hregs : ∀ a, a ∉ regs → t.regVal a = s.regVal a)
    (hmem : store ∨ s.SameMem t) : ChangesOnly (.next t) s regs store := by
  rintro _ ⟨⟩
  exact ⟨hregs, hmem⟩

theorem changesOnly_fault (f : Fault) : ChangesOnly (.fault f) s regs store := by
  intro t ht
  cases ht

theorem ChangesOnly.mono {store' : Prop} (h : ChangesOnly o s regs store) (himp : store → store') :
    ChangesOnly o s regs store' := fun t ht =>
  (h t ht).imp_right (Or.imp_left himp)

/-- What was read or sent out before does not count as a change. -/
theorem ChangesOnly.of_same {s' : State} (h : ChangesOnly o s' regs store) (hregs : s.SameRegs s')
    (hmem : s.SameMem s') : ChangesOnly o s regs store := by
  intro t ht
  obtain ⟨hregs', hmem'⟩ := h t ht
  exact ⟨fun a ha => (hregs' a ha).trans (hregs a),
    hmem'.imp_right fun hsame a => (hsame a).trans (hmem a)⟩

theorem ChangesOnly.noteReg {c : RegAddr} (h : ChangesOnly o (s.noteReg c) regs store) :
    ChangesOnly o s regs store :=
  h.of_same (s.sameRegs_noteReg c) (s.sameMem_noteReg c)

/-! ### What each shape of effect changes -/

theorem DoesNothing.changesOnly (h : DoesNothing o s used) : ChangesOnly o s regs store := by
  obtain ⟨t, rfl, hregs, hmem, -⟩ := h
  exact changesOnly_next (fun a _ => hregs a) (.inr hmem)

theorem SendsConsole.changesOnly {c : ConsoleEvent} (h : SendsConsole o s c) :
    ChangesOnly o s regs store := by
  obtain ⟨t, rfl, -, hregs, hmem, -⟩ := h
  exact changesOnly_next (fun a _ => hregs a) (.inr hmem)

theorem TerminatesWith.changesOnly {reason : HaltReason} {r : Report}
    (h : TerminatesWith o s reason r used) : ChangesOnly o s regs store := by
  obtain ⟨t, rfl, hregs, hmem, -⟩ := h
  exact changesOnly_next (fun a _ => hregs a) (.inr hmem)

theorem StoresByte.changesOnly {addr : Word} {x : Byte} (h : StoresByte o s addr x used)
    (hstore : store) : ChangesOnly o s regs store := by
  obtain ⟨t, rfl, -, hregs, -⟩ := h
  exact changesOnly_next (fun a _ => hregs a) (.inl hstore)

theorem WritesReg.changesOnly (h : WritesReg o s b v used) : ChangesOnly o s [b] store := by
  obtain ⟨t, rfl, hval, hmem, -⟩ := h
  refine changesOnly_next (fun a ha => ?_) (.inr hmem)
  have hb : a ≠ b := List.ne_of_not_mem_cons ha
  simp [hval, hb]

theorem WritesFlagThenReg.changesOnly {f : Word} (h : WritesFlagThenReg o s f b v used) :
    ChangesOnly o s [b, Reg.fx] store := by
  obtain ⟨t, rfl, hval, hmem, -⟩ := h
  refine changesOnly_next (fun a ha => ?_) (.inr hmem)
  obtain ⟨hb, hfx⟩ : a ≠ b ∧ a ≠ Reg.fx := by simpa using ha
  simp [hval, hb, hfx]

theorem Jumps.changesOnly {taken : Prop} (h : Jumps o s taken v used) :
    ChangesOnly o s [Reg.ipx] store := by
  obtain ⟨t, rfl, -, -, hother, hmem, -⟩ := h
  exact changesOnly_next (fun a ha => hother a (List.ne_of_not_mem_cons ha)) (.inr hmem)

/-- A load of `slx` writes `ssx` besides when it re-rolls, and nothing besides when it hangs. -/
theorem LoadsSlx.changesOnly (h : LoadsSlx o s v used) : ChangesOnly o s [Reg.slx, Reg.ssx] store := by
  by_cases hsol : ∃ x, s.RerollSolution v x
  · obtain ⟨t, x, rfl, -, hval, hmem, -⟩ := h.rerolls hsol
    refine changesOnly_next (fun a ha => ?_) (.inr hmem)
    obtain ⟨hslx, hssx⟩ : a ≠ Reg.slx ∧ a ≠ Reg.ssx := by simpa using ha
    simp [hval, hslx, hssx]
  · obtain ⟨t, rfl, hval, hmem, -⟩ := h.hangs hsol
    refine changesOnly_next (fun a ha => ?_) (.inr hmem)
    have hslx : a ≠ Reg.slx := List.ne_of_not_mem_cons ha
    simp [hval, hslx]

end

/-! ### The shared operations of the executors -/

section
variable {store : Prop}

theorem jumpImm_changesOnly (taken : Bool) (off : BitVec 16) (s : State) :
    ChangesOnly (jumpImm taken off s) s [Reg.ipx] store :=
  (jumpImm_jumps taken off s s [] (fun _ => rfl) (fun _ => rfl) s.sameRest_refl rfl).changesOnly

theorem jumpReg_changesOnly (taken : Bool) (b : RegAddr) (s : State) :
    ChangesOnly (jumpReg taken b s) s [Reg.ipx] store :=
  (jumpReg_jumps taken b s s [] (fun _ => rfl) (fun _ => rfl) s.sameRest_refl rfl).changesOnly

theorem divXV_changesOnly (b : RegAddr) (imm : BitVec 16) (s : State) :
    ChangesOnly (exec (.divXV b imm) s) s [b] store := by
  obtain ⟨hquotient, hzero⟩ := divImmediateEffect s b imm
  by_cases himm : imm.toNat = 0
  · exact (hzero himm).changesOnly
  · exact (hquotient himm).changesOnly

theorem divXX_changesOnly (b c : RegAddr) (s : State) :
    ChangesOnly (exec (.divXX b c) s) s [b] store := by
  obtain ⟨hquotient, hzero⟩ := divRegisterEffect s b c
  by_cases hc : (s.regVal c).toNat = 0
  · exact (hzero hc).changesOnly
  · exact (hquotient hc).changesOnly

theorem ldxXV_changesOnly (b : RegAddr) (imm : BitVec 16) (s : State) :
    ChangesOnly (exec (.ldxXV b imm) s) s (mayWrite (.ldxXV b imm)) store := by
  by_cases hb : b = Reg.slx
  · subst hb
    exact (exec_ldxXV_slx s imm (used := []) (by simp)).changesOnly
  · rw [mayWrite, if_neg hb]
    exact (exec_ldxXV_writes s hb imm).changesOnly

theorem ldxXX_changesOnly (b c : RegAddr) (s : State) :
    ChangesOnly (exec (.ldxXX b c) s) s (mayWrite (.ldxXX b c)) store := by
  by_cases hb : b = Reg.slx
  · subst hb
    exact (exec_ldxXX_slx s c (used := []) (by simp)).changesOnly
  · rw [mayWrite, if_neg hb]
    exact (exec_ldxXX_writes s hb c).changesOnly

/-! ### The traps -/

theorem giveX0_changesOnly (w : Word) (s : State) :
    ChangesOnly (giveX0 w s) s [Reg.x0, Reg.spx] store := by
  refine changesOnly_next (fun a ha => ?_) (.inr (s.sameMem_putReg Reg.x0 w))
  have hx0 : a ≠ Reg.x0 := List.ne_of_not_mem_cons ha
  simp [State.regVal_putReg, hx0]

theorem giveParsed_changesOnly (w : Option Word) (s : State) :
    ChangesOnly (giveParsed w s) s [Reg.x0, Reg.spx] store := by
  cases w with
  | none => exact changesOnly_fault _
  | some v => exact giveX0_changesOnly v s

end

/-- Only a line pushed on the stack is stored in memory. -/
theorem completeRead_changesOnly (svc : ReadService) (L : List Byte) (s : State) :
    ChangesOnly (completeRead svc L s) s [Reg.x0, Reg.spx] (svc = .stackLine) := by
  cases svc with
  | char =>
    cases L with
    | nil => exact changesOnly_fault _
    | cons ch L =>
      exact (giveX0_changesOnly _ s.countDraw).of_same s.regVal_countDraw s.memVal_countDraw
  | unsigned | signed | float => exact giveParsed_changesOnly _ s
  | stackLine =>
    obtain ⟨t, -, hnext, hval, -⟩ := completeRead_stackLine L s
    rw [hnext]
    refine changesOnly_next (fun a ha => ?_) (.inl rfl)
    obtain ⟨hx0, hspx⟩ : a ≠ Reg.x0 ∧ a ≠ Reg.spx := by simpa using ha
    simp [hval, hx0, hspx]

/-- A suspension changes nothing, and a line is completed on a state with the same registers and memory. -/
theorem readLine_changesOnly (svc : ReadService) (s : State) :
    ChangesOnly (readLine svc s) s [Reg.x0, Reg.spx] (svc = .stackLine) := by
  cases hlines : s.lines with
  | nil =>
    rw [readLine_noLine hlines]
    exact changesOnly_next (fun _ _ => rfl) (.inr fun _ => rfl)
  | cons L rest =>
    rw [readLine_line hlines]
    exact (completeRead_changesOnly svc L _).of_same (fun _ => rfl) (fun _ => rfl)

theorem printString_changesOnly {regs : List RegAddr} {store : Prop} (s : State) :
    ChangesOnly (printString s) s regs store := by
  obtain ⟨hregs, hmem, -⟩ := noteString_frame (s.regVal Reg.x1).toNat (s.regVal Reg.x0) s
  exact (consoleOut_sends _ _).changesOnly.of_same hregs hmem

/-- The service 0xA alone stores in memory. -/
theorem consoleService_changesOnly (s : State) :
    ChangesOnly (consoleService s) s [Reg.x0, Reg.spx] (s.sx = 0xA) := by
  unfold consoleService
  split
  -- The arms in the order of `sx` = 1 to 0xB, then every other number.
  case h_1 | h_2 | h_3 | h_4 | h_11 => exact (consoleOut_sends _ s).changesOnly
  case h_5 => exact printString_changesOnly s
  case h_6 | h_7 | h_8 | h_9 => exact (readLine_changesOnly _ s).mono nofun
  case h_10 hsx => exact (readLine_changesOnly _ s).mono fun _ => BitVec.eq_of_toNat_eq hsx
  case h_12 => exact (trapNothing_does s).changesOnly

/-- Exit and abort write the exit code, which is no register. -/
theorem processControl_changesOnly {regs : List RegAddr} {store : Prop} (s : State) :
    ChangesOnly (processControl s) s regs store := by
  unfold processControl
  split_ifs
  · exact changesOnly_next (fun _ _ => rfl) (.inr fun _ => rfl)
  · exact changesOnly_next (fun _ _ => rfl) (.inr fun _ => rfl)
  · exact (trapNothing_does s).changesOnly

theorem trap_changesOnly (n : Word) (s : State) :
    ChangesOnly (trap n s) s [Reg.x0, Reg.spx] (n = 2 ∧ s.sx = 0xA) := by
  by_cases hone : n = 1
  · subst hone
    exact processControl_changesOnly s
  by_cases htwo : n = 2
  · subst htwo
    exact (consoleService_changesOnly s).mono fun hsx => ⟨rfl, hsx⟩
  · rw [trap_eq_trapNothing hone htwo]
    exact (trapNothing_does s).changesOnly

/-! ### Every instruction -/

/-- The instructions that may change a byte of memory: the two stores, and the trap that pushes a line (20_memory.md section 1). -/
def MayStore (i : Instr) (s : State) : Prop :=
  (∃ b, i = .setV b) ∨ (∃ b, i = .setX b) ∨ (TrapsWith i s 2 ∧ s.sx = 0xA)

/-- Each instruction's effect names all the registers and memory that it changes. -/
theorem exec_changesOnly (i : Instr) (s : State) :
    ChangesOnly (exec i s) s (mayWrite i) (MayStore i s) := by
  cases i with
  | nop => exact (trapNothing_does s).changesOnly
  | ldxXV b imm => exact ldxXV_changesOnly b imm s
  | ldxXX b c => exact ldxXX_changesOnly b c s
  | setV v =>
    obtain ⟨hstore, -⟩ := setEffect s v 0
    exact hstore.changesOnly (.inl ⟨v, rfl⟩)
  | setX b =>
    obtain ⟨-, hstore⟩ := setEffect s 0 b
    exact hstore.changesOnly (.inr (.inl ⟨b, rfl⟩))
  | getX b =>
    obtain ⟨t, hnext, hval, hmem, -⟩ := getEffect s b
    rw [hnext]
    refine changesOnly_next (fun a ha => ?_) (.inr hmem)
    have hb : a ≠ b := List.ne_of_not_mem_cons ha
    simp [hval, hb]
  | excV imm =>
    refine (trap_changesOnly (zext imm) s).mono fun ⟨hnum, hsx⟩ => ?_
    exact .inr (.inr ⟨.inl ⟨imm, rfl, hnum⟩, hsx⟩)
  | excX b =>
    refine (trap_changesOnly (s.regVal b) (s.noteReg b)).noteReg.mono fun ⟨hnum, hsx⟩ => ?_
    have hslot : validReg b = true := s.validReg_of_regVal_ne_zero (by simp [hnum])
    exact .inr (.inr ⟨.inr ⟨b, rfl, hslot, hnum⟩, by simpa [State.sx] using hsx⟩)
  | jitVV off | jifVV off => exact jumpImm_changesOnly _ off s
  | jitVX off d | jifVX off d => exact (jumpImm_changesOnly _ off (s.noteReg d)).noteReg
  | jitXV b => exact jumpReg_changesOnly _ b s
  | jitXX b c | jifXV b c | jifXX b c => exact (jumpReg_changesOnly _ b (s.noteReg c)).noteReg
  | addXV b imm | mulXV b imm | andXV b imm | orXV b imm | xorXV b imm | shlXV b imm | shrXV b imm =>
    exact (aluImm_writes _ b imm s).changesOnly
  | addXX b c | mulXX b c | andXX b c | orXX b c | xorXX b c | shlXX b c | shrXX b c =>
    exact (aluReg_writes _ b c s).changesOnly
  | subXV b imm =>
    obtain ⟨hsub, -⟩ := subEffect s b 0 imm
    exact hsub.changesOnly
  | subXX b c =>
    obtain ⟨-, hsub⟩ := subEffect s b c 0
    exact hsub.changesOnly
  | divXV b imm => exact divXV_changesOnly b imm s
  | divXX b c => exact divXX_changesOnly b c s
  | notX b => exact (exec_notX_writes s b).changesOnly
  | cmpXV b imm =>
    obtain ⟨hflag, -⟩ := cmpEffect s b 0 imm
    exact hflag.changesOnly
  | cmpXX b c =>
    obtain ⟨-, hflag⟩ := cmpEffect s b c 0
    exact hflag.changesOnly

/-- Settles O54: the effect of each instruction keeps every register outside `mayWrite`. -/
theorem instructionsWriteOnlyTheirRegisters : Obligations.InstructionsWriteOnlyTheirRegisters := by
  intro i s t a hexec ha
  obtain ⟨hregs, -⟩ := exec_changesOnly i s t hexec
  exact hregs a ha

/-- Settles O55: an instruction that is no store and no push keeps every byte. -/
theorem onlyStoresAndPushesChangeMemory : Obligations.OnlyStoresAndPushesChangeMemory := by
  intro i s t a hexec hchanged
  obtain ⟨-, hmem⟩ := exec_changesOnly i s t hexec
  exact hmem.resolve_right fun hsame => hchanged (hsame a)

end Sys2Proof.Machine
